-- ==== Sys2Proof/Word.lean ====
section
/-! DEFINITION. The word types of the engine (00_scope.md R15, R16). -/

namespace Sys2Proof

/-- A byte: the engine's data width (00_scope.md R15). -/
abbrev Byte := BitVec 8

/-- A 16-bit value: an address, a register pair, a port number, a vector (00_scope.md R15). -/
abbrev Word := BitVec 16

/-- One micro-operation word W, with fields op, a, b, imm (30_encoding.md R162). -/
abbrev UopWord := BitVec 32

end Sys2Proof
end

