-- ==== Sys2Proof/Syntax.lean ====
section
/-! DEFINITION. The 62 micro-operations (30_encoding.md R176), one constructor per row of spec/opcode_table.json, with the
register operands as names and not as numbers. -/

namespace Sys2Proof

/-- The 8-bit registers a micro-operation can name (10_state.md R40). -/
inductive Reg8 where
  | b | c | d | e | h | l | f | a | i | r
deriving DecidableEq, Repr

/-- The 16-bit registers a micro-operation can name (10_state.md R41). -/
inductive Reg16 where
  | bc | de | hl | sp | af | ix | iy | pc
deriving DecidableEq, Repr

/-- The micro-operations (30_encoding.md R164, R176). Operands stand in the assembler's order (30_encoding.md R178):
destination first. `endBlock` is END, `inp` is IN; `rd` of a store or of OUT is the address or port register. -/
inductive Instr where
  -- system (44_control_system.md)
  | nop
  | endBlock
  | halt
  | haltp
  | ei
  | di
  | im (n : BitVec 2)
  | exaf
  | exx
  -- moves, loads and stores, stack, block transfer, ports (43_move_memory_io.md)
  | ldi8 (rd : Reg8) (imm : Byte)
  | ldi16 (rd : Reg16) (imm : Word)
  | mov8 (rd rs : Reg8)
  | mov16 (rd rs : Reg16)
  | ldr8 (rd : Reg8) (rs : Reg16)
  | str8 (rd : Reg16) (rs : Reg8)
  | ldr16 (rd rs : Reg16)
  | str16 (rd rs : Reg16)
  | lda8 (rd : Reg8) (addr : Word)
  | sta8 (addr : Word) (rs : Reg8)
  | lda16 (rd : Reg16) (addr : Word)
  | sta16 (addr : Word) (rs : Reg16)
  | push (rs : Reg16)
  | pop (rd : Reg16)
  | xfer (rd rs : Reg16)
  | xfern (rd rs : Reg16) (len : Word)
  | inp (rd : Reg8) (rs : Reg16)
  | out (rd : Reg16) (rs : Reg8)
  -- 8-bit arithmetic and logic (40_alu8.md)
  | add (rd rs : Reg8)
  | adc (rd rs : Reg8)
  | sub (rd rs : Reg8)
  | sbc (rd rs : Reg8)
  | and (rd rs : Reg8)
  | or (rd rs : Reg8)
  | xor (rd rs : Reg8)
  | inc (rd : Reg8)
  | dec (rd : Reg8)
  -- rotates, shifts, decimal adjust, bit test (41_alu_rotate_bcd_bit.md)
  | rl (rd : Reg8)
  | rr (rd : Reg8)
  | rlc (rd : Reg8)
  | rrc (rd : Reg8)
  | sla (rd : Reg8)
  | sra (rd : Reg8)
  | srl (rd : Reg8)
  | daa (rd : Reg8)
  | bit (n : BitVec 3) (rs : Reg8)
  -- 16-bit arithmetic (42_alu16.md)
  | add16 (rd rs : Reg16)
  | adc16 (rd rs : Reg16)
  | sub16 (rd rs : Reg16)
  | sbc16 (rd rs : Reg16)
  -- 8-bit arithmetic and logic with an immediate (40_alu8.md)
  | addi (rd : Reg8) (imm : Byte)
  | adci (rd : Reg8) (imm : Byte)
  | subi (rd : Reg8) (imm : Byte)
  | sbci (rd : Reg8) (imm : Byte)
  | andi (rd : Reg8) (imm : Byte)
  | ori (rd : Reg8) (imm : Byte)
  | xori (rd : Reg8) (imm : Byte)
  -- control transfer (44_control_system.md)
  | jp (addr : Word)
  | jpc (cc : BitVec 4) (addr : Word)
  | jpr (rs : Reg16)
  | call (addr : Word)
  | ret
  | retn
deriving DecidableEq, Repr

end Sys2Proof
end

