-- ==== Sys2Proof/WellFormed.lean ====
section
/-! DEFINITION. Which terms of Instr are micro-operations (30_encoding.md R168, R169 clauses iv and v). A register number
that names no register (clause iii) has no term of Instr, and the must-be-zero bits (clause ii) have none either. -/

namespace Sys2Proof

/-- `rd` may be the destination of an 8-bit ALU micro-operation: not F (30_encoding.md R168 a). -/
def Reg8.aluDest (rd : Reg8) : Bool :=
  rd != .f

/-- `rd` may be the destination of a 16-bit ALU micro-operation: not AF, not PC (30_encoding.md R168 b). -/
def Reg16.aluDest (rd : Reg16) : Bool :=
  rd != .af && rd != .pc

/-- `rd` may be the destination of LDI16, MOV16, LDR16, LDA16, POP: not PC (30_encoding.md R168 c). -/
def Reg16.dataDest (rd : Reg16) : Bool :=
  rd != .pc

/-- The interrupt mode `n` may be named by `IM n`: not 3 (44_control_system.md R336, 30_encoding.md R169 iv). -/
def legalMode (n : BitVec 2) : Bool :=
  n != 3

/-- The term is a micro-operation (30_encoding.md R168, R169). -/
def Instr.wf : Instr → Bool
  | .nop => true
  | .endBlock => true
  | .halt => true
  | .haltp => true
  | .ei => true
  | .di => true
  | .im n => legalMode n
  | .exaf => true
  | .exx => true
  | .ldi8 _ _ => true
  | .ldi16 rd _ => rd.dataDest
  | .mov8 _ _ => true
  | .mov16 rd _ => rd.dataDest
  | .ldr8 _ _ => true
  | .str8 _ _ => true
  | .ldr16 rd _ => rd.dataDest
  | .str16 _ _ => true
  | .lda8 _ _ => true
  | .sta8 _ _ => true
  | .lda16 rd _ => rd.dataDest
  | .sta16 _ _ => true
  | .push _ => true
  | .pop rd => rd.dataDest
  | .xfer _ _ => true
  | .xfern _ _ _ => true
  | .inp _ _ => true
  | .out _ _ => true
  | .add rd _ => rd.aluDest
  | .adc rd _ => rd.aluDest
  | .sub rd _ => rd.aluDest
  | .sbc rd _ => rd.aluDest
  | .and rd _ => rd.aluDest
  | .or rd _ => rd.aluDest
  | .xor rd _ => rd.aluDest
  | .inc rd => rd.aluDest
  | .dec rd => rd.aluDest
  | .rl rd => rd.aluDest
  | .rr rd => rd.aluDest
  | .rlc rd => rd.aluDest
  | .rrc rd => rd.aluDest
  | .sla rd => rd.aluDest
  | .sra rd => rd.aluDest
  | .srl rd => rd.aluDest
  | .daa rd => rd.aluDest
  | .bit _ _ => true
  | .add16 rd _ => rd.aluDest
  | .adc16 rd _ => rd.aluDest
  | .sub16 rd _ => rd.aluDest
  | .sbc16 rd _ => rd.aluDest
  | .addi rd _ => rd.aluDest
  | .adci rd _ => rd.aluDest
  | .subi rd _ => rd.aluDest
  | .sbci rd _ => rd.aluDest
  | .andi rd _ => rd.aluDest
  | .ori rd _ => rd.aluDest
  | .xori rd _ => rd.aluDest
  | .jp _ => true
  | .jpc _ _ => true
  | .jpr _ => true
  | .call _ => true
  | .ret => true
  | .retn => true

end Sys2Proof
end

