-- ==== Sys2Proof/Decode.lean ====
section
/-! DEFINITION. The decoder of one micro-operation word (30_encoding.md R162 to R169), total on any bytes and rejecting by
name, and after it the encoder of a well-formed micro-operation. -/

namespace Sys2Proof

/-- Why a word is not a micro-operation (30_encoding.md R169 clauses i to v); `truncated` is fewer than four bytes. -/
inductive DecodeError where
  | unassignedOp
  | mustBeZero
  | noSuchRegister
  | modeThree
  | forbiddenDestination
  | truncated
deriving DecidableEq, Repr

/-- The field `op` = W[31:24] (30_encoding.md R162). -/
def fieldOp (w : UopWord) : BitVec 8 :=
  w.extractLsb' 24 8

/-- The field `a` = W[23:20] (30_encoding.md R162). -/
def fieldA (w : UopWord) : BitVec 4 :=
  w.extractLsb' 20 4

/-- The field `b` = W[19:16] (30_encoding.md R162). -/
def fieldB (w : UopWord) : BitVec 4 :=
  w.extractLsb' 16 4

/-- The field `imm` = W[15:0] (30_encoding.md R162). -/
def fieldImm (w : UopWord) : Word :=
  w.extractLsb' 0 16

/-- The 8-bit register numbered `n` (10_state.md R40). -/
def Reg8.ofCode (n : BitVec 4) : Option Reg8 :=
  match n.toNat with
  | 0 => some .b
  | 1 => some .c
  | 2 => some .d
  | 3 => some .e
  | 4 => some .h
  | 5 => some .l
  | 6 => some .f
  | 7 => some .a
  | 8 => some .i
  | 9 => some .r
  | _ => none

/-- The number of an 8-bit register (10_state.md R40). -/
def Reg8.code : Reg8 → BitVec 4
  | .b => 0
  | .c => 1
  | .d => 2
  | .e => 3
  | .h => 4
  | .l => 5
  | .f => 6
  | .a => 7
  | .i => 8
  | .r => 9

/-- The 16-bit register numbered `n` (10_state.md R41). -/
def Reg16.ofCode (n : BitVec 4) : Option Reg16 :=
  match n.toNat with
  | 0 => some .bc
  | 1 => some .de
  | 2 => some .hl
  | 3 => some .sp
  | 4 => some .af
  | 5 => some .ix
  | 6 => some .iy
  | 7 => some .pc
  | _ => none

/-- The number of a 16-bit register (10_state.md R41). -/
def Reg16.code : Reg16 → BitVec 4
  | .bc => 0
  | .de => 1
  | .hl => 2
  | .sp => 3
  | .af => 4
  | .ix => 5
  | .iy => 6
  | .pc => 7

/-- The bits that must be zero are zero (30_encoding.md R169 ii). -/
def needZero (zero : Bool) (rest : Except DecodeError Instr) : Except DecodeError Instr :=
  if zero then rest else .error .mustBeZero

/-- The field names an 8-bit register (30_encoding.md R169 iii). -/
def needReg8 (n : BitVec 4) (rest : Reg8 → Except DecodeError Instr) : Except DecodeError Instr :=
  match Reg8.ofCode n with
  | some reg => rest reg
  | none => .error .noSuchRegister

/-- The field names a 16-bit register (30_encoding.md R169 iii). -/
def needReg16 (n : BitVec 4) (rest : Reg16 → Except DecodeError Instr) : Except DecodeError Instr :=
  match Reg16.ofCode n with
  | some reg => rest reg
  | none => .error .noSuchRegister

/-- Format Z (30_encoding.md R164). -/
def formatZ (w : UopWord) (i : Instr) : Except DecodeError Instr :=
  needZero (fieldA w == 0 && fieldB w == 0 && fieldImm w == 0) (.ok i)

/-- Format N2 (30_encoding.md R164). -/
def formatN2 (w : UopWord) (mk : BitVec 2 → Instr) : Except DecodeError Instr :=
  needZero (fieldA w == 0 && fieldB w == 0 && (fieldImm w).extractLsb' 2 14 == 0)
    (.ok (mk ((fieldImm w).extractLsb' 0 2)))

/-- Format D8I (30_encoding.md R164). -/
def formatD8I (w : UopWord) (mk : Reg8 → Byte → Instr) : Except DecodeError Instr :=
  needZero (fieldB w == 0 && (fieldImm w).extractLsb' 8 8 == 0)
    (needReg8 (fieldA w) fun rd => .ok (mk rd ((fieldImm w).extractLsb' 0 8)))

/-- Format D16I (30_encoding.md R164). -/
def formatD16I (w : UopWord) (mk : Reg16 → Word → Instr) : Except DecodeError Instr :=
  needZero (fieldB w == 0) (needReg16 (fieldA w) fun rd => .ok (mk rd (fieldImm w)))

/-- Format D8S8 (30_encoding.md R164). -/
def formatD8S8 (w : UopWord) (mk : Reg8 → Reg8 → Instr) : Except DecodeError Instr :=
  needZero (fieldImm w == 0)
    (needReg8 (fieldA w) fun rd => needReg8 (fieldB w) fun rs => .ok (mk rd rs))

/-- Format D16S16 (30_encoding.md R164). -/
def formatD16S16 (w : UopWord) (mk : Reg16 → Reg16 → Instr) : Except DecodeError Instr :=
  needZero (fieldImm w == 0)
    (needReg16 (fieldA w) fun rd => needReg16 (fieldB w) fun rs => .ok (mk rd rs))

/-- Format D8S16 (30_encoding.md R164). -/
def formatD8S16 (w : UopWord) (mk : Reg8 → Reg16 → Instr) : Except DecodeError Instr :=
  needZero (fieldImm w == 0)
    (needReg8 (fieldA w) fun rd => needReg16 (fieldB w) fun rs => .ok (mk rd rs))

/-- Format D16S8 (30_encoding.md R164). -/
def formatD16S8 (w : UopWord) (mk : Reg16 → Reg8 → Instr) : Except DecodeError Instr :=
  needZero (fieldImm w == 0)
    (needReg16 (fieldA w) fun rd => needReg8 (fieldB w) fun rs => .ok (mk rd rs))

/-- Format D8A (30_encoding.md R164). -/
def formatD8A (w : UopWord) (mk : Reg8 → Word → Instr) : Except DecodeError Instr :=
  needZero (fieldB w == 0) (needReg8 (fieldA w) fun rd => .ok (mk rd (fieldImm w)))

/-- Format S8A (30_encoding.md R164). -/
def formatS8A (w : UopWord) (mk : Word → Reg8 → Instr) : Except DecodeError Instr :=
  needZero (fieldA w == 0) (needReg8 (fieldB w) fun rs => .ok (mk (fieldImm w) rs))

/-- Format S16A (30_encoding.md R164). -/
def formatS16A (w : UopWord) (mk : Word → Reg16 → Instr) : Except DecodeError Instr :=
  needZero (fieldA w == 0) (needReg16 (fieldB w) fun rs => .ok (mk (fieldImm w) rs))

/-- Format S16 (30_encoding.md R164). -/
def formatS16 (w : UopWord) (mk : Reg16 → Instr) : Except DecodeError Instr :=
  needZero (fieldA w == 0 && fieldImm w == 0) (needReg16 (fieldB w) fun rs => .ok (mk rs))

/-- Format D16 (30_encoding.md R164). -/
def formatD16 (w : UopWord) (mk : Reg16 → Instr) : Except DecodeError Instr :=
  needZero (fieldB w == 0 && fieldImm w == 0) (needReg16 (fieldA w) fun rd => .ok (mk rd))

/-- Format D8 (30_encoding.md R164). -/
def formatD8 (w : UopWord) (mk : Reg8 → Instr) : Except DecodeError Instr :=
  needZero (fieldB w == 0 && fieldImm w == 0) (needReg8 (fieldA w) fun rd => .ok (mk rd))

/-- Format S8B (30_encoding.md R164). -/
def formatS8B (w : UopWord) (mk : BitVec 3 → Reg8 → Instr) : Except DecodeError Instr :=
  needZero (fieldA w == 0 && (fieldImm w).extractLsb' 3 13 == 0)
    (needReg8 (fieldB w) fun rs => .ok (mk ((fieldImm w).extractLsb' 0 3) rs))

/-- Format D16S16N (30_encoding.md R164). -/
def formatD16S16N (w : UopWord) (mk : Reg16 → Reg16 → Word → Instr) : Except DecodeError Instr :=
  needReg16 (fieldA w) fun rd => needReg16 (fieldB w) fun rs => .ok (mk rd rs (fieldImm w))

/-- Format A16 (30_encoding.md R164). -/
def formatA16 (w : UopWord) (mk : Word → Instr) : Except DecodeError Instr :=
  needZero (fieldA w == 0 && fieldB w == 0) (.ok (mk (fieldImm w)))

/-- Format CA16 (30_encoding.md R164). -/
def formatCA16 (w : UopWord) (mk : BitVec 4 → Word → Instr) : Except DecodeError Instr :=
  needZero (fieldB w == 0) (.ok (mk (fieldA w) (fieldImm w)))

/-- The operation map with the format of each micro-operation (30_encoding.md R176, R164). -/
def decodeFormat (w : UopWord) : Except DecodeError Instr :=
  match (fieldOp w).toNat with
  | 0x00 => formatZ w .nop
  | 0x01 => formatZ w .endBlock
  | 0x02 => formatZ w .halt
  | 0x03 => formatZ w .haltp
  | 0x04 => formatZ w .ei
  | 0x05 => formatZ w .di
  | 0x06 => formatN2 w Instr.im
  | 0x07 => formatZ w .exaf
  | 0x08 => formatZ w .exx
  | 0x10 => formatD8I w Instr.ldi8
  | 0x11 => formatD16I w Instr.ldi16
  | 0x12 => formatD8S8 w Instr.mov8
  | 0x13 => formatD16S16 w Instr.mov16
  | 0x14 => formatD8S16 w Instr.ldr8
  | 0x15 => formatD16S8 w Instr.str8
  | 0x16 => formatD16S16 w Instr.ldr16
  | 0x17 => formatD16S16 w Instr.str16
  | 0x18 => formatD8A w Instr.lda8
  | 0x19 => formatS8A w Instr.sta8
  | 0x1A => formatD16I w Instr.lda16
  | 0x1B => formatS16A w Instr.sta16
  | 0x1C => formatS16 w Instr.push
  | 0x1D => formatD16 w Instr.pop
  | 0x1E => formatD16S16 w Instr.xfer
  | 0x1F => formatD16S16N w Instr.xfern
  | 0x20 => formatD8S16 w Instr.inp
  | 0x21 => formatD16S8 w Instr.out
  | 0x40 => formatD8S8 w Instr.add
  | 0x41 => formatD8S8 w Instr.adc
  | 0x42 => formatD8S8 w Instr.sub
  | 0x43 => formatD8S8 w Instr.sbc
  | 0x44 => formatD8S8 w Instr.and
  | 0x45 => formatD8S8 w Instr.or
  | 0x46 => formatD8S8 w Instr.xor
  | 0x48 => formatD8 w Instr.inc
  | 0x49 => formatD8 w Instr.dec
  | 0x4A => formatD8 w Instr.rl
  | 0x4B => formatD8 w Instr.rr
  | 0x4C => formatD8 w Instr.rlc
  | 0x4D => formatD8 w Instr.rrc
  | 0x4E => formatD8 w Instr.sla
  | 0x4F => formatD8 w Instr.sra
  | 0x50 => formatD8 w Instr.srl
  | 0x51 => formatD8 w Instr.daa
  | 0x52 => formatS8B w Instr.bit
  | 0x58 => formatD16S16 w Instr.add16
  | 0x59 => formatD16S16 w Instr.adc16
  | 0x5A => formatD16S16 w Instr.sub16
  | 0x5B => formatD16S16 w Instr.sbc16
  | 0x60 => formatD8I w Instr.addi
  | 0x61 => formatD8I w Instr.adci
  | 0x62 => formatD8I w Instr.subi
  | 0x63 => formatD8I w Instr.sbci
  | 0x64 => formatD8I w Instr.andi
  | 0x65 => formatD8I w Instr.ori
  | 0x66 => formatD8I w Instr.xori
  | 0x80 => formatA16 w Instr.jp
  | 0x81 => formatCA16 w Instr.jpc
  | 0x82 => formatS16 w Instr.jpr
  | 0x83 => formatA16 w Instr.call
  | 0x84 => formatZ w .ret
  | 0x85 => formatZ w .retn
  | _ => .error .unassignedOp

/-- Clauses iv and v of 30_encoding.md R169: the mode of IM is not 3, the destination is allowed. -/
def checkOperands (i : Instr) : Except DecodeError Instr :=
  if i.wf then .ok i else
    match i with
    | .im _ => .error .modeThree
    | _ => .error .forbiddenDestination

/-- The micro-operation a word is, or why it is none (30_encoding.md R169). -/
def decodeWord (w : UopWord) : Except DecodeError Instr :=
  match decodeFormat w with
  | .ok i => checkOperands i
  | .error e => .error e

/-- The word whose memory image is the four bytes at p, p+1, p+2, p+3 (30_encoding.md R163). -/
def wordOfBytes (b0 b1 b2 b3 : Byte) : UopWord :=
  b0 ++ b1 ++ b3 ++ b2

/-- The memory image of a word: op, then a and b, then imm low byte first (30_encoding.md R163). -/
def bytesOfWord (w : UopWord) : List Byte :=
  [w.extractLsb' 24 8, w.extractLsb' 16 8, w.extractLsb' 0 8, w.extractLsb' 8 8]

/-- Decode the first four bytes of a list, with the bytes that remain (30_encoding.md R163, R172). -/
def decodeBytes : List Byte → Except DecodeError (Instr × List Byte)
  | b0 :: b1 :: b2 :: b3 :: rest =>
    match decodeWord (wordOfBytes b0 b1 b2 b3) with
    | .ok i => .ok (i, rest)
    | .error e => .error e
  | _ => .error .truncated

/-- The instruction the decoder reads from a row's bits `w`, `nbits` of them, the bits above being zero: the memory image
of the word is given to the decoder (30_encoding.md R163, R172: one length, 32 bits). -/
def decodeTableWord (nbits w : Nat) : Option Instr :=
  match decodeBytes (bytesOfWord (BitVec.ofNat 32 (w % 2 ^ nbits))) with
  | .ok (i, _) => some i
  | .error _ => none

/-- The terminators, after which RD0 ends a block (30_encoding.md R171). -/
def Instr.isTerminator : Instr → Bool
  | .endBlock | .halt | .haltp | .jp _ | .jpc _ _ | .jpr _ | .call _ | .ret | .retn => true
  | _ => false

/-- The micro-operation makes its block HALT-class (30_encoding.md R174). -/
def Instr.haltsCpu : Instr → Bool
  | .halt | .haltp => true
  | _ => false

/-- The micro-operation makes its block halt the peripherals too (30_encoding.md R174). -/
def Instr.haltsPeripherals : Instr → Bool
  | .haltp => true
  | _ => false

/-- A body is well formed: its micro-operations are, and at most one of them is a terminator, the last one
(30_encoding.md R161). -/
def wfBody : List Instr → Bool
  | [] => true
  | [i] => i.wf
  | i :: rest => i.wf && !i.isTerminator && wfBody rest

/-- The word with the given fields (30_encoding.md R162). -/
def assemble (op : BitVec 8) (a b : BitVec 4) (imm : Word) : UopWord :=
  op ++ a ++ b ++ imm

/-- The word of a micro-operation (30_encoding.md R164, R176). -/
def encode : Instr → UopWord
  | .nop => assemble 0x00 0 0 0
  | .endBlock => assemble 0x01 0 0 0
  | .halt => assemble 0x02 0 0 0
  | .haltp => assemble 0x03 0 0 0
  | .ei => assemble 0x04 0 0 0
  | .di => assemble 0x05 0 0 0
  | .im n => assemble 0x06 0 0 (n.setWidth 16)
  | .exaf => assemble 0x07 0 0 0
  | .exx => assemble 0x08 0 0 0
  | .ldi8 rd imm => assemble 0x10 rd.code 0 (imm.setWidth 16)
  | .ldi16 rd imm => assemble 0x11 rd.code 0 imm
  | .mov8 rd rs => assemble 0x12 rd.code rs.code 0
  | .mov16 rd rs => assemble 0x13 rd.code rs.code 0
  | .ldr8 rd rs => assemble 0x14 rd.code rs.code 0
  | .str8 rd rs => assemble 0x15 rd.code rs.code 0
  | .ldr16 rd rs => assemble 0x16 rd.code rs.code 0
  | .str16 rd rs => assemble 0x17 rd.code rs.code 0
  | .lda8 rd addr => assemble 0x18 rd.code 0 addr
  | .sta8 addr rs => assemble 0x19 0 rs.code addr
  | .lda16 rd imm => assemble 0x1A rd.code 0 imm
  | .sta16 addr rs => assemble 0x1B 0 rs.code addr
  | .push rs => assemble 0x1C 0 rs.code 0
  | .pop rd => assemble 0x1D rd.code 0 0
  | .xfer rd rs => assemble 0x1E rd.code rs.code 0
  | .xfern rd rs len => assemble 0x1F rd.code rs.code len
  | .inp rd rs => assemble 0x20 rd.code rs.code 0
  | .out rd rs => assemble 0x21 rd.code rs.code 0
  | .add rd rs => assemble 0x40 rd.code rs.code 0
  | .adc rd rs => assemble 0x41 rd.code rs.code 0
  | .sub rd rs => assemble 0x42 rd.code rs.code 0
  | .sbc rd rs => assemble 0x43 rd.code rs.code 0
  | .and rd rs => assemble 0x44 rd.code rs.code 0
  | .or rd rs => assemble 0x45 rd.code rs.code 0
  | .xor rd rs => assemble 0x46 rd.code rs.code 0
  | .inc rd => assemble 0x48 rd.code 0 0
  | .dec rd => assemble 0x49 rd.code 0 0
  | .rl rd => assemble 0x4A rd.code 0 0
  | .rr rd => assemble 0x4B rd.code 0 0
  | .rlc rd => assemble 0x4C rd.code 0 0
  | .rrc rd => assemble 0x4D rd.code 0 0
  | .sla rd => assemble 0x4E rd.code 0 0
  | .sra rd => assemble 0x4F rd.code 0 0
  | .srl rd => assemble 0x50 rd.code 0 0
  | .daa rd => assemble 0x51 rd.code 0 0
  | .bit n rs => assemble 0x52 0 rs.code (n.setWidth 16)
  | .add16 rd rs => assemble 0x58 rd.code rs.code 0
  | .adc16 rd rs => assemble 0x59 rd.code rs.code 0
  | .sub16 rd rs => assemble 0x5A rd.code rs.code 0
  | .sbc16 rd rs => assemble 0x5B rd.code rs.code 0
  | .addi rd imm => assemble 0x60 rd.code 0 (imm.setWidth 16)
  | .adci rd imm => assemble 0x61 rd.code 0 (imm.setWidth 16)
  | .subi rd imm => assemble 0x62 rd.code 0 (imm.setWidth 16)
  | .sbci rd imm => assemble 0x63 rd.code 0 (imm.setWidth 16)
  | .andi rd imm => assemble 0x64 rd.code 0 (imm.setWidth 16)
  | .ori rd imm => assemble 0x65 rd.code 0 (imm.setWidth 16)
  | .xori rd imm => assemble 0x66 rd.code 0 (imm.setWidth 16)
  | .jp addr => assemble 0x80 0 0 addr
  | .jpc cc addr => assemble 0x81 cc 0 addr
  | .jpr rs => assemble 0x82 0 rs.code 0
  | .call addr => assemble 0x83 0 0 addr
  | .ret => assemble 0x84 0 0 0
  | .retn => assemble 0x85 0 0 0

/-- The memory image of a micro-operation (30_encoding.md R163). -/
def encodeBytes (i : Instr) : List Byte :=
  bytesOfWord (encode i)

end Sys2Proof
end

