-- ==== Sys2Proof/Config.lean ====
section
/-! DEFINITION. What an implementation fixes (00_scope.md R15), compiled blocks and the decoders that form them, the fatal
errors (60_exceptions.md R402), and the free values: opaque constants without a body, of which nothing can be proved but
their type. -/

namespace Sys2Proof

/-- The kind of a segment (20_memory.md R82). -/
inductive SegmentKind where
  | ram | rom | peripheral | unused
deriving DecidableEq, Repr

/-- The capability of a segment: Read, Write or Both (20_memory.md R82, R86). -/
inductive Capability where
  | read | write | both
deriving DecidableEq, Repr

/-- An AddressSegment with its optional initial contents (20_memory.md R82, R89). -/
structure Segment where
  kind   : SegmentKind
  base   : Word
  length : Nat
  cap    : Capability
  init   : Option (List Byte)
deriving DecidableEq, Repr

/-- `WRITE_FAULT_POLICY` and `READ_FAULT_POLICY` (00_scope.md R15, 20_memory.md R86). -/
inductive FaultPolicy where
  | ignore | raise
deriving DecidableEq, Repr

/-- `BITTEST_SIGN` (41_alu_rotate_bcd_bit.md R257, 93_implementation_defined.md U22). -/
inductive BitTestSign where
  | document | conventional
deriving DecidableEq, Repr

/-- A compiled block: `address`, where it was decoded, the bytes it was translated from, its cycles and halt bits, and as
its action a body of micro-operations (30_encoding.md R160, R161). DESIGN CHOICE (log 31): the halt bits are the decoder's
own. `cyclesUsed` is the count its execution returns, `none` where that depends on the run (log 22). -/
structure Block where
  address          : Word
  length           : Nat
  staticCycles     : Nat
  haltsCpu         : Bool
  haltsPeripherals : Bool
  body             : List Instr
  cyclesUsed       : Option Nat
deriving DecidableEq, Repr

/-- What a decoder does next: read a byte of the address space, return a block, or return UnsupportedInstruction with the
address it names (00_scope.md R10, 20_memory.md R136). -/
inductive DecoderMove where
  | read (address : Word)
  | block (b : Block)
  | unsupported (address : Word)
deriving DecidableEq, Repr, Inhabited

/-- The parameter `Decoder` (00_scope.md R10, R15): the reference decoder RD0 (30_encoding.md R170), or the platform's
decoder of a number (log 12). -/
inductive Decoder where
  | rd0
  | platform (n : Nat)
deriving DecidableEq, Repr

/-- The parameters of the engine (00_scope.md R15). `unusedRead = none` and `ramInit = none` are the spec's default
"unspecified". DESIGN CHOICE (log 29): `maxBlockUops` bounds the body of every decoder's block. DESIGN CHOICE (log 26): a
given `RAM_INIT` is one byte, which every byte of every RAM or ROM segment without contents holds. `throttle` is the cycle
frequency, `none` for unthrottled: no rule reads it (70_reset_and_hazards.md R530). -/
structure Config where
  segments         : List Segment
  writeFaultPolicy : FaultPolicy
  readFaultPolicy  : FaultPolicy
  unusedRead       : Option Byte
  ramInit          : Option Byte
  decoder          : Decoder
  maxBlockUops     : Nat
  sweepEnabled     : Bool
  throttle         : Option Nat
  bitTestSign      : BitTestSign
deriving DecidableEq, Repr

/-- One RAM segment of 0x10000 bytes without initial contents, the platform of the document's end-to-end example
(60_exceptions.md R451); the other parameters at the defaults of 00_scope.md R15.
DESIGN CHOICE (log 4): both fault policies are `raise`. -/
def Config.default : Config where
  segments         := [{ kind := .ram, base := 0, length := 0x10000, cap := .both, init := none }]
  writeFaultPolicy := .raise
  readFaultPolicy  := .raise
  unusedRead       := none
  ramInit          := none
  decoder          := .rd0
  maxBlockUops     := 16
  sweepEnabled     := false
  throttle         := none
  bitTestSign      := .document

/-- FREE VALUE (log 7): the byte of the n-th draw (00_scope.md R20 "Draw"; 93_implementation_defined.md U5, U6, U7, U9). -/
opaque Config.draw : Nat → Byte

/-- FREE VALUE (log 2): what a RAM or ROM byte given no contents holds after reset, one value for each address, stable
until written (93_implementation_defined.md U3). -/
opaque Config.ramByte : Nat → Byte

/-- FREE VALUE (log 12): what decoder number `n` does next on the block at an address, given the bytes it has read so far,
the first one first (00_scope.md R10; 93_implementation_defined.md U20). -/
opaque Config.decoderMove : Nat → Word → List Byte → DecoderMove

/-- FREE VALUE (log 12): a number of byte reads within which decoder number `n` answers. -/
opaque Config.decoderReads : Nat → Nat

/-- FREE VALUE (log 22): the cycles the n-th draw gives for an execution whose block names no count
(93_implementation_defined.md U37). -/
opaque Config.cycles : Nat → Nat

/-- A closed range of addresses (20_memory.md R80). -/
structure AddressRange where
  low  : Nat
  high : Nat
deriving DecidableEq, Repr

/-- The fatal error classes with the information each records (60_exceptions.md R402). -/
inductive FatalError where
  | addressGap (expected next : Nat)
  | addressOverlap (base expected : Nat)
  | invalidSegmentLength (base : Nat)
  | initialContentsLength (base : Nat)
  | writeFault (address : Word)
  | readFault (address : Word)
  | unsupportedInstruction (address : Word)
  | dmaDrainTimeout
  | interruptDrainTimeout
deriving DecidableEq, Repr

end Sys2Proof
end

