-- ==== Sys2Proof/Machine/AddressSpace.lean ====
section
/-! DEFINITION. Address ranges, the segment table and its validation (20_memory.md R80 to R91), as functions of the
configuration. -/

namespace Sys2Proof

/-- The number of addresses of the space (00_scope.md R15). -/
abbrev spaceSize : Nat := 0x10000

/-- The capability includes Read (20_memory.md R86). -/
def Capability.canRead : Capability → Bool
  | .read | .both => true
  | .write => false

/-- The capability includes Write (20_memory.md R86). -/
def Capability.canWrite : Capability → Bool
  | .write | .both => true
  | .read => false

/-- The kind is backed by an array `data` of the engine (20_memory.md R83, 10_state.md R46). -/
def SegmentKind.backed : SegmentKind → Bool
  | .ram | .rom => true
  | .peripheral | .unused => false

/-- The code of each error class (60_exceptions.md R402). -/
def FatalError.code : FatalError → Nat
  | .addressGap _ _ => 1
  | .addressOverlap _ _ => 2
  | .invalidSegmentLength _ => 3
  | .initialContentsLength _ => 4
  | .writeFault _ => 5
  | .readFault _ => 6
  | .unsupportedInstruction _ => 7
  | .dmaDrainTimeout => 8
  | .interruptDrainTimeout => 9

/-- The range is one of the address space (20_memory.md R80). -/
def AddressRange.wf (x : AddressRange) : Bool :=
  x.low ≤ x.high && x.high < spaceSize

/-- The closed ranges intersect (20_memory.md R80). -/
def AddressRange.intersects (x y : AddressRange) : Bool :=
  max x.low y.low ≤ min x.high y.high

/-- `Ranges(address, length)`: the one or two ranges covering the bytes, none for length 0 (20_memory.md R81). -/
def rangesOf (address : Word) (length : Nat) : List AddressRange :=
  let n := min length spaceSize
  let last := address.toNat + n - 1
  if n = 0 then []
  else if last < spaceSize then [⟨address.toNat, last⟩]
  else [⟨address.toNat, spaceSize - 1⟩, ⟨0, last - spaceSize⟩]

/-- Some range of one list intersects some range of the other (20_memory.md R137). -/
def rangesMeet (xs ys : List AddressRange) : Bool :=
  xs.any fun x => ys.any fun y => x.intersects y

/-- Insert a segment before the first one with a base not below its own. -/
def insertSegment (s : Segment) : List Segment → List Segment
  | [] => [s]
  | t :: rest => if s.base.toNat ≤ t.base.toNat then s :: t :: rest else t :: insertSegment s rest

/-- Construction sorts by base; equal bases keep their order (20_memory.md R87). -/
def sortSegments : List Segment → List Segment
  | [] => []
  | s :: rest => insertSegment s (sortSegments rest)

/-- Validation of the sorted list from the address `expected` on (20_memory.md R88). -/
def checkTiling : Nat → List Segment → Option FatalError
  | expected, [] =>
    if expected < spaceSize then some (.addressGap expected spaceSize)
    else if expected > spaceSize then some (.addressOverlap spaceSize expected)
    else none
  | expected, s :: rest =>
    if s.base.toNat > expected then some (.addressGap expected s.base.toNat)
    else if s.base.toNat < expected then some (.addressOverlap s.base.toNat expected)
    else if s.length < 1 then some (.invalidSegmentLength s.base.toNat)
    else checkTiling (expected + s.length) rest

/-- The first RAM or ROM segment whose initial contents have another length than it has (20_memory.md R89). -/
def checkContents : List Segment → Option FatalError
  | [] => none
  | s :: rest =>
    match s.kind.backed, s.init with
    | true, some bytes =>
      if bytes.length = s.length then checkContents rest else some (.initialContentsLength s.base.toNat)
    | _, _ => checkContents rest

/-- The error construction raises, if any: validation first, then the initial contents (20_memory.md R88, R89). -/
def configError (segments : List Segment) : Option FatalError :=
  match checkTiling 0 (sortSegments segments) with
  | some e => some e
  | none => checkContents (sortSegments segments)

/-- The segment of an address in the sorted table, the last one with a base not above it (20_memory.md R91). -/
def floorSegment : List Segment → Nat → Option Segment
  | [], _ => none
  | s :: rest, a =>
    match floorSegment rest a with
    | some t => some t
    | none => if s.base.toNat ≤ a then some s else none

/-- What an address no segment holds is treated as: backed by nothing. A validated table holds every address
(20_memory.md R91), so no engine that leaves reset reaches it. DESIGN CHOICE (log 15). -/
def noSegment : Segment :=
  { kind := .unused, base := 0, length := spaceSize, cap := .both, init := none }

/-- The segment of an address (20_memory.md R91). -/
def Config.segmentAt (c : Config) (a : Word) : Segment :=
  (floorSegment c.segments a.toNat).getD noSegment

/-- The byte an address holds at reset where the configuration gives one: the segment's initial contents, else `RAM_INIT`
(20_memory.md R89, 10_state.md R60; that it is one byte for all is log 26); `none` is the spec's "unspecified". -/
def Config.resetByte (c : Config) (a : Word) : Option Byte :=
  let seg := c.segmentAt a
  match seg.kind.backed, seg.init with
  | true, some bytes => bytes[a.toNat - seg.base.toNat]?
  | true, none => c.ramInit
  | false, _ => none

end Sys2Proof
end

