-- ==== Sys2Proof/Machine/Memory.lean ====
section
/-! DEFINITION. The bytes of the RAM and ROM segments (10_state.md R46) as a list of (address, byte) pairs in one canonical
form: addresses strictly rising, and no entry equal to the byte the address is known to hold at reset. -/

namespace Sys2Proof.Machine

/-- The bytes written so far, by rising address. -/
abbrev Memory := List Host.Cell

/-- The byte listed for an address. -/
def Memory.get? : Memory → Nat → Option Byte
  | [], _ => none
  | (k, v) :: rest, a => if k = a then some v else Memory.get? rest a

/-- List the byte `v` for the address `a`. -/
def Memory.insert : Memory → Nat → Byte → Memory
  | [], a, v => [(a, v)]
  | (k, w) :: rest, a, v =>
    if a < k then (a, v) :: (k, w) :: rest
    else if a = k then (a, v) :: rest
    else (k, w) :: Memory.insert rest a v

/-- List nothing for the address `a`. -/
def Memory.erase (m : Memory) (a : Nat) : Memory :=
  m.filter fun e => e.1 != a

/-- A performed write (20_memory.md R83) where the address holds `known` at reset: writing that byte removes the entry. -/
def Memory.write (known : Option Byte) (m : Memory) (a : Nat) (v : Byte) : Memory :=
  if known = some v then m.erase a else m.insert a v

/-- The byte an unlisted address of a RAM or ROM segment reads as: the configured one, else the free value of the address
(20_memory.md R89, 93_implementation_defined.md U3; log 2). -/
def Memory.unlisted (c : Config) (a : Word) : Byte :=
  (c.resetByte a).getD (Config.ramByte a.toNat)

/-- The byte an address of a RAM or ROM segment holds (20_memory.md R83, R113). -/
def Memory.read (c : Config) (m : Memory) (a : Word) : Byte :=
  match m.get? a.toNat with
  | some v => v
  | none => Memory.unlisted c a

/-- The listed addresses rise strictly, all of them above `low` where a bound is given. -/
def Memory.rising : Option Nat → Memory → Bool
  | _, [] => true
  | none, (k, _) :: rest => Memory.rising (some k) rest
  | some low, (k, _) :: rest => low < k && Memory.rising (some k) rest

/-- The entry is one the canonical form allows: an address of the space, in a RAM or ROM segment, holding a byte other
than the one the configuration gives it at reset. -/
def Memory.entryOk (c : Config) (e : Host.Cell) : Bool :=
  e.1 < spaceSize && (c.segmentAt (BitVec.ofNat 16 e.1)).kind.backed
    && c.resetByte (BitVec.ofNat 16 e.1) != some e.2

/-- The memory has its canonical form. -/
def Memory.wf (c : Config) (m : Memory) : Bool :=
  Memory.rising none m && m.all (Memory.entryOk c)

end Sys2Proof.Machine
end

