-- ==== Sys2Proof/Machine/State.lean ====
section
/-! DEFINITION. The state of the engine (10_state.md R30 to R51), the reasons a step can stop, and the state after reset
(10_state.md R60, 70_reset_and_hazards.md R501). -/

namespace Sys2Proof.Machine

/-- One bank of B, C, D, E, H, L (10_state.md R31, R32). -/
structure GpBank where
  b : Byte
  c : Byte
  d : Byte
  e : Byte
  h : Byte
  l : Byte
deriving DecidableEq, Repr

/-- One bank of A and F (10_state.md R31, R32); F's bits are S Z F5 H F3 PV N C from bit 7 down (R36). -/
structure AfBank where
  a : Byte
  f : Byte
deriving DecidableEq, Repr

/-- The register file (10_state.md R31). `gp0`, `af0` are the primary banks; a select that is true names the alternate
bank `gp1`, `af1` (R32). -/
structure Regs where
  gp0   : GpBank
  gp1   : GpBank
  gpSel : Bool
  af0   : AfBank
  af1   : AfBank
  afSel : Bool
  ix    : Word
  iy    : Word
  sp    : Word
  pc    : Word
  i     : Byte
  r     : Byte
  iff1  : Bool
  iff2  : Bool
  im    : BitVec 2
deriving DecidableEq, Repr

/-- A cache entry; its key is the block's address (10_state.md R48). -/
structure CacheEntry where
  block       : Block
  ranges      : List AddressRange
  accessCount : Nat
deriving DecidableEq, Repr

/-- The block cache: entries by strictly rising start address, at most one for each (10_state.md R48). -/
abbrev Cache := List CacheEntry

/-- A DMA operation (10_state.md R47, 20_memory.md R121). -/
structure DmaOp where
  source       : Word
  destination  : Word
  length       : Nat
  cycleCost    : Nat
  lockedRanges : List AddressRange
deriving DecidableEq, Repr

/-- The DMA controller (10_state.md R47): `buffer` with its read index `i` and write index `j` (20_memory.md R123). -/
structure Dma where
  queue   : List DmaOp
  closed  : Bool
  current : Option DmaOp
  buffer  : List Byte
  i       : Nat
  j       : Nat
  locked  : List AddressRange
deriving DecidableEq, Repr

/-- The one-shot actions a handoff performs; the engine registers one kind (60_exceptions.md R425). -/
inductive ResumeTask where
  | signalResume
deriving DecidableEq, Repr

/-- The interrupt controller (10_state.md R49). -/
structure Ic where
  halted       : Bool
  interrupting : Bool
  haltAck      : Bool
  reqQueue     : List Word
  icVector     : Option Word
  vectorSlot   : Option Word
  resumeTasks  : List ResumeTask
  accepting    : Bool
deriving DecidableEq, Repr

/-- The phase of the CPU agent (10_state.md R50). -/
inductive Phase where
  | fetch
  | execute (block : Block) (k : Nat)
  | post (block : Block)
  | awaitVector
  | stopped
  | faulted (e : FatalError)
deriving DecidableEq, Repr

/-- What the engine has emitted (10_state.md R51; `readPort` by 43_move_memory_io.md R325). A Peripheral segment is named
by its base. -/
inductive Event where
  | writePort (port : Word) (value : Byte)
  | readPort (port : Word) (value : Byte)
  | signalHalt
  | signalResume
  | peripheralWrite (segment : Word) (offset : Nat) (value : Byte)
  | fatal (e : FatalError)
deriving DecidableEq, Repr

/-- The environment's string operation in progress: `readCount` of `readLength` bytes read from `readFrom` into `buffer`,
then `writeCount` of `writeLength` bytes written from `buffer` at `writeTo` (00_scope.md R13, 20_memory.md R104 to R107;
log 13). `buffer` is also the environment's answer to its last read. -/
structure EnvJob where
  readFrom    : Word
  readLength  : Nat
  readCount   : Nat
  writeTo     : Word
  writeLength : Nat
  writeCount  : Nat
  buffer      : List Byte
deriving DecidableEq, Repr

/-- The `compileFn` of a call of `getOrCompile` (20_memory.md R135): a decoder, or a function of the caller's own, which
answers a block or raises UnsupportedInstruction; it is called at most once, so its answer stands for it (log 14). -/
inductive CompileFn where
  | decoder (d : Decoder)
  | answers (b : Block)
  | raises (address : Word)
deriving DecidableEq, Repr

/-- The environment's moves (00_scope.md R13, 20_memory.md R127, 60_exceptions.md R430, R449). `stringByte` is the next
byte access of the string operation the environment has begun (log 13). DESIGN CHOICE (log 30): disposal is its move. -/
inductive EnvMove where
  | run
  | cancel
  | interrupt (vector : Word)
  | halt
  | enqueue (op : DmaOp)
  | readBytes (address : Word) (n : Nat)
  | writeBytes (address : Word) (bytes : List Byte)
  | transferBytes (source destination : Word) (n : Nat)
  | stringByte
  | getOrCompile (address : Word) (compileFn : CompileFn)
  | invalidate (address : Word) (length : Nat)
  | disposeDma
  | dmaDrainTimeout
  | disposeIc
  | interruptDrainTimeout
deriving DecidableEq, Repr

/-- A step of an agent other than the CPU (00_scope.md R14). -/
inductive Move where
  | dma
  | ic
  | sweep
  | env (m : EnvMove)
deriving DecidableEq, Repr

/-- One turn of the schedule: the CPU's next event, CPU-CANCEL (60_exceptions.md R449, R450; log 19), or a move of another
agent (log 5). -/
inductive Turn where
  | cpu
  | cpuCancel
  | other (m : Move)
deriving DecidableEq, Repr

/-- The engine's state (10_state.md R30), with the fixed configuration (log 4) and the model's own `agenda`, `inputs` and
`draws` (log 5, 7). -/
structure State where
  cfg          : Config
  regs         : Regs
  mem          : Memory
  dma          : Dma
  cache        : Cache
  ic           : Ic
  phase        : Phase
  started      : Bool
  cancel       : Bool
  lastCycles   : Nat
  totalCycles  : Nat
  periphHalted : Bool
  log          : List Event
  envJob       : EnvJob
  agenda       : List Turn
  inputs       : List Byte
  draws        : Nat
deriving DecidableEq, Repr

/-- Why a step stops with a fault. -/
inductive Fault where
  /-- Raised by `step` in the phase Faulted, which a fatal error has entered: no agent has an enabled step, the state is a
  failure and not the end of a run (60_exceptions.md R401). Safe: the spec's own behaviour. -/
  | engineFaulted (e : FatalError)
  /-- Raised by `step` in a phase Execute(block, k) whose k is past the body: no rule of the spec reaches it (log 21).
  Safe: the model stops where the spec has no step. -/
  | bodyOverrun
deriving DecidableEq, Repr

/-- Why a step is refused. -/
inductive Refusal where
  /-- Raised by `exec` for an instruction that has no meaning yet; no arm uses it. Safe: nothing is claimed of it. -/
  | notModelled (mnemonic : String)
deriving DecidableEq, Repr

/-- The values of the registers R60 leaves unspecified, one draw for each (10_state.md R60, 70_reset_and_hazards.md R503,
93_implementation_defined.md U1, U2). -/
structure PowerOn where
  gp0 : GpBank
  gp1 : GpBank
  af0 : AfBank
  af1 : AfBank
  ix  : Word
  iy  : Word
  sp  : Word
deriving DecidableEq, Repr

/-- DESIGN CHOICE (log 1): zero for each register the spec leaves unspecified at reset. -/
def PowerOn.zero : PowerOn where
  gp0 := ⟨0, 0, 0, 0, 0, 0⟩
  gp1 := ⟨0, 0, 0, 0, 0, 0⟩
  af0 := ⟨0, 0⟩
  af1 := ⟨0, 0⟩
  ix  := 0
  iy  := 0
  sp  := 0

/-- The register file after reset (10_state.md R60). -/
def Regs.reset (d : PowerOn) : Regs where
  gp0   := d.gp0
  gp1   := d.gp1
  gpSel := false
  af0   := d.af0
  af1   := d.af1
  afSel := false
  ix    := d.ix
  iy    := d.iy
  sp    := d.sp
  pc    := 0
  i     := 0
  r     := 0
  iff1  := false
  iff2  := false
  im    := 0

/-- The DMA controller after reset (10_state.md R60). DESIGN CHOICE (log 27): the progress counters `i` and `j` are 0, of
which R60 says nothing; DMA-TAKE sets them before they are read (20_memory.md R123). -/
def Dma.reset : Dma where
  queue   := []
  closed  := false
  current := none
  buffer  := []
  i       := 0
  j       := 0
  locked  := []

/-- The interrupt controller after reset, "Running" (10_state.md R60). -/
def Ic.reset : Ic where
  halted       := false
  interrupting := false
  haltAck      := false
  reqQueue     := []
  icVector     := none
  vectorSlot   := none
  resumeTasks  := []
  accepting    := true

/-- No string operation of the environment (log 13). -/
def EnvJob.idle : EnvJob where
  readFrom    := 0
  readLength  := 0
  readCount   := 0
  writeTo     := 0
  writeLength := 0
  writeCount  := 0
  buffer      := []

/-- The engine constructed from a configuration, with the unspecified registers at the draws `d` (10_state.md R60,
70_reset_and_hazards.md R501). Construction sorts the segments (20_memory.md R87); if it raises a ConfigurationError the
phase is Faulted from the outset and the error is logged. -/
def State.resetWith (c : Config) (d : PowerOn) : State where
  cfg          := { c with segments := sortSegments c.segments }
  regs         := Regs.reset d
  mem          := []
  dma          := Dma.reset
  cache        := []
  ic           := Ic.reset
  phase        := match configError c.segments with
                  | some e => .faulted e
                  | none => .fetch
  started      := false
  cancel       := false
  lastCycles   := 0
  totalCycles  := 0
  periphHalted := false
  log          := match configError c.segments with
                  | some e => [.fatal e]
                  | none => []
  envJob       := EnvJob.idle
  agenda       := []
  inputs       := []
  draws        := 0

/-- The machine after reset: the default configuration, and zero where R60 leaves a register unspecified (log 1, 4). -/
def State.reset : State :=
  State.resetWith Config.default PowerOn.zero

end Sys2Proof.Machine
end

