-- ==== Sys2Proof/Machine/Operands.lean ====
section
/-! DEFINITION. The register operands (10_state.md R32, R35, R40, R41, 30_encoding.md R166): every read and write of a
register goes through these. -/

namespace Sys2Proof.Machine

/-- The bank the names B to L mean (10_state.md R32). -/
def Regs.gp (g : Regs) : GpBank :=
  if g.gpSel then g.gp1 else g.gp0

/-- The bank the names A and F mean (10_state.md R32). -/
def Regs.af (g : Regs) : AfBank :=
  if g.afSel then g.af1 else g.af0

/-- The inactive bank of B to L (10_state.md R32). -/
def Regs.gpAlt (g : Regs) : GpBank :=
  if g.gpSel then g.gp0 else g.gp1

/-- The inactive bank of A and F (10_state.md R32). -/
def Regs.afAlt (g : Regs) : AfBank :=
  if g.afSel then g.af0 else g.af1

/-- Replace the active bank of B to L. -/
def Regs.setGp (g : Regs) (x : GpBank) : Regs :=
  if g.gpSel then { g with gp1 := x } else { g with gp0 := x }

/-- Replace the active bank of A and F. -/
def Regs.setAf (g : Regs) (x : AfBank) : Regs :=
  if g.afSel then { g with af1 := x } else { g with af0 := x }

/-- `r8[i]` (10_state.md R40). -/
def Regs.get8 (g : Regs) : Reg8 → Byte
  | .b => g.gp.b
  | .c => g.gp.c
  | .d => g.gp.d
  | .e => g.gp.e
  | .h => g.gp.h
  | .l => g.gp.l
  | .f => g.af.f
  | .a => g.af.a
  | .i => g.i
  | .r => g.r

/-- `r8[i] <- v` (10_state.md R40). -/
def Regs.set8 (g : Regs) (x : Reg8) (v : Byte) : Regs :=
  match x with
  | .b => g.setGp { g.gp with b := v }
  | .c => g.setGp { g.gp with c := v }
  | .d => g.setGp { g.gp with d := v }
  | .e => g.setGp { g.gp with e := v }
  | .h => g.setGp { g.gp with h := v }
  | .l => g.setGp { g.gp with l := v }
  | .f => g.setAf { g.af with f := v }
  | .a => g.setAf { g.af with a := v }
  | .i => { g with i := v }
  | .r => { g with r := v }

/-- `r16[i]`; a pair has its first letter as the high byte (10_state.md R35, R41). -/
def Regs.get16 (g : Regs) : Reg16 → Word
  | .bc => g.gp.b ++ g.gp.c
  | .de => g.gp.d ++ g.gp.e
  | .hl => g.gp.h ++ g.gp.l
  | .sp => g.sp
  | .af => g.af.a ++ g.af.f
  | .ix => g.ix
  | .iy => g.iy
  | .pc => g.pc

/-- Bits 15:8 of a 16-bit value (00_scope.md R16). -/
def highByte (v : Word) : Byte :=
  v.extractLsb' 8 8

/-- Bits 7:0 of a 16-bit value (00_scope.md R16). -/
def lowByte (v : Word) : Byte :=
  v.extractLsb' 0 8

/-- `r16[i] <- v`; a write of a pair writes both halves (10_state.md R35, R41). -/
def Regs.set16 (g : Regs) (x : Reg16) (v : Word) : Regs :=
  match x with
  | .bc => g.setGp { g.gp with b := highByte v, c := lowByte v }
  | .de => g.setGp { g.gp with d := highByte v, e := lowByte v }
  | .hl => g.setGp { g.gp with h := highByte v, l := lowByte v }
  | .sp => { g with sp := v }
  | .af => g.setAf { a := highByte v, f := lowByte v }
  | .ix => { g with ix := v }
  | .iy => { g with iy := v }
  | .pc => { g with pc := v }

/-- `r8[i]` of a state. -/
def State.get8 (s : State) (x : Reg8) : Byte :=
  s.regs.get8 x

/-- `r8[i] <- v` of a state. -/
def State.set8 (s : State) (x : Reg8) (v : Byte) : State :=
  { s with regs := s.regs.set8 x v }

/-- `r16[i]` of a state. -/
def State.get16 (s : State) (x : Reg16) : Word :=
  s.regs.get16 x

/-- `r16[i] <- v` of a state. -/
def State.set16 (s : State) (x : Reg16) (v : Word) : State :=
  { s with regs := s.regs.set16 x v }

/-- SP (10_state.md R39). -/
def State.sp (s : State) : Word :=
  s.regs.sp

/-- `SP <- v`. -/
def State.setSp (s : State) (v : Word) : State :=
  { s with regs := { s.regs with sp := v } }

/-- PC (10_state.md R38). -/
def State.pc (s : State) : Word :=
  s.regs.pc

/-- `PC <- v`. -/
def State.setPc (s : State) (v : Word) : State :=
  { s with regs := { s.regs with pc := v } }

/-- `IFF1 <- v; IFF2 <- w` (10_state.md R43). -/
def State.setIff (s : State) (v w : Bool) : State :=
  { s with regs := { s.regs with iff1 := v, iff2 := w } }

/-- The exposed signal `interruptsEnabled` (60_exceptions.md R419). -/
def State.interruptsEnabled (s : State) : Bool :=
  s.regs.iff1

end Sys2Proof.Machine
end

