-- ==== Sys2Proof/Machine/Bus.lean ====
section
/-! DEFINITION. The byte accesses of the address space (20_memory.md R83 to R86, R100, R101, R105), the fatal error
(60_exceptions.md R401), the block cache (20_memory.md R135 to R139), the reference decoder (30_encoding.md R170) and the
ports (43_move_memory_io.md R325, R326). -/

namespace Sys2Proof

/-- The block is one the cache takes: a length of 1 to 0x10000 and a well-formed body of 1 to `limit` micro-operations
(20_memory.md R131, 30_encoding.md R161, 93_implementation_defined.md U16). DESIGN CHOICE (log 29): the limit holds for a
block of every decoder. DESIGN CHOICE (log 31): the halt bits are not checked against the last micro-operation. -/
def Block.admitted (limit : Nat) (b : Block) : Bool :=
  1 ≤ b.length && b.length ≤ spaceSize && !b.body.isEmpty && b.body.length ≤ limit && wfBody b.body

end Sys2Proof

namespace Sys2Proof.Machine

/-- What an operation gives: a value and the state after it, or the state in which a fatal error was raised. -/
inductive Res (α : Type) where
  | ok (v : α) (s : State)
  | raised (s : State)
deriving DecidableEq, Repr

/-- Go on with the value and the state of an operation that raised nothing. -/
def Res.bind {α β : Type} (x : Res α) (k : α → State → Res β) : Res β :=
  match x with
  | .ok v s => k v s
  | .raised s => .raised s

/-- The state an operation leaves, whether it raised or not. -/
def Res.state {α : Type} : Res α → State
  | .ok _ s => s
  | .raised s => s

/-- The phase is Faulted (60_exceptions.md R401). -/
def Phase.isFaulted : Phase → Bool
  | .faulted _ => true
  | _ => false

/-- The engine is in phase Faulted. -/
def State.faulted (s : State) : Bool :=
  s.phase.isFaulted

/-- Append an event to the log (10_state.md R51). -/
def State.emit (s : State) (e : Event) : State :=
  { s with log := s.log ++ [e] }

/-- `raise E(info)`: log it and enter the phase Faulted; everything else stays (60_exceptions.md R401). -/
def State.raise (s : State) (e : FatalError) : State :=
  { s.emit (.fatal e) with phase := .faulted e }

/-- A draw: a free value, fresh at each occurrence (00_scope.md R20; log 7). -/
def State.draw (s : State) : Res Byte :=
  .ok (Config.draw s.draws) { s with draws := s.draws + 1 }

/-- The environment's answer to a port or Peripheral read: the next one it holds ready, else a draw (20_memory.md R84,
43_move_memory_io.md R325; log 7). -/
def State.answer (s : State) : Res Byte :=
  match s.inputs with
  | v :: rest => .ok v { s with inputs := rest }
  | [] => s.draw

/-- The segment of an address (20_memory.md R91). -/
def State.segmentAt (s : State) (a : Word) : Segment :=
  s.cfg.segmentAt a

/-- The byte a RAM or ROM address holds (20_memory.md R83). -/
def State.byteAt (s : State) (a : Word) : Byte :=
  s.mem.read s.cfg a

/-- The 16-bit value at a RAM or ROM address, low byte at the lower address (20_memory.md R93). -/
def State.wordAt (s : State) (a : Word) : Word :=
  s.byteAt (a + 1) ++ s.byteAt a

/-- `readByte(addr)` (20_memory.md R100, R83 to R86). -/
def State.readByte (s : State) (a : Word) : Res Byte :=
  let seg := s.segmentAt a
  if seg.cap.canRead then
    match seg.kind with
    | .ram => .ok (s.byteAt a) s
    | .rom => .ok (s.byteAt a) s
    | .peripheral => s.answer
    | .unused =>
      match s.cfg.unusedRead with
      | some v => .ok v s
      | none => s.draw
  else
    match s.cfg.readFaultPolicy with
    | .ignore => s.draw
    | .raise => .raised (s.raise (.readFault a))

/-- Remove every entry one of whose covering ranges intersects the bytes (20_memory.md R137). -/
def Cache.invalidate (c : Cache) (a : Word) (length : Nat) : Cache :=
  c.filter fun e => !rangesMeet (rangesOf a length) e.ranges

/-- `invalidate(address, length)` (20_memory.md R137). -/
def State.invalidate (s : State) (a : Word) (length : Nat) : State :=
  { s with cache := s.cache.invalidate a length }

/-- A performed write of one byte, without its notification (20_memory.md R83 to R85). -/
def State.performWrite (s : State) (a : Word) (v : Byte) : State :=
  let seg := s.segmentAt a
  match seg.kind with
  | .ram => { s with mem := s.mem.write (s.cfg.resetByte a) a.toNat v }
  | .rom => { s with mem := s.mem.write (s.cfg.resetByte a) a.toNat v }
  | .peripheral => s.emit (.peripheralWrite seg.base (a.toNat - seg.base.toNat) v)
  | .unused => s

/-- Byte `j` of a string of `n` bytes is the last of its portion: the last of the string, or at its segment's end
(20_memory.md R105). -/
def portionEnds (seg : Segment) (a : Word) (n j : Nat) : Bool :=
  j + 1 = n || a.toNat + 1 = seg.base.toNat + seg.length

/-- How many bytes of the portion of byte `j`, at address `a`, stand before it (20_memory.md R105). -/
def portionBefore (seg : Segment) (a : Word) (j : Nat) : Nat :=
  min j (a.toNat - seg.base.toNat)

/-- Write byte `j` of a string of `n` bytes at `addr`: the capability check of R86, the performed write, and in the same
step the notification of a RAM portion that ends here, which invalidates (20_memory.md R86, R105, R110, R111). -/
def State.writeStringByte (s : State) (addr : Word) (n j : Nat) (v : Byte) : Res Unit :=
  let a := addr + BitVec.ofNat 16 j
  let seg := s.segmentAt a
  if seg.cap.canWrite then
    let s1 := s.performWrite a v
    let before := portionBefore seg a j
    if seg.kind = .ram && portionEnds seg a n j then
      .ok () (s1.invalidate (a - BitVec.ofNat 16 before) (before + 1))
    else .ok () s1
  else
    match s.cfg.writeFaultPolicy with
    | .ignore => .ok () s
    | .raise => .raised (s.raise (.writeFault a))

/-- `writeByte(addr, v)`, with the notification (addr, 1) (20_memory.md R101). -/
def State.writeByte (s : State) (a : Word) (v : Byte) : Res Unit :=
  s.writeStringByte a 1 0 v

/-- `n` bytes read in ascending order in one atomic step, as the decoder reads (20_memory.md R136, 30_encoding.md R170). -/
def State.readAtomic : Nat → Word → State → Res (List Byte)
  | 0, _, s => .ok [] s
  | n + 1, a, s =>
    (s.readByte a).bind fun v s1 =>
      (State.readAtomic n (a + 1) s1).bind fun rest s2 => .ok (v :: rest) s2

/-- The micro-operations RD0 finds from `p` on, at most `n` of them, up to the first terminator (30_encoding.md R170,
R171). -/
def State.decodeFrom : Nat → Word → State → Res (List Instr)
  | 0, _, s => .ok [] s
  | n + 1, p, s =>
    (State.readAtomic 4 p s).bind fun bytes s1 =>
      match decodeBytes bytes with
      | .error _ => .raised (s1.raise (.unsupportedInstruction p))
      | .ok (i, _) =>
        if i.isTerminator then .ok [i] s1
        else (State.decodeFrom n (p + 4) s1).bind fun rest s2 => .ok (i :: rest) s2

/-- The block RD0 returns for a body (30_encoding.md R170, R173, R174). -/
def blockOf (address : Word) (body : List Instr) : Block where
  address          := address
  length           := 4 * body.length
  staticCycles     := body.length
  haltsCpu         := (body.getLast?.map Instr.haltsCpu).getD false
  haltsPeripherals := (body.getLast?.map Instr.haltsPeripherals).getD false
  body             := body
  cyclesUsed       := some 0

/-- `RD0(address)` (30_encoding.md R170). A limit of 0 micro-operations counts as 1 (log 23). -/
def State.decodeBlock (s : State) (address : Word) : Res Block :=
  (State.decodeFrom (max 1 s.cfg.maxBlockUops) address s).bind fun body s1 => .ok (blockOf address body) s1

/-- The answer of platform decoder `n` for the block at an address: it reads byte by byte, within `fuel` reads, and its
block is one of that address, its halt bits as the decoder gives them (00_scope.md R10, 30_encoding.md R160; log 12, 31). -/
def State.decodePlatform (n : Nat) (address : Word) (fuel : Nat) (got : List Byte) (s : State) : Res Block :=
  match Config.decoderMove n address got with
  | .block b => .ok { b with address := address } s
  | .unsupported p => .raised (s.raise (.unsupportedInstruction p))
  | .read a =>
    match fuel with
    | 0 => .raised (s.raise (.unsupportedInstruction address))
    | k + 1 => (s.readByte a).bind fun v s1 => State.decodePlatform n address k (got ++ [v]) s1

/-- `Decoder(address)` (00_scope.md R10). -/
def State.decode (s : State) (d : Decoder) (address : Word) : Res Block :=
  match d with
  | .rd0 => s.decodeBlock address
  | .platform n => State.decodePlatform n address (Config.decoderReads n) [] s

/-- `compileFn(address)` (20_memory.md R135); the halt bits of a block of the caller's own are as given (log 14, 31). -/
def State.compile (s : State) (f : CompileFn) (address : Word) : Res Block :=
  match f with
  | .decoder d => s.decode d address
  | .answers b => .ok { b with address := address } s
  | .raises p => .raised (s.raise (.unsupportedInstruction p))

/-- The entry of a start address (20_memory.md R130). -/
def Cache.find : Cache → Word → Option CacheEntry
  | [], _ => none
  | e :: rest, a => if e.block.address = a then some e else Cache.find rest a

/-- Count a hit on the entry of a start address (20_memory.md R135). -/
def Cache.touch : Cache → Word → Cache
  | [], _ => []
  | e :: rest, a =>
    if e.block.address = a then { e with accessCount := e.accessCount + 1 } :: rest else e :: Cache.touch rest a

/-- `cache[address] <- entry`, by rising start address (20_memory.md R135). -/
def Cache.insert : Cache → CacheEntry → Cache
  | [], x => [x]
  | e :: rest, x =>
    if x.block.address.toNat < e.block.address.toNat then x :: e :: rest
    else if x.block.address = e.block.address then x :: rest
    else e :: Cache.insert rest x

/-- The entry of a block just compiled (20_memory.md R131, R135). -/
def entryOf (b : Block) : CacheEntry where
  block       := b
  ranges      := rangesOf b.address b.length
  accessCount := 0

/-- `getOrCompile(address, compileFn)` (20_memory.md R131, R135, R136). DESIGN CHOICE (log 29): the limit of micro-operations
is that of every block, whoever compiled it. DESIGN CHOICE (log 28): the UnsupportedInstruction of a block that is not
admitted records the address asked for. -/
def State.getOrCompile (s : State) (f : CompileFn) (a : Word) : Res Block :=
  match s.cache.find a with
  | some e => .ok e.block { s with cache := s.cache.touch a }
  | none =>
    (s.compile f a).bind fun b s1 =>
      if b.admitted (max 1 s.cfg.maxBlockUops) then .ok b { s1 with cache := s1.cache.insert (entryOf b) }
      else .raised (s1.raise (.unsupportedInstruction a))

/-- The idle sweep: drop the entries not used since the last one (20_memory.md R139). -/
def Cache.sweep (c : Cache) : Cache :=
  (c.filter fun e => e.accessCount != 0).map fun e => { e with accessCount := 0 }

/-- `PortRead(p)`: the environment answers, and the read is logged (43_move_memory_io.md R325). -/
def State.portRead (s : State) (p : Word) : Res Byte :=
  s.answer.bind fun v s1 => .ok v (s1.emit (.readPort p v))

/-- `PortWrite(p, v)` (43_move_memory_io.md R326). -/
def State.portWrite (s : State) (p : Word) (v : Byte) : State :=
  s.emit (.writePort p v)

end Sys2Proof.Machine
end

