-- ==== Sys2Proof/Machine/Agents.lean ====
section
/-! DEFINITION. The steps of the agents other than the CPU: the DMA pump (20_memory.md R120 to R127), the interrupt
controller (60_exceptions.md R415 to R430), the sweeper (20_memory.md R139) and the environment (00_scope.md R13). An agent
whose step is not enabled leaves the state as it is. -/

namespace Sys2Proof.Machine

/-- Step DMA-TAKE (20_memory.md R123). -/
def State.dmaTake (s : State) (op : DmaOp) (rest : List DmaOp) : State :=
  { s with dma := { s.dma with queue := rest, current := some op, locked := op.lockedRanges, buffer := [], i := 0, j := 0 } }

/-- Step DMA-READ (20_memory.md R124). -/
def State.dmaRead (s : State) (op : DmaOp) : State :=
  match s.readByte (op.source + BitVec.ofNat 16 s.dma.i) with
  | .ok v s1 => { s1 with dma := { s1.dma with buffer := s1.dma.buffer ++ [v], i := s1.dma.i + 1 } }
  | .raised s1 => s1

/-- Step DMA-WRITE (20_memory.md R124). The buffer holds a byte for every index (log 24). -/
def State.dmaWrite (s : State) (op : DmaOp) : State :=
  match s.writeStringByte op.destination op.length s.dma.j (s.dma.buffer.getD s.dma.j 0) with
  | .ok _ s1 => { s1 with dma := { s1.dma with j := s1.dma.j + 1 } }
  | .raised s1 => s1

/-- Step DMA-DONE (20_memory.md R125). -/
def State.dmaDone (s : State) : State :=
  { s with dma := { s.dma with current := none, locked := [], buffer := [] } }

/-- The DMA agent's step, the one that is enabled (20_memory.md R123 to R125). -/
def State.dmaStep (s : State) : State :=
  match s.dma.current with
  | none =>
    match s.dma.queue with
    | [] => s
    | op :: rest => s.dmaTake op rest
  | some op =>
    if s.dma.i < op.length then s.dmaRead op
    else if s.dma.j < op.length then s.dmaWrite op
    else s.dmaDone

/-- `halt()` (60_exceptions.md R420). -/
def Ic.halt (x : Ic) : Ic :=
  { x with halted := true }

/-- `notifyHalt()` (60_exceptions.md R426). -/
def Ic.notifyHalt (x : Ic) : Ic :=
  { x with haltAck := true }

/-- `notifyResume()` (60_exceptions.md R427). -/
def Ic.notifyResume (x : Ic) : Ic :=
  { x with halted := false, haltAck := false }

/-- `addResumeTask(action)` (60_exceptions.md R425). -/
def Ic.addResumeTask (x : Ic) (t : ResumeTask) : Ic :=
  { x with resumeTasks := x.resumeTasks ++ [t] }

/-- Step IC-ACCEPT with the request `v` at the head of the queue: discarded when IFF1 is 0, accepted when it is 1
(60_exceptions.md R422). -/
def State.icAccept (s : State) (v : Word) (rest : List Word) : State :=
  if s.regs.iff1 then
    { s with
      regs := { s.regs with iff1 := false }
      ic := { s.ic.halt with reqQueue := rest, interrupting := true, icVector := some v } }
  else { s with ic := { s.ic with reqQueue := rest } }

/-- Perform one resume task (60_exceptions.md R425, R444). -/
def State.runResumeTask (s : State) : ResumeTask → State
  | .signalResume => { s.emit .signalResume with periphHalted := false }

/-- Perform the resume tasks in the order registered (60_exceptions.md R425). -/
def State.runResumeTasks : List ResumeTask → State → State
  | [], s => s
  | t :: rest, s => State.runResumeTasks rest (s.runResumeTask t)

/-- Step IC-HANDOFF (60_exceptions.md R424, R425). -/
def State.icHandoff (s : State) : State :=
  State.runResumeTasks s.ic.resumeTasks
    { s with ic := { s.ic with
        vectorSlot := s.ic.icVector, icVector := none, interrupting := false, resumeTasks := [] } }

/-- The IC agent's step, the one that is enabled (60_exceptions.md R422 to R424). DEDUCED (log 16): IC-HANDOFF waits for an
empty slot, because R424 says that the slot is always empty when the step is enabled. -/
def State.icStep (s : State) : State :=
  if s.ic.interrupting then
    if s.ic.haltAck && s.ic.vectorSlot.isNone then s.icHandoff else s
  else
    match s.ic.reqQueue with
    | [] => s
    | v :: rest => s.icAccept v rest

/-- The sweeper's step, where it is present (20_memory.md R139). -/
def State.sweepStep (s : State) : State :=
  if s.cfg.sweepEnabled then { s with cache := s.cache.sweep } else s

/-- The environment has a string operation in progress (log 13). -/
def EnvJob.busy (x : EnvJob) : Bool :=
  x.readCount < x.readLength || x.writeCount < x.writeLength

/-- The string operation is of at most 0x10000 bytes (20_memory.md R95, R104, R105; log 25). -/
def EnvJob.inRange (x : EnvJob) : Bool :=
  x.readLength ≤ spaceSize && x.writeLength ≤ spaceSize

/-- Begin a string operation of the environment, unless one is in progress (log 13). DESIGN CHOICE (log 25): one of more than
0x10000 bytes, of which the rules say nothing, is none and has no effect. -/
def State.beginJob (s : State) (x : EnvJob) : State :=
  if s.envJob.busy || !x.inRange then s else { s with envJob := x }

/-- The next byte read of the environment's string operation (20_memory.md R104). -/
def State.jobRead (s : State) : State :=
  match s.readByte (s.envJob.readFrom + BitVec.ofNat 16 s.envJob.readCount) with
  | .ok v s1 =>
    { s1 with envJob := { s1.envJob with buffer := s1.envJob.buffer ++ [v], readCount := s1.envJob.readCount + 1 } }
  | .raised s1 => s1

/-- The next byte write of the environment's string operation (20_memory.md R105; log 24). -/
def State.jobWrite (s : State) : State :=
  match s.writeStringByte s.envJob.writeTo s.envJob.writeLength s.envJob.writeCount
      (s.envJob.buffer.getD s.envJob.writeCount 0) with
  | .ok _ s1 => { s1 with envJob := { s1.envJob with writeCount := s1.envJob.writeCount + 1 } }
  | .raised s1 => s1

/-- The next byte access of the environment's string operation: the reads first, then the writes (20_memory.md R104 to
R107). -/
def State.jobStep (s : State) : State :=
  if s.envJob.readCount < s.envJob.readLength then s.jobRead
  else if s.envJob.writeCount < s.envJob.writeLength then s.jobWrite
  else s

/-- The operation is within 10_state.md R47: a length of 0 to 0x10000, and ranges of the address space (20_memory.md R80). -/
def DmaOp.wf (x : DmaOp) : Bool :=
  x.length ≤ spaceSize && x.lockedRanges.all AddressRange.wf

/-- One move of the environment (00_scope.md R13; 20_memory.md R121, R127, R135, R137; 60_exceptions.md R420, R421, R430,
R440, R449; log 8, 13, 14, 17). DESIGN CHOICE (log 30): it is the environment that starts the disposal of the DMA side and of
the interrupt controller, at any time. DESIGN CHOICE (log 25): a term that 10_state.md R47 does not admit as a DMA operation is
none, and enqueues nothing. -/
def State.envStep (s : State) : EnvMove → State
  | .run => { s with started := true }
  | .cancel => { s with cancel := true }
  | .interrupt v =>
    if s.ic.accepting then { s with ic := { s.ic with reqQueue := s.ic.reqQueue ++ [v] } } else s
  | .halt => { s with ic := s.ic.halt }
  | .enqueue op => if s.dma.closed || !op.wf then s else { s with dma := { s.dma with queue := s.dma.queue ++ [op] } }
  | .readBytes a n => s.beginJob { EnvJob.idle with readFrom := a, readLength := n }
  | .writeBytes a bytes => s.beginJob { EnvJob.idle with writeTo := a, writeLength := bytes.length, buffer := bytes }
  | .transferBytes source destination n =>
    s.beginJob { EnvJob.idle with readFrom := source, readLength := n, writeTo := destination, writeLength := n }
  | .stringByte => s.jobStep
  | .getOrCompile a f => (s.getOrCompile f a).state
  | .invalidate a n => s.invalidate a n
  | .disposeDma => { s with dma := { s.dma with closed := true } }
  | .dmaDrainTimeout => if s.dma.closed && !s.dma.queue.isEmpty then s.raise .dmaDrainTimeout else s
  | .disposeIc => { s with ic := { s.ic with accepting := false } }
  | .interruptDrainTimeout =>
    if !s.ic.accepting && !s.ic.reqQueue.isEmpty then s.raise .interruptDrainTimeout else s

/-- `readByte(addr)` of the environment: a string operation of one byte (20_memory.md R100; log 13). -/
def EnvMove.readByte (a : Word) : EnvMove :=
  .readBytes a 1

/-- `readWord(addr)` of the environment (20_memory.md R102; log 13). -/
def EnvMove.readWord (a : Word) : EnvMove :=
  .readBytes a 2

/-- `writeByte(addr, v)` of the environment (20_memory.md R101; log 13). -/
def EnvMove.writeByte (a : Word) (v : Byte) : EnvMove :=
  .writeBytes a [v]

/-- `writeWord(addr, w)` of the environment (20_memory.md R103; log 13). -/
def EnvMove.writeWord (a : Word) (v : Word) : EnvMove :=
  .writeBytes a [lowByte v, highByte v]

/-- `transferByte(from, to)` of the environment (20_memory.md R106; log 13). -/
def EnvMove.transferByte (source destination : Word) : EnvMove :=
  .transferBytes source destination 1

/-- The step of an agent other than the CPU; none has one in the phase Faulted (00_scope.md R14, 60_exceptions.md R401). -/
def State.moveStep (s : State) (m : Move) : State :=
  if s.faulted then s
  else
    match m with
    | .dma => s.dmaStep
    | .ic => s.icStep
    | .sweep => s.sweepStep
    | .env e => s.envStep e

/-- The pump's next step is a byte access, DMA-READ or DMA-WRITE (20_memory.md R124). -/
def Dma.accesses (x : Dma) : Bool :=
  match x.current with
  | none => false
  | some op => x.i < op.length || x.j < op.length

/-- The environment's move is a byte access of its string operation, or begins one, which says only which accesses come
(20_memory.md R100 to R107; log 13). -/
def EnvMove.accesses : EnvMove → Bool
  | .stringByte => true
  | .readBytes _ _ => true
  | .writeBytes _ _ => true
  | .transferBytes _ _ _ => true
  | .run => false
  | .cancel => false
  | .interrupt _ => false
  | .halt => false
  | .enqueue _ => false
  | .getOrCompile _ _ => false
  | .invalidate _ _ => false
  | .disposeDma => false
  | .dmaDrainTimeout => false
  | .disposeIc => false
  | .interruptDrainTimeout => false

/-- The move may fall inside a step of the CPU: only another agent's memory accesses may (00_scope.md R18, 20_memory.md R112;
log 6). -/
def State.fallsInside (s : State) : Move → Bool
  | .dma => s.dma.accesses
  | .ic => false
  | .sweep => false
  | .env m => m.accesses

/-- The memory accesses of other agents that stand on the agenda before the CPU's next turn, taken in order; the CPU's turn is
used up (20_memory.md R112; log 6). Every other turn is a step of its own and stays for after this one (00_scope.md R18). If an
access raised a fatal error the CPU has no further step (60_exceptions.md R401). -/
def State.takeTurns : List Turn → State → Res Unit
  | [], s => .ok () s
  | .cpu :: rest, s => .ok () { s with agenda := rest }
  | .cpuCancel :: _, s => .ok () s
  | .other m :: rest, s =>
    if s.fallsInside m then
      let s1 := State.moveStep { s with agenda := rest } m
      if s1.faulted then .raised s1 else State.takeTurns rest s1
    else .ok () s

/-- The point between two byte accesses of one step of the CPU, where the memory accesses of other agents may fall
(00_scope.md R18, 20_memory.md R112). -/
def State.interleave (s : State) : Res Unit :=
  State.takeTurns s.agenda s

end Sys2Proof.Machine
end

