-- ==== Sys2Proof/Machine/Flags.lean ====
section
/-! DEFINITION. The flags of F (10_state.md R36) and the ALU operations (40_alu8.md, 41_alu_rotate_bcd_bit.md,
42_alu16.md): each gives its result and the new F. -/

namespace Sys2Proof.Machine

/-- The flags by bit number of F (10_state.md R36). -/
inductive Flag where
  | c | n | pv | f3 | h | f5 | z | s
deriving DecidableEq, Repr

/-- The bit of F that holds a flag (10_state.md R36). -/
def Flag.bit : Flag → Nat
  | .c => 0
  | .n => 1
  | .pv => 2
  | .f3 => 3
  | .h => 4
  | .f5 => 5
  | .z => 6
  | .s => 7

/-- A flag of an F byte. -/
def flagOf (f : Byte) (x : Flag) : Bool :=
  f.getLsbD x.bit

/-- A flag of the active F. -/
def State.flag (s : State) (x : Flag) : Bool :=
  flagOf (s.get8 .f) x

/-- The F byte with the given flags, bit 7 first (10_state.md R36). -/
def packFlags (s z f5 h f3 pv n c : Bool) : Byte :=
  BitVec.ofBool s ++ BitVec.ofBool z ++ BitVec.ofBool f5 ++ BitVec.ofBool h ++
    BitVec.ofBool f3 ++ BitVec.ofBool pv ++ BitVec.ofBool n ++ BitVec.ofBool c

/-- `parity_even(v)`: an even number of 1 bits (00_scope.md R17). -/
def parityEven (v : Byte) : Bool :=
  !(v.getLsbD 0 ^^ v.getLsbD 1 ^^ v.getLsbD 2 ^^ v.getLsbD 3 ^^
    v.getLsbD 4 ^^ v.getLsbD 5 ^^ v.getLsbD 6 ^^ v.getLsbD 7)

/-- The result of an ALU operation and the F it leaves. -/
structure AluResult (w : Nat) where
  value : BitVec w
  flags : Byte
deriving DecidableEq, Repr

/-- F with S, Z, F5, F3 taken from a result of `w` bits (00_scope.md R17 `sz53` for w = 8; 42_alu16.md R271: bits 15, 13, 11
for w = 16) and the other four flags given. -/
def resultFlags {w : Nat} (r : BitVec w) (h pv n c : Bool) : Byte :=
  packFlags (r.getLsbD (w - 1)) (r == 0) (r.getLsbD (w - 3)) h (r.getLsbD (w - 5)) pv n c

/-- `a + b + c` of `w` bits with the flags of an addition: half-carry out of bit w - 5, carry out of bit w - 1
(40_alu8.md R201, R204; 42_alu16.md R271, R273). -/
def addCore {w : Nat} (a b : BitVec w) (c : Bool) : AluResult w :=
  let sum := a.toNat + b.toNat + c.toNat
  let r := BitVec.ofNat w sum
  let half := decide (a.toNat % 2 ^ (w - 4) + b.toNat % 2 ^ (w - 4) + c.toNat > 2 ^ (w - 4) - 1)
  let overflow := a.getLsbD (w - 1) == b.getLsbD (w - 1) && r.getLsbD (w - 1) != a.getLsbD (w - 1)
  { value := r, flags := resultFlags r half overflow false (decide (sum > 2 ^ w - 1)) }

/-- `a - b - c` of `w` bits with the flags of a subtraction: half-borrow out of bit w - 5, borrow out of bit w - 1
(40_alu8.md R207, R210; 42_alu16.md R275, R277). -/
def subCore {w : Nat} (a b : BitVec w) (c : Bool) : AluResult w :=
  let diff : Int := (a.toNat : Int) - b.toNat - c.toNat
  let r := BitVec.ofInt w diff
  let halfDiff : Int := (a.toNat % 2 ^ (w - 4) : Nat) - (b.toNat % 2 ^ (w - 4) : Nat) - (c.toNat : Int)
  let overflow := a.getLsbD (w - 1) != b.getLsbD (w - 1) && r.getLsbD (w - 1) != a.getLsbD (w - 1)
  { value := r, flags := resultFlags r (decide (halfDiff < 0)) overflow true (decide (diff < 0)) }

/-- `add8` (40_alu8.md R201). -/
def add8 (a b : Byte) : AluResult 8 :=
  addCore a b false

/-- `addWithCarry8`, with the F before it (40_alu8.md R204). -/
def addWithCarry8 (f a b : Byte) : AluResult 8 :=
  addCore a b (flagOf f .c)

/-- `subtract8` (40_alu8.md R207). -/
def subtract8 (a b : Byte) : AluResult 8 :=
  subCore a b false

/-- `subtractWithCarry8`, with the F before it (40_alu8.md R210). -/
def subtractWithCarry8 (f a b : Byte) : AluResult 8 :=
  subCore a b (flagOf f .c)

/-- `and` (40_alu8.md R213). -/
def and8 (a b : Byte) : AluResult 8 :=
  { value := a &&& b, flags := resultFlags (a &&& b) true (parityEven (a &&& b)) false false }

/-- `or` (40_alu8.md R216). -/
def or8 (a b : Byte) : AluResult 8 :=
  { value := a ||| b, flags := resultFlags (a ||| b) false (parityEven (a ||| b)) false false }

/-- `xor` (40_alu8.md R219). -/
def xor8 (a b : Byte) : AluResult 8 :=
  { value := a ^^^ b, flags := resultFlags (a ^^^ b) false (parityEven (a ^^^ b)) false false }

/-- `increment`, with the F before it: Carry is kept (40_alu8.md R222). -/
def increment8 (f a : Byte) : AluResult 8 :=
  { value := a + 1,
    flags := resultFlags (a + 1) (a &&& 0x0F == 0x0F) (a == 0x7F) false (flagOf f .c) }

/-- `decrement`, with the F before it: Carry is kept (40_alu8.md R224). -/
def decrement8 (f a : Byte) : AluResult 8 :=
  { value := a - 1,
    flags := resultFlags (a - 1) (a &&& 0x0F == 0) (a == 0x80) true (flagOf f .c) }

/-- The common flags of the rotates and shifts: H and N are 0, PV is the parity, Carry is the bit moved out
(41_alu_rotate_bcd_bit.md R240). -/
def rotateResult (r : Byte) (out : Bool) : AluResult 8 :=
  { value := r, flags := resultFlags r false (parityEven r) false out }

/-- `rotateLeft`, through Carry (41_alu_rotate_bcd_bit.md R241). -/
def rotateLeft (f a : Byte) : AluResult 8 :=
  rotateResult (a <<< 1 ||| (BitVec.ofBool (flagOf f .c)).setWidth 8) (a.getLsbD 7)

/-- `rotateRight`, through Carry (41_alu_rotate_bcd_bit.md R243). -/
def rotateRight (f a : Byte) : AluResult 8 :=
  rotateResult (a >>> 1 ||| (BitVec.ofBool (flagOf f .c)).setWidth 8 <<< 7) (a.getLsbD 0)

/-- `rotateLeftWithCarry`, circular (41_alu_rotate_bcd_bit.md R245). -/
def rotateLeftWithCarry (a : Byte) : AluResult 8 :=
  rotateResult (a <<< 1 ||| a >>> 7) (a.getLsbD 7)

/-- `rotateRightWithCarry`, circular (41_alu_rotate_bcd_bit.md R247). -/
def rotateRightWithCarry (a : Byte) : AluResult 8 :=
  rotateResult (a >>> 1 ||| a <<< 7) (a.getLsbD 0)

/-- `shiftLeft` (41_alu_rotate_bcd_bit.md R249). -/
def shiftLeft (a : Byte) : AluResult 8 :=
  rotateResult (a <<< 1) (a.getLsbD 7)

/-- `shiftRight`, bit 7 keeps its value (41_alu_rotate_bcd_bit.md R251). -/
def shiftRight (a : Byte) : AluResult 8 :=
  rotateResult (a >>> 1 ||| a &&& 0x80) (a.getLsbD 0)

/-- `shiftRightLogical` (41_alu_rotate_bcd_bit.md R253). -/
def shiftRightLogical (a : Byte) : AluResult 8 :=
  rotateResult (a >>> 1) (a.getLsbD 0)

/-- The correction of `decimalAdjust`: 0x60 for the high nibble, 0x06 for the low one (41_alu_rotate_bcd_bit.md R255). -/
def decimalCorrection (hi lo : Bool) : Byte :=
  (if hi then 0x60 else 0) + (if lo then 0x06 else 0)

/-- `decimalAdjust`, with the F before it (41_alu_rotate_bcd_bit.md R255). -/
def decimalAdjust (f a : Byte) : AluResult 8 :=
  let hi := decide (a.toNat > 0x99) || flagOf f .c
  let lo := decide ((a &&& 0x0F).toNat > 9) || flagOf f .h
  let n := flagOf f .n
  let r := if n then a - decimalCorrection hi lo else a + decimalCorrection hi lo
  { value := r, flags := resultFlags r (a.getLsbD 4 ^^ r.getLsbD 4) (parityEven r) n hi }

/-- `bitTest`, the F it leaves, with the F before it (41_alu_rotate_bcd_bit.md R257; `conventional`:
93_implementation_defined.md U22; log 18). -/
def bitTest (sign : BitTestSign) (f a : Byte) (bit : BitVec 3) : Byte :=
  let z := !a.getLsbD bit.toNat
  let s := match sign with
    | .document => bit == 7 && z
    | .conventional => bit == 7 && a.getLsbD 7
  packFlags s z (a.getLsbD 5) true (a.getLsbD 3) z false (flagOf f .c)

/-- `add16` (42_alu16.md R271). -/
def add16 (a b : Word) : AluResult 16 :=
  addCore a b false

/-- `addWithCarry16`, with the F before it (42_alu16.md R273). -/
def addWithCarry16 (f : Byte) (a b : Word) : AluResult 16 :=
  addCore a b (flagOf f .c)

/-- `subtract16` (42_alu16.md R275). -/
def subtract16 (a b : Word) : AluResult 16 :=
  subCore a b false

/-- `subtractWithCarry16`, with the F before it (42_alu16.md R277). -/
def subtractWithCarry16 (f : Byte) (a b : Word) : AluResult 16 :=
  subCore a b (flagOf f .c)

/-- Write an 8-bit ALU result to its destination and F (40_alu8.md R200). -/
def State.writeAlu8 (s : State) (rd : Reg8) (x : AluResult 8) : State :=
  (s.set8 rd x.value).set8 .f x.flags

/-- Write a 16-bit ALU result to its destination and F (42_alu16.md R270). -/
def State.writeAlu16 (s : State) (rd : Reg16) (x : AluResult 16) : State :=
  (s.set16 rd x.value).set8 .f x.flags

end Sys2Proof.Machine
end

