-- ==== Sys2Proof/Machine/Ops.lean ====
section
/-! DEFINITION. The operations over memory and registers that the micro-operations share: accesses of more than one byte
(20_memory.md R102 to R109), the stack (10_state.md R39), the interrupt entry (60_exceptions.md R446) and the return
(44_control_system.md R344), with the interleaving points between byte accesses (20_memory.md R112). -/

namespace Sys2Proof.Machine

/-- The outcome of a meaning: also where a fatal error was raised the machine has a next state, its phase Faulted
(60_exceptions.md R401; log 10). -/
def Res.outcome (x : Res Unit) : Host.Outcome State Fault Refusal :=
  .next x.state

/-- `readWord(addr)`, low byte first (20_memory.md R102). -/
def State.readWord (s : State) (a : Word) : Res Word :=
  (s.readByte a).bind fun lo s1 =>
    s1.interleave.bind fun _ s2 =>
      (s2.readByte (a + 1)).bind fun hi s3 => .ok (hi ++ lo) s3

/-- `readBytes(addr, n)`, in ascending order (20_memory.md R104). -/
def State.readBytes : Nat → Word → State → Res (List Byte)
  | 0, _, s => .ok [] s
  | 1, a, s => (s.readByte a).bind fun v s1 => .ok [v] s1
  | n + 2, a, s =>
    (s.readByte a).bind fun v s1 =>
      s1.interleave.bind fun _ s2 =>
        (State.readBytes (n + 1) (a + 1) s2).bind fun rest s3 => .ok (v :: rest) s3

/-- The bytes from index `j` on of a string of `n` bytes written at `addr` (20_memory.md R105). -/
def State.writeFrom (addr : Word) (n : Nat) : Nat → List Byte → State → Res Unit
  | _, [], s => .ok () s
  | j, [v], s => s.writeStringByte addr n j v
  | j, v :: w :: rest, s =>
    (s.writeStringByte addr n j v).bind fun _ s1 =>
      s1.interleave.bind fun _ s2 => State.writeFrom addr n (j + 1) (w :: rest) s2

/-- `writeBytes(addr, bytes)` (20_memory.md R105). -/
def State.writeBytes (s : State) (a : Word) (bytes : List Byte) : Res Unit :=
  State.writeFrom a bytes.length 0 bytes s

/-- `writeWord(addr, w)`, low byte first (20_memory.md R103). -/
def State.writeWord (s : State) (a : Word) (v : Word) : Res Unit :=
  s.writeBytes a [lowByte v, highByte v]

/-- `transferByte(from, to)` (20_memory.md R106). -/
def State.transferByte (s : State) (source destination : Word) : Res Unit :=
  (s.readByte source).bind fun v s1 =>
    s1.interleave.bind fun _ s2 => s2.writeByte destination v

/-- `transferBytes(from, to, n)`: all reads, then all writes (20_memory.md R107). -/
def State.transferBytes (s : State) (source destination : Word) (n : Nat) : Res Unit :=
  if n = 0 then .ok () s
  else
    (State.readBytes n source s).bind fun bytes s1 =>
      s1.interleave.bind fun _ s2 => s2.writeBytes destination bytes

/-- Push: `SP <- SP - 2`, then the word at SP (10_state.md R39). -/
def State.pushWord (s : State) (v : Word) : Res Unit :=
  (s.setSp (s.sp - 2)).writeWord (s.sp - 2) v

/-- Pop: the word at SP, then `SP <- SP + 2` (10_state.md R39). -/
def State.popWord (s : State) : Res Word :=
  (s.readWord s.sp).bind fun v s1 => .ok v (s1.setSp (s1.sp + 2))

/-- Taking the interrupt `v`: the slot is emptied, PC is pushed and becomes the vector, the controller is told, and the
next block is fetched (60_exceptions.md R446). -/
def State.takeInterrupt (s : State) (v : Word) : Res Unit :=
  let s0 := { s with ic := { s.ic with vectorSlot := none } }
  (s0.pushWord s.pc).bind fun _ s1 =>
    .ok () { s1.setPc v with ic := s1.ic.notifyResume, phase := .fetch }

/-- The return from a call or an interrupt: PC is popped (44_control_system.md R344, 60_exceptions.md R448). -/
def State.returnToCaller (s : State) : Res Unit :=
  s.popWord.bind fun v s1 => .ok () (s1.setPc v)

/-- The outcome of a micro-operation that touches registers only. -/
def done (s : State) : Host.Outcome State Fault Refusal :=
  .next s

/-- Load a byte into an 8-bit register (43_move_memory_io.md R300). -/
def State.loadByte (s : State) (rd : Reg8) (a : Word) : Res Unit :=
  (s.readByte a).bind fun v s1 => .ok () (s1.set8 rd v)

/-- Load a word into a 16-bit register (43_move_memory_io.md R302). -/
def State.loadWord (s : State) (rd : Reg16) (a : Word) : Res Unit :=
  (s.readWord a).bind fun v s1 => .ok () (s1.set16 rd v)

/-- An 8-bit ALU operation on two bytes, with the F before it, written to `rd` (40_alu8.md R200). -/
def State.alu8 (s : State) (rd : Reg8) (x : AluResult 8) : Host.Outcome State Fault Refusal :=
  done (s.writeAlu8 rd x)

/-- A 16-bit ALU operation written to `rd` (42_alu16.md R270). -/
def State.alu16 (s : State) (rd : Reg16) (x : AluResult 16) : Host.Outcome State Fault Refusal :=
  done (s.writeAlu16 rd x)

end Sys2Proof.Machine
end

