-- ==== Sys2Proof/Machine/Alu16.lean ====
section
/-! DEFINITION. The 16-bit arithmetic micro-operations (42_alu16.md). -/

namespace Sys2Proof.Machine

/-- `ADD16 rd, rs` (42_alu16.md R272). -/
def execAdd16 (rd rs : Reg16) (s : State) : Host.Outcome State Fault Refusal :=
  s.alu16 rd (add16 (s.get16 rd) (s.get16 rs))

/-- `ADC16 rd, rs` (42_alu16.md R274). -/
def execAdc16 (rd rs : Reg16) (s : State) : Host.Outcome State Fault Refusal :=
  s.alu16 rd (addWithCarry16 (s.get8 .f) (s.get16 rd) (s.get16 rs))

/-- `SUB16 rd, rs` (42_alu16.md R276). -/
def execSub16 (rd rs : Reg16) (s : State) : Host.Outcome State Fault Refusal :=
  s.alu16 rd (subtract16 (s.get16 rd) (s.get16 rs))

/-- `SBC16 rd, rs` (42_alu16.md R278). -/
def execSbc16 (rd rs : Reg16) (s : State) : Host.Outcome State Fault Refusal :=
  s.alu16 rd (subtractWithCarry16 (s.get8 .f) (s.get16 rd) (s.get16 rs))

end Sys2Proof.Machine
end

