-- ==== Sys2Proof/Machine/Alu8.lean ====
section
/-! DEFINITION. The 8-bit arithmetic and logic micro-operations (40_alu8.md). -/

namespace Sys2Proof.Machine

/-- `ADD rd, rs` (40_alu8.md R202). -/
def execAdd (rd rs : Reg8) (s : State) : Host.Outcome State Fault Refusal :=
  s.alu8 rd (add8 (s.get8 rd) (s.get8 rs))

/-- `ADC rd, rs` (40_alu8.md R205). -/
def execAdc (rd rs : Reg8) (s : State) : Host.Outcome State Fault Refusal :=
  s.alu8 rd (addWithCarry8 (s.get8 .f) (s.get8 rd) (s.get8 rs))

/-- `SUB rd, rs` (40_alu8.md R208). -/
def execSub (rd rs : Reg8) (s : State) : Host.Outcome State Fault Refusal :=
  s.alu8 rd (subtract8 (s.get8 rd) (s.get8 rs))

/-- `SBC rd, rs` (40_alu8.md R211). -/
def execSbc (rd rs : Reg8) (s : State) : Host.Outcome State Fault Refusal :=
  s.alu8 rd (subtractWithCarry8 (s.get8 .f) (s.get8 rd) (s.get8 rs))

/-- `AND rd, rs` (40_alu8.md R214). -/
def execAnd (rd rs : Reg8) (s : State) : Host.Outcome State Fault Refusal :=
  s.alu8 rd (and8 (s.get8 rd) (s.get8 rs))

/-- `OR rd, rs` (40_alu8.md R217). -/
def execOr (rd rs : Reg8) (s : State) : Host.Outcome State Fault Refusal :=
  s.alu8 rd (or8 (s.get8 rd) (s.get8 rs))

/-- `XOR rd, rs` (40_alu8.md R220). -/
def execXor (rd rs : Reg8) (s : State) : Host.Outcome State Fault Refusal :=
  s.alu8 rd (xor8 (s.get8 rd) (s.get8 rs))

/-- `ADDI rd, imm8` (40_alu8.md R203). -/
def execAddi (rd : Reg8) (imm : Byte) (s : State) : Host.Outcome State Fault Refusal :=
  s.alu8 rd (add8 (s.get8 rd) imm)

/-- `ADCI rd, imm8` (40_alu8.md R206). -/
def execAdci (rd : Reg8) (imm : Byte) (s : State) : Host.Outcome State Fault Refusal :=
  s.alu8 rd (addWithCarry8 (s.get8 .f) (s.get8 rd) imm)

/-- `SUBI rd, imm8` (40_alu8.md R209). -/
def execSubi (rd : Reg8) (imm : Byte) (s : State) : Host.Outcome State Fault Refusal :=
  s.alu8 rd (subtract8 (s.get8 rd) imm)

/-- `SBCI rd, imm8` (40_alu8.md R212). -/
def execSbci (rd : Reg8) (imm : Byte) (s : State) : Host.Outcome State Fault Refusal :=
  s.alu8 rd (subtractWithCarry8 (s.get8 .f) (s.get8 rd) imm)

/-- `ANDI rd, imm8` (40_alu8.md R215). -/
def execAndi (rd : Reg8) (imm : Byte) (s : State) : Host.Outcome State Fault Refusal :=
  s.alu8 rd (and8 (s.get8 rd) imm)

/-- `ORI rd, imm8` (40_alu8.md R218). -/
def execOri (rd : Reg8) (imm : Byte) (s : State) : Host.Outcome State Fault Refusal :=
  s.alu8 rd (or8 (s.get8 rd) imm)

/-- `XORI rd, imm8` (40_alu8.md R221). -/
def execXori (rd : Reg8) (imm : Byte) (s : State) : Host.Outcome State Fault Refusal :=
  s.alu8 rd (xor8 (s.get8 rd) imm)

/-- `INC rd` (40_alu8.md R223). -/
def execInc (rd : Reg8) (s : State) : Host.Outcome State Fault Refusal :=
  s.alu8 rd (increment8 (s.get8 .f) (s.get8 rd))

/-- `DEC rd` (40_alu8.md R225). -/
def execDec (rd : Reg8) (s : State) : Host.Outcome State Fault Refusal :=
  s.alu8 rd (decrement8 (s.get8 .f) (s.get8 rd))

end Sys2Proof.Machine
end

