-- ==== Sys2Proof/Machine/Control.lean ====
section
/-! DEFINITION. Control transfer and system micro-operations (44_control_system.md). -/

namespace Sys2Proof.Machine

/-- `NOP` (44_control_system.md R330). -/
def execNop (s : State) : Host.Outcome State Fault Refusal :=
  done s

/-- `END`: a block boundary and nothing else (44_control_system.md R331). -/
def execEndBlock (s : State) : Host.Outcome State Fault Refusal :=
  done s

/-- `HALT`: nothing at execution, its effect is CPU-POST's (44_control_system.md R332). -/
def execHalt (s : State) : Host.Outcome State Fault Refusal :=
  done s

/-- `HALTP`: nothing at execution, its effect is CPU-POST's (44_control_system.md R333). -/
def execHaltp (s : State) : Host.Outcome State Fault Refusal :=
  done s

/-- `EI` (44_control_system.md R334). -/
def execEi (s : State) : Host.Outcome State Fault Refusal :=
  done (s.setIff true true)

/-- `DI` (44_control_system.md R335). -/
def execDi (s : State) : Host.Outcome State Fault Refusal :=
  done (s.setIff false false)

/-- `IM n` (44_control_system.md R336). -/
def execIm (n : BitVec 2) (s : State) : Host.Outcome State Fault Refusal :=
  done { s with regs := { s.regs with im := n } }

/-- `EXAF` (44_control_system.md R337). -/
def execExaf (s : State) : Host.Outcome State Fault Refusal :=
  done { s with regs := { s.regs with afSel := !s.regs.afSel } }

/-- `EXX` (44_control_system.md R338). -/
def execExx (s : State) : Host.Outcome State Fault Refusal :=
  done { s with regs := { s.regs with gpSel := !s.regs.gpSel } }

/-- `JP addr16` (44_control_system.md R340). -/
def execJp (addr : Word) (s : State) : Host.Outcome State Fault Refusal :=
  done (s.setPc addr)

/-- The condition `cc` holds: the flag numbered cc[2:0] has the value cc[3] (30_encoding.md R167). -/
def State.condition (s : State) (cc : BitVec 4) : Bool :=
  (s.get8 .f).getLsbD (cc.extractLsb' 0 3).toNat == cc.getLsbD 3

/-- `JPC cond, addr16` (44_control_system.md R341). -/
def execJpc (cc : BitVec 4) (addr : Word) (s : State) : Host.Outcome State Fault Refusal :=
  done (if s.condition cc then s.setPc addr else s)

/-- `JPR rs` (44_control_system.md R342). -/
def execJpr (rs : Reg16) (s : State) : Host.Outcome State Fault Refusal :=
  done (s.setPc (s.get16 rs))

/-- `CALL addr16` (44_control_system.md R343). -/
def execCall (addr : Word) (s : State) : Host.Outcome State Fault Refusal :=
  ((s.pushWord s.pc).bind fun _ s1 => .ok () (s1.setPc addr)).outcome

/-- `RET` (44_control_system.md R344). -/
def execRet (s : State) : Host.Outcome State Fault Refusal :=
  s.returnToCaller.outcome

/-- `RETN` (44_control_system.md R347). -/
def execRetn (s : State) : Host.Outcome State Fault Refusal :=
  (s.returnToCaller.bind fun _ s1 => .ok () (s1.setIff s1.regs.iff2 s1.regs.iff2)).outcome

end Sys2Proof.Machine
end

