-- ==== Sys2Proof/Machine/Move.lean ====
section
/-! DEFINITION. Data movement, loads and stores, the stack, block transfer and ports (43_move_memory_io.md). -/

namespace Sys2Proof.Machine

/-- `LDI8 rd, imm8` (43_move_memory_io.md R291). -/
def execLdi8 (rd : Reg8) (imm : Byte) (s : State) : Host.Outcome State Fault Refusal :=
  done (s.set8 rd imm)

/-- `LDI16 rd, imm16` (43_move_memory_io.md R292). -/
def execLdi16 (rd : Reg16) (imm : Word) (s : State) : Host.Outcome State Fault Refusal :=
  done (s.set16 rd imm)

/-- `MOV8 rd, rs` (43_move_memory_io.md R293). -/
def execMov8 (rd rs : Reg8) (s : State) : Host.Outcome State Fault Refusal :=
  done (s.set8 rd (s.get8 rs))

/-- `MOV16 rd, rs` (43_move_memory_io.md R294). -/
def execMov16 (rd rs : Reg16) (s : State) : Host.Outcome State Fault Refusal :=
  done (s.set16 rd (s.get16 rs))

/-- `LDR8 rd, (rs)` (43_move_memory_io.md R300). -/
def execLdr8 (rd : Reg8) (rs : Reg16) (s : State) : Host.Outcome State Fault Refusal :=
  (s.loadByte rd (s.get16 rs)).outcome

/-- `STR8 (rd), rs` (43_move_memory_io.md R301). -/
def execStr8 (rd : Reg16) (rs : Reg8) (s : State) : Host.Outcome State Fault Refusal :=
  (s.writeByte (s.get16 rd) (s.get8 rs)).outcome

/-- `LDR16 rd, (rs)` (43_move_memory_io.md R302). -/
def execLdr16 (rd rs : Reg16) (s : State) : Host.Outcome State Fault Refusal :=
  (s.loadWord rd (s.get16 rs)).outcome

/-- `STR16 (rd), rs` (43_move_memory_io.md R303). -/
def execStr16 (rd rs : Reg16) (s : State) : Host.Outcome State Fault Refusal :=
  (s.writeWord (s.get16 rd) (s.get16 rs)).outcome

/-- `LDA8 rd, (addr16)` (43_move_memory_io.md R304). -/
def execLda8 (rd : Reg8) (addr : Word) (s : State) : Host.Outcome State Fault Refusal :=
  (s.loadByte rd addr).outcome

/-- `STA8 (addr16), rs` (43_move_memory_io.md R305). -/
def execSta8 (addr : Word) (rs : Reg8) (s : State) : Host.Outcome State Fault Refusal :=
  (s.writeByte addr (s.get8 rs)).outcome

/-- `LDA16 rd, (addr16)` (43_move_memory_io.md R306). -/
def execLda16 (rd : Reg16) (addr : Word) (s : State) : Host.Outcome State Fault Refusal :=
  (s.loadWord rd addr).outcome

/-- `STA16 (addr16), rs` (43_move_memory_io.md R307). -/
def execSta16 (addr : Word) (rs : Reg16) (s : State) : Host.Outcome State Fault Refusal :=
  (s.writeWord addr (s.get16 rs)).outcome

/-- `PUSH rs` (43_move_memory_io.md R310). -/
def execPush (rs : Reg16) (s : State) : Host.Outcome State Fault Refusal :=
  (s.pushWord (s.get16 rs)).outcome

/-- `POP rd`: the register is written after SP (43_move_memory_io.md R311). -/
def execPop (rd : Reg16) (s : State) : Host.Outcome State Fault Refusal :=
  (s.popWord.bind fun v s1 => .ok () (s1.set16 rd v)).outcome

/-- `XFER (rd), (rs)` (43_move_memory_io.md R315). -/
def execXfer (rd rs : Reg16) (s : State) : Host.Outcome State Fault Refusal :=
  (s.transferByte (s.get16 rs) (s.get16 rd)).outcome

/-- `XFERN (rd), (rs), len16` (43_move_memory_io.md R316). -/
def execXfern (rd rs : Reg16) (len : Word) (s : State) : Host.Outcome State Fault Refusal :=
  (s.transferBytes (s.get16 rs) (s.get16 rd) len.toNat).outcome

/-- `IN rd, (rs)` (43_move_memory_io.md R320). -/
def execInp (rd : Reg8) (rs : Reg16) (s : State) : Host.Outcome State Fault Refusal :=
  ((s.portRead (s.get16 rs)).bind fun v s1 => .ok () (s1.set8 rd v)).outcome

/-- `OUT (rd), rs` (43_move_memory_io.md R321). -/
def execOut (rd : Reg16) (rs : Reg8) (s : State) : Host.Outcome State Fault Refusal :=
  done (s.portWrite (s.get16 rd) (s.get8 rs))

end Sys2Proof.Machine
end

