-- ==== Sys2Proof/Machine/Rotate.lean ====
section
/-! DEFINITION. The rotates, shifts, decimal adjust and bit test (41_alu_rotate_bcd_bit.md). -/

namespace Sys2Proof.Machine

/-- `RL rd` (41_alu_rotate_bcd_bit.md R242). -/
def execRl (rd : Reg8) (s : State) : Host.Outcome State Fault Refusal :=
  s.alu8 rd (rotateLeft (s.get8 .f) (s.get8 rd))

/-- `RR rd` (41_alu_rotate_bcd_bit.md R244). -/
def execRr (rd : Reg8) (s : State) : Host.Outcome State Fault Refusal :=
  s.alu8 rd (rotateRight (s.get8 .f) (s.get8 rd))

/-- `RLC rd` (41_alu_rotate_bcd_bit.md R246). -/
def execRlc (rd : Reg8) (s : State) : Host.Outcome State Fault Refusal :=
  s.alu8 rd (rotateLeftWithCarry (s.get8 rd))

/-- `RRC rd` (41_alu_rotate_bcd_bit.md R248). -/
def execRrc (rd : Reg8) (s : State) : Host.Outcome State Fault Refusal :=
  s.alu8 rd (rotateRightWithCarry (s.get8 rd))

/-- `SLA rd` (41_alu_rotate_bcd_bit.md R250). -/
def execSla (rd : Reg8) (s : State) : Host.Outcome State Fault Refusal :=
  s.alu8 rd (shiftLeft (s.get8 rd))

/-- `SRA rd` (41_alu_rotate_bcd_bit.md R252). -/
def execSra (rd : Reg8) (s : State) : Host.Outcome State Fault Refusal :=
  s.alu8 rd (shiftRight (s.get8 rd))

/-- `SRL rd` (41_alu_rotate_bcd_bit.md R254). -/
def execSrl (rd : Reg8) (s : State) : Host.Outcome State Fault Refusal :=
  s.alu8 rd (shiftRightLogical (s.get8 rd))

/-- `DAA rd` (41_alu_rotate_bcd_bit.md R256). -/
def execDaa (rd : Reg8) (s : State) : Host.Outcome State Fault Refusal :=
  s.alu8 rd (decimalAdjust (s.get8 .f) (s.get8 rd))

/-- `BIT bit, rs`: F only (41_alu_rotate_bcd_bit.md R258). -/
def execBit (n : BitVec 3) (rs : Reg8) (s : State) : Host.Outcome State Fault Refusal :=
  done (s.set8 .f (bitTest s.cfg.bitTestSign (s.get8 .f) (s.get8 rs) n))

end Sys2Proof.Machine
end

