-- ==== Sys2Proof/Machine/Dispatch.lean ====
section
/-! DEFINITION. The dispatch: one arm per micro-operation (60_exceptions.md R442). -/

namespace Sys2Proof.Machine

def exec (i : Instr) (s : State) : Host.Outcome State Fault Refusal :=
  match i with
  | .nop => Sys2Proof.Machine.execNop s
  | .endBlock => Sys2Proof.Machine.execEndBlock s
  | .halt => Sys2Proof.Machine.execHalt s
  | .haltp => Sys2Proof.Machine.execHaltp s
  | .ei => Sys2Proof.Machine.execEi s
  | .di => Sys2Proof.Machine.execDi s
  | .im n => Sys2Proof.Machine.execIm n s
  | .exaf => Sys2Proof.Machine.execExaf s
  | .exx => Sys2Proof.Machine.execExx s
  | .ldi8 rd imm => Sys2Proof.Machine.execLdi8 rd imm s
  | .ldi16 rd imm => Sys2Proof.Machine.execLdi16 rd imm s
  | .mov8 rd rs => Sys2Proof.Machine.execMov8 rd rs s
  | .mov16 rd rs => Sys2Proof.Machine.execMov16 rd rs s
  | .ldr8 rd rs => Sys2Proof.Machine.execLdr8 rd rs s
  | .str8 rd rs => Sys2Proof.Machine.execStr8 rd rs s
  | .ldr16 rd rs => Sys2Proof.Machine.execLdr16 rd rs s
  | .str16 rd rs => Sys2Proof.Machine.execStr16 rd rs s
  | .lda8 rd addr => Sys2Proof.Machine.execLda8 rd addr s
  | .sta8 addr rs => Sys2Proof.Machine.execSta8 addr rs s
  | .lda16 rd addr => Sys2Proof.Machine.execLda16 rd addr s
  | .sta16 addr rs => Sys2Proof.Machine.execSta16 addr rs s
  | .push rs => Sys2Proof.Machine.execPush rs s
  | .pop rd => Sys2Proof.Machine.execPop rd s
  | .xfer rd rs => Sys2Proof.Machine.execXfer rd rs s
  | .xfern rd rs len => Sys2Proof.Machine.execXfern rd rs len s
  | .inp rd rs => Sys2Proof.Machine.execInp rd rs s
  | .out rd rs => Sys2Proof.Machine.execOut rd rs s
  | .add rd rs => Sys2Proof.Machine.execAdd rd rs s
  | .adc rd rs => Sys2Proof.Machine.execAdc rd rs s
  | .sub rd rs => Sys2Proof.Machine.execSub rd rs s
  | .sbc rd rs => Sys2Proof.Machine.execSbc rd rs s
  | .and rd rs => Sys2Proof.Machine.execAnd rd rs s
  | .or rd rs => Sys2Proof.Machine.execOr rd rs s
  | .xor rd rs => Sys2Proof.Machine.execXor rd rs s
  | .inc rd => Sys2Proof.Machine.execInc rd s
  | .dec rd => Sys2Proof.Machine.execDec rd s
  | .rl rd => Sys2Proof.Machine.execRl rd s
  | .rr rd => Sys2Proof.Machine.execRr rd s
  | .rlc rd => Sys2Proof.Machine.execRlc rd s
  | .rrc rd => Sys2Proof.Machine.execRrc rd s
  | .sla rd => Sys2Proof.Machine.execSla rd s
  | .sra rd => Sys2Proof.Machine.execSra rd s
  | .srl rd => Sys2Proof.Machine.execSrl rd s
  | .daa rd => Sys2Proof.Machine.execDaa rd s
  | .bit n rs => Sys2Proof.Machine.execBit n rs s
  | .add16 rd rs => Sys2Proof.Machine.execAdd16 rd rs s
  | .adc16 rd rs => Sys2Proof.Machine.execAdc16 rd rs s
  | .sub16 rd rs => Sys2Proof.Machine.execSub16 rd rs s
  | .sbc16 rd rs => Sys2Proof.Machine.execSbc16 rd rs s
  | .addi rd imm => Sys2Proof.Machine.execAddi rd imm s
  | .adci rd imm => Sys2Proof.Machine.execAdci rd imm s
  | .subi rd imm => Sys2Proof.Machine.execSubi rd imm s
  | .sbci rd imm => Sys2Proof.Machine.execSbci rd imm s
  | .andi rd imm => Sys2Proof.Machine.execAndi rd imm s
  | .ori rd imm => Sys2Proof.Machine.execOri rd imm s
  | .xori rd imm => Sys2Proof.Machine.execXori rd imm s
  | .jp addr => Sys2Proof.Machine.execJp addr s
  | .jpc cc addr => Sys2Proof.Machine.execJpc cc addr s
  | .jpr rs => Sys2Proof.Machine.execJpr rs s
  | .call addr => Sys2Proof.Machine.execCall addr s
  | .ret => Sys2Proof.Machine.execRet s
  | .retn => Sys2Proof.Machine.execRetn s

end Sys2Proof.Machine
end

