-- ==== Sys2Proof/Machine/Loop.lean ====
section
/-! DEFINITION. The steps of the CPU agent other than CPU-EXEC: CPU-FETCH, CPU-POST, CPU-WAKE, CPU-CANCEL
(60_exceptions.md R441 to R449). -/

namespace Sys2Proof.Machine

/-- Step CPU-FETCH (60_exceptions.md R441, 30_encoding.md R175). -/
def State.cpuFetch (s : State) : State :=
  if s.cancel then { s with phase := .stopped }
  else
    match s.getOrCompile (.decoder s.cfg.decoder) s.pc with
    | .ok b s1 => { s1.setPc (b.address + BitVec.ofNat 16 b.length) with phase := .execute b 0 }
    | .raised s1 => s1

/-- Signal the peripherals to halt and register the task that resumes them (60_exceptions.md R444). -/
def State.signalHalt (s : State) : State :=
  { s.emit .signalHalt with periphHalted := true, ic := s.ic.addResumeTask .signalResume }

/-- The first half of CPU-POST: what a HALT-class block does (60_exceptions.md R443, R444). -/
def State.haltBlock (s : State) (b : Block) : State :=
  if b.haltsCpu then
    let s1 := { s with ic := s.ic.halt }
    if b.haltsPeripherals then s1.signalHalt else s1
  else s

/-- Step CPU-POST, with the cases (a), (b), (c) of the rule (60_exceptions.md R443). -/
def State.cpuPost (s : State) (b : Block) : State :=
  let s1 := s.haltBlock b
  if s1.ic.halted then
    if s1.ic.interrupting || b.haltsCpu then { s1 with ic := s1.ic.notifyHalt, phase := .awaitVector }
    else { s1 with ic := s1.ic.notifyHalt.notifyResume, phase := .fetch }
  else { s1 with ic := s1.ic.notifyResume, phase := .fetch }

/-- Step CPU-WAKE, the interrupt entry (60_exceptions.md R446). -/
def State.cpuWake (s : State) (v : Word) : State :=
  (s.takeInterrupt v).state

/-- Step CPU-CANCEL (60_exceptions.md R449). -/
def State.cpuCancel (s : State) : State :=
  if s.phase = .awaitVector && s.cancel then { s with phase := .stopped } else s

/-- The phase AwaitVector: wake when a vector is there, else stop when cancelled, else wait (60_exceptions.md R445, R446,
R449, R450; log 11, 19). -/
def State.cpuAwait (s : State) : State :=
  match s.ic.vectorSlot with
  | some v => s.cpuWake v
  | none => s.cpuCancel

end Sys2Proof.Machine
end

