-- ==== Sys2Proof/Machine/Run.lean ====
section
/-! DEFINITION. Step CPU-EXEC (60_exceptions.md R442), the choice of the next turn (log 5), and the placing of one
micro-operation where the next step runs it (log 9). -/

namespace Sys2Proof.Machine

/-- The cycles collected after a block: its static cycles and those its execution returns, a free value where the block
names no count (60_exceptions.md R442, 30_encoding.md R173; log 22). -/
def State.collected (s : State) (b : Block) : Nat :=
  b.staticCycles + b.cyclesUsed.getD (Config.cycles s.draws)

/-- After micro-operation k of the body: the next one, or the cycles and the phase Post; nothing after a fatal error
(60_exceptions.md R442, R401). -/
def State.afterUop (s : State) (b : Block) (k : Nat) : State :=
  if s.faulted then s
  else if k + 1 < b.body.length then { s with phase := .execute b (k + 1) }
  else
    { s with
      lastCycles := s.collected b
      totalCycles := s.totalCycles + s.collected b
      draws := if b.cyclesUsed.isNone then s.draws + 1 else s.draws
      phase := .post b }

/-- Step CPU-EXEC (60_exceptions.md R442). -/
def State.cpuExec (s : State) (b : Block) (k : Nat) : Host.Outcome State Fault Refusal :=
  match b.body[k]? with
  | none => .fault .bodyOverrun
  | some i =>
    match exec i s with
    | .next t => .next (t.afterUop b k)
    | .fault r => .fault r
    | .refused r => .refused r

/-- The CPU agent's step, the one its phase enables; before `run` it has none (60_exceptions.md R440 to R449;
70_reset_and_hazards.md R501; log 8, 11). -/
def State.cpuStep (s : State) : Host.Outcome State Fault Refusal :=
  if s.started then
    match s.phase with
    | .fetch => .next s.cpuFetch
    | .execute b k => s.cpuExec b k
    | .post b => .next (s.cpuPost b)
    | .awaitVector => .next s.cpuAwait
    | .stopped => .next s
    | .faulted e => .fault (.engineFaulted e)
  else .next s

/-- The CPU agent has an enabled step (60_exceptions.md R445, R449). -/
def State.cpuEnabled (s : State) : Bool :=
  match s.phase with
  | .awaitVector => s.ic.vectorSlot.isSome || s.cancel
  | .stopped => false
  | .faulted _ => false
  | _ => true

/-- The IC agent has an enabled step (60_exceptions.md R422, R424). -/
def State.icEnabled (s : State) : Bool :=
  if s.ic.interrupting then s.ic.haltAck && s.ic.vectorSlot.isNone else !s.ic.reqQueue.isEmpty

/-- The turn taken where the agenda names none: `run` first, then the CPU, and the IC and the DMA pump while the CPU has no
step (log 5). -/
def State.defaultTurn (s : State) : Turn :=
  if !s.started then .other (.env .run)
  else if s.cpuEnabled then .cpu
  else if s.icEnabled then .other .ic
  else .other .dma

/-- Take one turn (00_scope.md R14, R18). -/
def State.takeTurn (s : State) : Turn → Host.Outcome State Fault Refusal
  | .cpu => s.cpuStep
  | .cpuCancel => .next s.cpuCancel
  | .other m => .next (s.moveStep m)

/-- One step of the engine: no agent has one in the phase Faulted (60_exceptions.md R401; log 10); else the agenda's next
turn, or the default one (log 5). -/
def State.advance (s : State) : Host.Outcome State Fault Refusal :=
  match s.phase with
  | .faulted e => .fault (.engineFaulted e)
  | _ =>
    match s.agenda with
    | [] => s.takeTurn s.defaultTurn
    | t :: rest => State.takeTurn { s with agenda := rest } t

/-- Put bytes into RAM or ROM from an address on, as the platform does before `run` (70_reset_and_hazards.md R510 b). -/
def State.poke : List Byte → Word → State → State
  | [], _, s => s
  | v :: rest, a, s =>
    State.poke rest (a + 1)
      (if (s.segmentAt a).kind.backed then { s with mem := s.mem.write (s.cfg.resetByte a) a.toNat v } else s)

/-- The bytes placed for a word: its memory image and, where the word does not end a block, the word END after it, because
RD0 reads on to a terminator (30_encoding.md R163, R170; log 9). -/
def placedBytes (w : UopWord) : List Byte :=
  match decodeWord w with
  | .ok i => if i.isTerminator then bytesOfWord w else bytesOfWord w ++ encodeBytes .endBlock
  | .error _ => bytesOfWord w

/-- The word placed at PC with `run` called and no other turn pending, ready for CPU-FETCH (log 9). -/
def State.readyToFetch (s : State) (w : UopWord) : State :=
  let s1 := State.poke (placedBytes w) s.pc s
  { s1 with started := true, cancel := false, agenda := [], phase := .fetch, cache := [] }

/-- The state after the CPU-FETCH of the placed word, so that the next step is its CPU-EXEC; where the word is no
micro-operation, the state before that fetch, whose step raises UnsupportedInstruction (log 9). -/
def State.placeWord (s : State) (nbits w : Nat) : State :=
  let s1 := s.readyToFetch (BitVec.ofNat 32 (w % 2 ^ nbits))
  if s1.cpuFetch.faulted then s1 else s1.cpuFetch

end Sys2Proof.Machine
end

