-- ==== Sys2Proof/Machine/Step.lean ====
section
/-! DEFINITION. One step of the engine, and one micro-operation placed where the next step runs it. -/

namespace Sys2Proof.Machine

/-- One atomic step of one agent (00_scope.md R14, R18). -/
def step (s : State) : Host.Outcome State Fault Refusal :=
  s.advance

/-- `s` with the micro-operation `w` stored at PC, fetched, and about to run (log 9). -/
def State.withFetchWord (s : State) (nbits w : Nat) : State :=
  s.placeWord nbits w

end Sys2Proof.Machine
end

