-- ==== Sys2Proof/Safety.lean ====
section
/-! DEFINITION. The terms the statements use: which bytes can be read and written, what an instruction leaves unchanged,
the effect of each group of micro-operations in the words of the rules, and the invariant of the engine. -/

namespace Sys2Proof

/-- The 8-bit registers a 16-bit register is made of (10_state.md R35). -/
def Reg16.halves : Reg16 → List Reg8
  | .bc => [.b, .c]
  | .de => [.d, .e]
  | .hl => [.h, .l]
  | .af => [.a, .f]
  | .sp | .ix | .iy | .pc => []

/-- The segment table tiles 0x0000 to 0xFFFF (20_memory.md R88). -/
def Config.tiled (c : Config) : Prop :=
  checkTiling 0 c.segments = none

/-- The error is one a decoder ends in: UnsupportedInstruction, or the ReadFault it met (60_exceptions.md R441, R405). -/
def FatalError.ofDecoder (e : FatalError) : Prop :=
  (∃ p, e = .unsupportedInstruction p) ∨ ∃ p, e = .readFault p

/-- The block is one the cache takes: a length of 1 to 0x10000 and a well-formed body of 1 to the limit of micro-operations
(20_memory.md R131, 30_encoding.md R161; a limit of 0 counts as 1, log 23; the limit is that of every decoder, log 29; the
halt bits are the decoder's own, log 31). -/
def Block.wf (c : Config) (b : Block) : Prop :=
  1 ≤ b.length ∧ b.length ≤ spaceSize ∧ b.body ≠ [] ∧ b.body.length ≤ max 1 c.maxBlockUops ∧ wfBody b.body = true

end Sys2Proof

namespace Sys2Proof.Machine

/-! ### Readable and writable bytes (20_memory.md R83, R86) -/

/-- The address is in a RAM or ROM segment whose capability includes Read. -/
def State.readable (s : State) (a : Word) : Prop :=
  (s.segmentAt a).cap.canRead = true ∧ (s.segmentAt a).kind.backed = true

/-- The address is in a RAM or ROM segment whose capability includes Write. -/
def State.writable (s : State) (a : Word) : Prop :=
  (s.segmentAt a).cap.canWrite = true ∧ (s.segmentAt a).kind.backed = true

/-- The `n` bytes from `a` on, modulo 0x10000, are readable. -/
def State.readableRun (s : State) (a : Word) (n : Nat) : Prop :=
  ∀ j, j < n → s.readable (a + BitVec.ofNat 16 j)

/-- The `n` bytes from `a` on, modulo 0x10000, are writable. -/
def State.writableRun (s : State) (a : Word) (n : Nat) : Prop :=
  ∀ j, j < n → s.writable (a + BitVec.ofNat 16 j)

/-- A read of the address is a read fault that raises (20_memory.md R86). -/
def State.readRaises (s : State) (a : Word) : Prop :=
  (s.segmentAt a).cap.canRead = false ∧ s.cfg.readFaultPolicy = .raise

/-- A write of the address is a write fault that raises (20_memory.md R86). -/
def State.writeRaises (s : State) (a : Word) : Prop :=
  (s.segmentAt a).cap.canWrite = false ∧ s.cfg.writeFaultPolicy = .raise

/-- A range of the entry holds the address (20_memory.md R80, R131). -/
def CacheEntry.covers (e : CacheEntry) (a : Word) : Bool :=
  e.ranges.any fun r => r.low ≤ a.toNat && a.toNat ≤ r.high

/-! ### Portions of a string and the cache (20_memory.md R105, R110, R137) -/

/-- The address is the last one of its segment. -/
def State.endsSegment (s : State) (x : Word) : Prop :=
  (s.segmentAt x).base.toNat + (s.segmentAt x).length = x.toNat + 1

/-- Byte `j` of a string of `n` bytes at `a` is the last of its portion. -/
def State.lastOfPortion (s : State) (a : Word) (n j : Nat) : Prop :=
  j + 1 = n ∨ s.endsSegment (a + BitVec.ofNat 16 j)

/-- The bytes `k` to `j` of a string at `a` belong to one portion. -/
def State.onePortion (s : State) (a : Word) (k j : Nat) : Prop :=
  k ≤ j ∧ ∀ m, k ≤ m → m < j → ¬s.endsSegment (a + BitVec.ofNat 16 m)

/-- Of the cache of `s` exactly the entries are kept that cover no RAM byte of the stored ones (20_memory.md R110, R137,
R140). -/
def DropsExactly (s t : State) (stored : Word → Prop) : Prop :=
  ∀ e, e ∈ t.cache ↔ e ∈ s.cache ∧ ∀ x, stored x → (s.segmentAt x).kind = .ram → e.covers x = false

/-- After byte `j` of a string of `n` bytes at `a` was written: where it is the last of a RAM portion exactly the entries are
kept that cover no byte of that portion, else all are (20_memory.md R105, R137). -/
def DropsPortion (s t : State) (a : Word) (n j : Nat) : Prop :=
  ∀ e, e ∈ t.cache ↔ e ∈ s.cache ∧
    ((s.segmentAt (a + BitVec.ofNat 16 j)).kind = .ram → s.lastOfPortion a n j →
      ∀ k, s.onePortion a k j → e.covers (a + BitVec.ofNat 16 k) = false)

/-! ### Frames -/

/-- The 8-bit registers not in `xs`, and of IX, IY, SP, PC those not in `ys`, have the same value in `h` as in `g`; so have
the inactive banks, the bank selects, IFF1, IFF2 and IM. -/
structure RegsKept (xs : List Reg8) (ys : List Reg16) (g h : Regs) : Prop where
  bytes : ∀ x, x ∉ xs → h.get8 x = g.get8 x
  words : ∀ y, y ∈ [Reg16.ix, .iy, .sp, .pc] → y ∉ ys → h.get16 y = g.get16 y
  gpAlt : h.gpAlt = g.gpAlt
  afAlt : h.afAlt = g.afAlt
  gpSel : h.gpSel = g.gpSel
  afSel : h.afSel = g.afSel
  iff1  : h.iff1 = g.iff1
  iff2  : h.iff2 = g.iff2
  im    : h.im = g.im

/-- Nothing but registers differs, and every byte of memory reads as before. -/
def OnlyRegisters (s t : State) : Prop :=
  t = { s with regs := t.regs } ∧ ∀ a, t.byteAt a = s.byteAt a

/-- Nothing but registers, the bytes at the addresses that satisfy `stored`, and entries dropped from the cache differs; in
an address space that tiles, exactly the entries that cover a stored RAM byte are dropped. -/
def OnlyStored (s t : State) (stored : Word → Prop) : Prop :=
  t = { s with regs := t.regs, mem := t.mem, cache := t.cache } ∧ t.cache.Sublist s.cache ∧
    (∀ a, ¬stored a → t.byteAt a = s.byteAt a) ∧ (s.cfg.tiled → DropsExactly s t stored)

/-! ### One byte access (20_memory.md R83 to R86, R100, R105) -/

/-- A read of the byte at `a` that raises nothing gives `v` and leaves `t`, for every kind of segment; under the policy
`ignore` an unreadable byte is a draw. -/
def State.reads (s : State) (a : Word) (v : Byte) (t : State) : Prop :=
  (s.readable a ∧ v = s.byteAt a ∧ t = s) ∨
  ((s.segmentAt a).cap.canRead = true ∧ (s.segmentAt a).kind = .peripheral ∧
    ∃ rest, s.inputs = v :: rest ∧ t = { s with inputs := rest }) ∨
  ((s.segmentAt a).cap.canRead = true ∧ (s.segmentAt a).kind = .peripheral ∧ s.inputs = [] ∧
    v = Config.draw s.draws ∧ t = { s with draws := s.draws + 1 }) ∨
  ((s.segmentAt a).cap.canRead = true ∧ (s.segmentAt a).kind = .unused ∧ s.cfg.unusedRead = some v ∧ t = s) ∨
  ((s.segmentAt a).cap.canRead = true ∧ (s.segmentAt a).kind = .unused ∧ s.cfg.unusedRead = none ∧
    v = Config.draw s.draws ∧ t = { s with draws := s.draws + 1 }) ∨
  ((s.segmentAt a).cap.canRead = false ∧ s.cfg.readFaultPolicy = .ignore ∧
    v = Config.draw s.draws ∧ t = { s with draws := s.draws + 1 })

/-- The write of `v` as byte `j` of a string of `n` bytes at `addr`, where it raises nothing, leaves `t`, for every kind of
segment: a RAM or ROM byte is stored, and in an address space that tiles a RAM portion that ends here is dropped from the
cache; a Peripheral write is logged; a write to an Unused segment, or to an unwritable one under `ignore`, has no effect. -/
def State.writesByte (s : State) (addr : Word) (n j : Nat) (v : Byte) (t : State) : Prop :=
  let a := addr + BitVec.ofNat 16 j
  (s.writable a ∧ t = { s with mem := t.mem, cache := t.cache } ∧ t.byteAt a = v ∧
    (∀ x, x ≠ a → t.byteAt x = s.byteAt x) ∧ t.cache.Sublist s.cache ∧ (s.cfg.tiled → DropsPortion s t addr n j)) ∨
  ((s.segmentAt a).cap.canWrite = true ∧ (s.segmentAt a).kind = .peripheral ∧ t = { s with
    log := s.log ++ [.peripheralWrite (s.segmentAt a).base (a.toNat - (s.segmentAt a).base.toNat) v] }) ∨
  ((s.segmentAt a).cap.canWrite = true ∧ (s.segmentAt a).kind = .unused ∧ t = s) ∨
  ((s.segmentAt a).cap.canWrite = false ∧ s.cfg.writeFaultPolicy = .ignore ∧ t = s)

/-! ### Effects of the micro-operations -/

/-- The eight flags of the active F (10_state.md R36). -/
def State.flagsAre (t : State) (s z f5 h f3 pv n c : Bool) : Prop :=
  t.flag .s = s ∧ t.flag .z = z ∧ t.flag .f5 = f5 ∧ t.flag .h = h ∧
    t.flag .f3 = f3 ∧ t.flag .pv = pv ∧ t.flag .n = n ∧ t.flag .c = c

/-- `t` is `s` after an 8-bit ALU micro-operation with result `r` in `rd`, `sz53(r)`, and the four other flags as given
(00_scope.md R17, 40_alu8.md R200): no other register, and nothing else, differs. -/
def Alu8Effect (s t : State) (rd : Reg8) (r : Byte) (h pv n c : Bool) : Prop :=
  t.get8 rd = r ∧
    t.flagsAre (r.getLsbD 7) (decide (r = 0)) (r.getLsbD 5) h (r.getLsbD 3) pv n c ∧
    RegsKept [rd, .f] [] s.regs t.regs ∧ OnlyRegisters s t

/-- `t` is `s` after a 16-bit ALU micro-operation with result `r` in `rd`: S, Z, F5, F3 from bits 15, all, 13, 11 of the
result (42_alu16.md R271), and the four other flags as given; nothing else differs. -/
def Alu16Effect (s t : State) (rd : Reg16) (r : Word) (h pv n c : Bool) : Prop :=
  t.get16 rd = r ∧
    t.flagsAre (r.getLsbD 15) (decide (r = 0)) (r.getLsbD 13) h (r.getLsbD 11) pv n c ∧
    RegsKept (.f :: rd.halves) [rd] s.regs t.regs ∧ OnlyRegisters s t

/-- The carry flag of the active F as 0 or 1. -/
def State.carry (s : State) : Nat :=
  (s.flag .c).toNat

/-- `i` completes with `a + b + c` in `rd` and the flags of an addition (40_alu8.md R201, R204). -/
def Adds8 (s : State) (i : Instr) (rd : Reg8) (a b : Byte) (c : Nat) : Prop :=
  let sum := a.toNat + b.toNat + c
  let r := BitVec.ofNat 8 sum
  ∃ t, exec i s = .next t ∧
    Alu8Effect s t rd r (decide (a.toNat % 16 + b.toNat % 16 + c > 15))
      (decide (a.getLsbD 7 = b.getLsbD 7 ∧ r.getLsbD 7 ≠ a.getLsbD 7)) false (decide (sum > 255))

/-- `i` completes with `a - b - c` in `rd` and the flags of a subtraction (40_alu8.md R207, R210). -/
def Subtracts8 (s : State) (i : Instr) (rd : Reg8) (a b : Byte) (c : Nat) : Prop :=
  let diff : Int := (a.toNat : Int) - b.toNat - c
  let r := BitVec.ofInt 8 diff
  ∃ t, exec i s = .next t ∧
    Alu8Effect s t rd r (decide (((a.toNat % 16 : Nat) : Int) - (b.toNat % 16 : Nat) - c < 0))
      (decide (a.getLsbD 7 ≠ b.getLsbD 7 ∧ r.getLsbD 7 ≠ a.getLsbD 7)) true (decide (diff < 0))

/-- The number of 1 bits of a byte is even (00_scope.md R17 `parity_even`). -/
def evenOnes (r : Byte) : Bool :=
  decide (((List.range 8).filter fun k => r.getLsbD k).length % 2 = 0)

/-- `i` completes with the logical result `r` in `rd`: PV is the parity, H as given, N and C clear (40_alu8.md R213, R216,
R219). -/
def Logic8 (s : State) (i : Instr) (rd : Reg8) (r : Byte) (h : Bool) : Prop :=
  ∃ t, exec i s = .next t ∧ Alu8Effect s t rd r h (evenOnes r) false false

/-- `i` completes with the byte of which bit `k` is `bits k` in `rd`, H and N clear, PV the parity, C the bit moved out
(41_alu_rotate_bcd_bit.md R240). -/
def Shifts8 (s : State) (i : Instr) (rd : Reg8) (bits : Nat → Bool) (out : Bool) : Prop :=
  ∃ t r, exec i s = .next t ∧ (∀ k, k < 8 → r.getLsbD k = bits k) ∧
    Alu8Effect s t rd r false (evenOnes r) false out

/-- `i` completes with `a + b + c` in `rd` and the flags of a 16-bit addition (42_alu16.md R271, R273). -/
def Adds16 (s : State) (i : Instr) (rd : Reg16) (a b : Word) (c : Nat) : Prop :=
  let sum := a.toNat + b.toNat + c
  let r := BitVec.ofNat 16 sum
  ∃ t, exec i s = .next t ∧
    Alu16Effect s t rd r (decide (a.toNat % 4096 + b.toNat % 4096 + c > 4095))
      (decide (a.getLsbD 15 = b.getLsbD 15 ∧ r.getLsbD 15 ≠ a.getLsbD 15)) false (decide (sum > 65535))

/-- `i` completes with `a - b - c` in `rd` and the flags of a 16-bit subtraction (42_alu16.md R275, R277). -/
def Subtracts16 (s : State) (i : Instr) (rd : Reg16) (a b : Word) (c : Nat) : Prop :=
  let diff : Int := (a.toNat : Int) - b.toNat - c
  let r := BitVec.ofInt 16 diff
  ∃ t, exec i s = .next t ∧
    Alu16Effect s t rd r (decide (((a.toNat % 4096 : Nat) : Int) - (b.toNat % 4096 : Nat) - c < 0))
      (decide (a.getLsbD 15 ≠ b.getLsbD 15 ∧ r.getLsbD 15 ≠ a.getLsbD 15)) true (decide (diff < 0))

/-- `i` completes with the byte `v` in `rd` and nothing else changed: F only where `rd` is F (43_move_memory_io.md R290). -/
def Moves8 (s : State) (i : Instr) (rd : Reg8) (v : Byte) : Prop :=
  ∃ t, exec i s = .next t ∧ t.get8 rd = v ∧ RegsKept [rd] [] s.regs t.regs ∧ OnlyRegisters s t

/-- `i` completes with the value `v` in `rd` and nothing else changed: F only where `rd` is AF (43_move_memory_io.md
R290). -/
def Moves16 (s : State) (i : Instr) (rd : Reg16) (v : Word) : Prop :=
  ∃ t, exec i s = .next t ∧ t.get16 rd = v ∧ RegsKept rd.halves [rd] s.regs t.regs ∧ OnlyRegisters s t

/-- `i` completes with PC at `v` and nothing else changed. -/
def Jumps (s : State) (i : Instr) (v : Word) : Prop :=
  ∃ t, exec i s = .next t ∧ t.pc = v ∧ RegsKept [] [.pc] s.regs t.regs ∧ OnlyRegisters s t

/-- The move is a memory access of another agent: DMA-READ, DMA-WRITE, a byte access of the environment's string operation,
or the move that says which accesses come (20_memory.md R112, R124; log 6, 13). -/
def State.isAccess (s : State) (m : Move) : Prop :=
  (m = .dma ∧ ∃ op, s.dma.current = some op ∧ (s.dma.i < op.length ∨ s.dma.j < op.length)) ∨
  m = .env .stringByte ∨ (∃ a n, m = .env (.readBytes a n)) ∨ (∃ a bytes, m = .env (.writeBytes a bytes)) ∨
  ∃ a b n, m = .env (.transferBytes a b n)

/-- What happens at the point between two byte accesses of one step of the CPU: each memory access of another agent that the
agenda has next is taken, as the step of that agent, up to the CPU's own turn, which is used up; a step that is no memory access
waits (00_scope.md R18, 20_memory.md R112, R113; log 6); an access that raised is the end (60_exceptions.md R401). -/
def OthersActBetween : Prop :=
  ∀ s : State,
    (s.agenda = [] → s.interleave = .ok () s) ∧
    (∀ rest, s.agenda = .cpu :: rest → s.interleave = .ok () { s with agenda := rest }) ∧
    (∀ rest, s.agenda = .cpuCancel :: rest → s.interleave = .ok () s) ∧
    ∀ m rest, s.agenda = .other m :: rest →
      (¬s.isAccess m → s.interleave = .ok () s) ∧
      (s.isAccess m → ∀ t, step s = .next t →
        (t.faulted = false → s.interleave = t.interleave) ∧ (t.faulted = true → s.interleave = .raised t))

/-- The next turn is the pump's DMA-WRITE of the byte `v` to `a`, and the CPU's turn follows (20_memory.md R124). -/
def State.dmaWritesNext (s : State) (a : Word) (v : Byte) (rest : List Turn) : Prop :=
  s.faulted = false ∧ s.agenda = .other .dma :: .cpu :: rest ∧ ∃ op, s.dma.current = some op ∧ s.dma.i = op.length ∧
    s.dma.j < op.length ∧ s.dma.buffer[s.dma.j]? = some v ∧ a = op.destination + BitVec.ofNat 16 s.dma.j

/-- The two byte reads of a word, the low byte first, with the point between them where other agents may act
(20_memory.md R102, R112). -/
def State.twoReads (s : State) (a : Word) : Res Word :=
  (s.readByte a).bind fun lo s1 =>
    s1.interleave.bind fun _ s2 =>
      (s2.readByte (a + 1)).bind fun hi s3 => .ok (hi ++ lo) s3

/-- The two byte writes of a word, the low byte first, with the point between them where other agents may act
(20_memory.md R103, R105, R112). -/
def State.twoWrites (s : State) (a : Word) (v : Word) : Res Unit :=
  (s.writeStringByte a 2 0 (v.extractLsb' 0 8)).bind fun _ s1 =>
    s1.interleave.bind fun _ s2 => s2.writeStringByte a 2 1 (v.extractLsb' 8 8)

/-- The word `v` is written at `a`, `s` being the state before, `k` what follows and `o` the outcome: with no other agent
between, the low byte and then the high byte are written as byte writes, for every kind of segment and under both policies;
a byte that raises ends it in that WriteFault, the byte before it written (20_memory.md R103, R105, R109, 60_exceptions.md
R404, R407). -/
def WritesWord (s : State) (a v : Word) (o : Host.Outcome State Fault Refusal) (k : State → State) : Prop :=
  (s.agenda = [] → ¬s.writeRaises a → ¬s.writeRaises (a + 1) →
    ∃ u w, s.writesByte a 2 0 (v.extractLsb' 0 8) u ∧ u.writesByte a 2 1 (v.extractLsb' 8 8) w ∧ o = .next (k w)) ∧
  (s.writeRaises a → o = .next (s.raise (.writeFault a))) ∧
  (s.agenda = [] → ¬s.writeRaises a → s.writeRaises (a + 1) →
    ∃ u, s.writesByte a 2 0 (v.extractLsb' 0 8) u ∧ o = .next (u.raise (.writeFault (a + 1))))

/-- The two bytes of `v` stand at `a` and `a + 1`, low byte first (20_memory.md R93). -/
def State.holdsWord (t : State) (a : Word) (v : Word) : Prop :=
  t.byteAt a = v.extractLsb' 0 8 ∧ t.byteAt (a + 1) = v.extractLsb' 8 8

/-- `i` stores the word `v` at `a`: always as the two byte writes, and where both bytes are writable and no other agent has
a turn in between, it completes with the bytes stored and nothing else changed; `WritesWord` for the other segments; a
DMA-WRITE between the two to the byte just stored stays (20_memory.md R113). -/
def StoresWord (s : State) (i : Instr) (a v : Word) : Prop :=
  exec i s = (s.twoWrites a v).outcome ∧
    (s.agenda = [] → s.writable a → s.writable (a + 1) →
      ∃ t, exec i s = .next t ∧ t.holdsWord a v ∧ t.regs = s.regs ∧ OnlyStored s t fun x => x = a ∨ x = a + 1) ∧
    (s.writeRaises a → exec i s = .next (s.raise (.writeFault a))) ∧
    (s.agenda = [] → s.writable a → s.writeRaises (a + 1) →
      ∃ t, exec i s = .next t ∧ t.phase = .faulted (.writeFault (a + 1)) ∧
        t.regs = s.regs ∧ t.byteAt a = v.extractLsb' 0 8 ∧ (∀ x, x ≠ a → t.byteAt x = s.byteAt x) ∧
        (s.cfg.tiled → DropsExactly s t fun x => x = a)) ∧
    WritesWord s a v (exec i s) id ∧
    (∀ b rest, s.dmaWritesNext a b rest → s.writable a → s.writable (a + 1) →
      ∃ t, exec i s = .next t ∧ t.byteAt a = b ∧ t.byteAt (a + 1) = v.extractLsb' 8 8 ∧ t.agenda = rest)

/-- `i` loads the word at `a` into `rd`: always by the two byte reads, and where both bytes are readable and no other agent
has a turn in between, it completes with the word in `rd` and nothing else changed; a DMA-WRITE between the two to the high
byte is seen (20_memory.md R113). -/
def LoadsWord (s : State) (i : Instr) (rd : Reg16) (a : Word) : Prop :=
  exec i s = ((s.twoReads a).bind fun v t => .ok () (t.set16 rd v)).outcome ∧
    (s.agenda = [] → s.readable a → s.readable (a + 1) →
      Moves16 s i rd (s.byteAt (a + 1) ++ s.byteAt a)) ∧
    (s.readRaises a → exec i s = .next (s.raise (.readFault a))) ∧
    (s.agenda = [] → s.readable a → s.readRaises (a + 1) → exec i s = .next (s.raise (.readFault (a + 1)))) ∧
    (∀ b rest, s.dmaWritesNext (a + 1) b rest → s.readable a → s.readable (a + 1) → s.writable (a + 1) →
      ∃ t, exec i s = .next t ∧ t.get16 rd = b ++ s.byteAt a ∧ t.byteAt (a + 1) = b ∧ t.agenda = rest)

/-- `i` loads the byte at `a` into `rd`, for every kind of segment and both policies (20_memory.md R83 to R86, R100). -/
def LoadsByte (s : State) (i : Instr) (rd : Reg8) (a : Word) : Prop :=
  (s.readable a → Moves8 s i rd (s.byteAt a)) ∧
    ((s.segmentAt a).cap.canRead = true → (s.segmentAt a).kind = .peripheral →
      ∀ v rest, s.inputs = v :: rest → exec i s = .next ({ s with inputs := rest }.set8 rd v)) ∧
    ((s.segmentAt a).cap.canRead = true → (s.segmentAt a).kind = .peripheral → s.inputs = [] →
      exec i s = .next ({ s with draws := s.draws + 1 }.set8 rd (Config.draw s.draws))) ∧
    ((s.segmentAt a).cap.canRead = true → (s.segmentAt a).kind = .unused →
      ∀ v, s.cfg.unusedRead = some v → exec i s = .next (s.set8 rd v)) ∧
    ((s.segmentAt a).cap.canRead = true → (s.segmentAt a).kind = .unused → s.cfg.unusedRead = none →
      exec i s = .next ({ s with draws := s.draws + 1 }.set8 rd (Config.draw s.draws))) ∧
    ((s.segmentAt a).cap.canRead = false → s.cfg.readFaultPolicy = .ignore →
      exec i s = .next ({ s with draws := s.draws + 1 }.set8 rd (Config.draw s.draws))) ∧
    (s.readRaises a → exec i s = .next (s.raise (.readFault a)))

/-- `i` stores the byte `v` at `a`, for every kind of segment and both policies (20_memory.md R83 to R86, R101). -/
def StoresByte (s : State) (i : Instr) (a : Word) (v : Byte) : Prop :=
  (s.writable a →
      ∃ t, exec i s = .next t ∧ t.byteAt a = v ∧ t.regs = s.regs ∧ OnlyStored s t fun x => x = a) ∧
    ((s.segmentAt a).cap.canWrite = true → (s.segmentAt a).kind = .peripheral →
      exec i s = .next { s with
        log := s.log ++ [.peripheralWrite (s.segmentAt a).base (a.toNat - (s.segmentAt a).base.toNat) v] }) ∧
    ((s.segmentAt a).cap.canWrite = true → (s.segmentAt a).kind = .unused → exec i s = .next s) ∧
    ((s.segmentAt a).cap.canWrite = false → s.cfg.writeFaultPolicy = .ignore → exec i s = .next s) ∧
    (s.writeRaises a → exec i s = .next (s.raise (.writeFault a)))

/-- The four bytes of a word in memory (30_encoding.md R163). -/
def State.fourBytes (s : State) (p : Word) : List Byte :=
  [s.byteAt p, s.byteAt (p + 1), s.byteAt (p + 2), s.byteAt (p + 3)]

/-- The segments tile the space from address `n` up to its end, none of them empty (20_memory.md R87, R88). -/
def Tiles : Nat → List Segment → Prop
  | n, [] => n = spaceSize
  | n, s :: rest => s.base.toNat = n ∧ 1 ≤ s.length ∧ Tiles (n + s.length) rest

/-- The micro-operation `i` run `n` times, each time on the state the last one left. -/
def execTimes (i : Instr) : Nat → State → Host.Outcome State Fault Refusal
  | 0, s => .next s
  | n + 1, s =>
    match exec i s with
    | .next t => execTimes i n t
    | .fault r => .fault r
    | .refused r => .refused r

/-- `n` steps of the engine, up to the first stop. -/
def steps : Nat → State → Host.Outcome State Fault Refusal
  | 0, s => .next s
  | n + 1, s =>
    match step s with
    | .next t => steps n t
    | .fault r => .fault r
    | .refused r => .refused r

/-- The next turn is the CPU's, named by the agenda with the turns `rest` after it, or the one taken where the agenda names
none (log 5). -/
def State.cpuTurn (s : State) (rest : List Turn) : Prop :=
  s.agenda = .cpu :: rest ∨ (s.agenda = [] ∧ rest = [])

/-- The outcome of a step that runs micro-operation `k` of a block (60_exceptions.md R442). -/
def runsUop (b : Block) (k : Nat) (x : Host.Outcome State Fault Refusal) : Host.Outcome State Fault Refusal :=
  match x with
  | .next t => .next (t.afterUop b k)
  | .fault r => .fault r
  | .refused r => .refused r

/-- The environment's move `m` begins the string operation `x` of `n` bytes, unless one is in progress (log 13) or `n` is
above 0x10000 (log 25). -/
def BeginsString (s : State) (more : List Turn) (m : EnvMove) (n : Nat) (x : EnvJob) : Prop :=
  s.agenda = .other (.env m) :: more →
    (s.envJob.busy = false → n ≤ 0x10000 → step s = .next { s with agenda := more, envJob := x }) ∧
    (s.envJob.busy = true ∨ 0x10000 < n → step s = .next { s with agenda := more })

/-! ### The invariant of the engine -/

/-- The entry holds a block the cache takes and the ranges derived from it (20_memory.md R131). -/
def CacheEntry.wf (c : Config) (e : CacheEntry) : Prop :=
  e.block.wf c ∧ e.ranges = rangesOf e.block.address e.block.length

/-- The phase names a block of the cache, and in Execute a micro-operation of it (10_state.md R50). -/
def Phase.wf (c : Config) : Phase → Prop
  | .execute b k => b.wf c ∧ k < b.body.length
  | .post b => b.wf c
  | .fetch | .awaitVector | .stopped | .faulted _ => True

/-- The CPU agent has left its loop or waits: it executes no block (60_exceptions.md R423). -/
def Phase.idle : Phase → Bool
  | .awaitVector | .stopped | .faulted _ => true
  | .fetch | .execute _ _ | .post _ => false

/-- The operations are within 10_state.md R47, the DMA pump's indices stay within the operation, the buffer holds what was
read, and the locked ranges are the operation's (20_memory.md R123 to R126). -/
def Dma.wf (d : Dma) : Prop :=
  (∀ op ∈ d.queue, op.wf = true) ∧
  match d.current with
  | none => d.buffer = [] ∧ d.locked = []
  | some op =>
    op.wf = true ∧ d.i ≤ op.length ∧ d.j ≤ op.length ∧ d.buffer.length = d.i ∧ d.locked = op.lockedRanges ∧
      (d.j = 0 ∨ d.i = op.length)

/-- The environment's string operation is of at most 0x10000 bytes and has a byte for every byte it still writes (log 13,
25). -/
def EnvJob.wf (x : EnvJob) : Prop :=
  x.readLength ≤ spaceSize ∧ x.writeLength ≤ spaceSize ∧ x.readCount ≤ x.readLength ∧ x.writeCount ≤ x.writeLength ∧
    x.writeLength ≤ x.buffer.length + (x.readLength - x.readCount)

/-- What every state of a run satisfies. -/
structure State.Inv (s : State) : Prop where
  /-- The memory has its canonical form (10_state.md R46). -/
  memory : s.mem.wf s.cfg = true
  /-- At most one entry for a start address, by rising address (10_state.md R48). -/
  keys : s.cache.Pairwise fun x y => x.block.address.toNat < y.block.address.toNat
  /-- Every entry is derived from its block (20_memory.md R131). -/
  entries : ∀ e ∈ s.cache, e.wf s.cfg
  /-- The running block is one the cache takes (30_encoding.md R161). -/
  running : s.phase.wf s.cfg
  /-- IM is 0, 1 or 2 (10_state.md R44). -/
  mode : s.regs.im ≠ 3
  /-- IFF1 is set only where IFF2 is (10_state.md R43). -/
  enable : s.regs.iff1 = true → s.regs.iff2 = true
  /-- An accepted vector is held exactly while Interrupting (60_exceptions.md R422, R424). -/
  vector : s.ic.icVector.isSome = s.ic.interrupting
  /-- The acknowledgement is given only when halted and not executing (10_state.md R49). -/
  acknowledged : s.ic.haltAck = true → s.ic.halted = true ∧ s.phase.idle = true
  /-- A CPU that waits has acknowledged (60_exceptions.md R443 a). -/
  waiting : s.phase = .awaitVector → s.ic.haltAck = true
  /-- A vector is handed over only to a CPU that has acknowledged (60_exceptions.md R424). -/
  slot : s.ic.vectorSlot.isSome = true → s.ic.haltAck = true
  /-- Halted peripherals have a task that resumes them (60_exceptions.md R444). -/
  peripherals : s.periphHalted = true → s.ic.resumeTasks ≠ []
  /-- The pump's bookkeeping (20_memory.md R123 to R126). -/
  pump : s.dma.wf
  /-- The environment's string operation (log 13). -/
  job : s.envJob.wf
  /-- The error of a Faulted engine is the last event (60_exceptions.md R401). -/
  failed : ∀ e, s.phase = .faulted e → s.log.getLast? = some (.fatal e)

end Sys2Proof.Machine
end

