-- ==== Sys2Proof/Certificates/Slice0/Obligations.lean ====
section
/-! DEFINITION. The statements for the provers. A rule is named by its file and number; a choice the spec marks as its own
decision is named D<n>; the model's own choices are named by their log entry. Where a statement is about a step of an agent,
the agenda's first turn says whose step it is (the model's schedule, log 5). -/

open Sys2Proof Sys2Proof.Machine

/-! ### Encoding -/

/-- 30_encoding.md R162 to R169, R176: the word of every micro-operation decodes to it, with every operand, and so does its
memory image whatever follows it. -/
def Obligations.DecodingAnEncodedMicroOp : Prop :=
  ∀ i : Instr, i.wf = true →
    decodeWord (encode i) = .ok i ∧ ∀ rest, decodeBytes (encodeBytes i ++ rest) = .ok (i, rest)

/-- 30_encoding.md R169, R176: a word that decodes is the word of the micro-operation it decodes to, and that one is well
formed: every word has at most one reading and no bit of it is ignored. -/
def Obligations.EncodingADecodedWord : Prop :=
  ∀ (w : UopWord) (i : Instr), decodeWord w = .ok i → i.wf = true ∧ encode i = w

/-- 95_test_vectors.md 2.1 with the rules it names: words written out from the encoding, one or two of each family. -/
def Obligations.WordsOfTheSpecDecode : Prop :=
  decodeWord 0x00000000 = .ok .nop ∧ decodeWord 0x06000002 = .ok (.im 2) ∧
  decodeWord 0x1070007F = .ok (.ldi8 .a 0x7F) ∧ decodeWord 0x11208000 = .ok (.ldi16 .hl 0x8000) ∧
  decodeWord 0x12070000 = .ok (.mov8 .b .a) ∧ decodeWord 0x14720000 = .ok (.ldr8 .a .hl) ∧
  decodeWord 0x15780000 = .ok (.str8 .pc .i) ∧ decodeWord 0x1B02FFFF = .ok (.sta16 0xFFFF .hl) ∧
  decodeWord 0x1D400000 = .ok (.pop .af) ∧ decodeWord 0x1F120004 = .ok (.xfern .de .hl 4) ∧
  decodeWord 0x20870000 = .ok (.inp .i .pc) ∧ decodeWord 0x40700000 = .ok (.add .a .b) ∧
  decodeWord 0x51700000 = .ok (.daa .a) ∧ decodeWord 0x52070007 = .ok (.bit 7 .a) ∧
  decodeWord 0x58530000 = .ok (.add16 .ix .sp) ∧ decodeWord 0x661000FF = .ok (.xori .c 0xFF) ∧
  decodeWord 0x81F00100 = .ok (.jpc 15 0x0100) ∧ decodeWord 0x83000100 = .ok (.call 0x0100)

/-- 30_encoding.md R168, R169: exactly the unassigned operation codes are refused as such; a term with a forbidden
destination or mode 3 has a word that is refused, mode 3 by that name. -/
def Obligations.IllegalWordsAreRefused : Prop :=
  (∀ w : UopWord, decodeWord w = .error .unassignedOp ↔
    let op := w.toNat / 0x1000000
    (0x09 ≤ op ∧ op ≤ 0x0F) ∨ (0x22 ≤ op ∧ op ≤ 0x3F) ∨ op = 0x47 ∨ (0x53 ≤ op ∧ op ≤ 0x57) ∨
      (0x5C ≤ op ∧ op ≤ 0x5F) ∨ (0x67 ≤ op ∧ op ≤ 0x7F) ∨ 0x86 ≤ op) ∧
  decodeWord 0x06000003 = .error .modeThree ∧
  (∀ i : Instr, i.wf = false → i ≠ .im 3 → decodeWord (encode i) = .error .forbiddenDestination)

/-! ### Registers -/

/-- 10_state.md R35 (its pairing is D5): a pair is its two halves, a write of the pair writes both, a write of a half changes
the pair. -/
def Obligations.PairsAreTheirTwoHalves : Prop :=
  ∀ (x : Reg16) (hi lo : Reg8), x.halves = [hi, lo] → ∀ (s : State) (v : Word) (b : Byte),
    s.get16 x = s.get8 hi ++ s.get8 lo ∧
    (s.set16 x v).get8 hi = v.extractLsb' 8 8 ∧ (s.set16 x v).get8 lo = v.extractLsb' 0 8 ∧
    (s.set8 hi b).get16 x = b ++ s.get8 lo ∧ (s.set8 lo b).get16 x = s.get8 hi ++ b

/-! ### 8-bit arithmetic and logic -/

/-- 40_alu8.md R201 to R206, with the choices the rules mark (D7): sum, flags and frame of ADD, ADDI, ADC, ADCI. -/
def Obligations.AdditionsOfBytes : Prop :=
  ∀ (s : State) (rd rs : Reg8) (imm : Byte), rd ≠ .f →
    Adds8 s (.add rd rs) rd (s.get8 rd) (s.get8 rs) 0 ∧
    Adds8 s (.addi rd imm) rd (s.get8 rd) imm 0 ∧
    Adds8 s (.adc rd rs) rd (s.get8 rd) (s.get8 rs) s.carry ∧
    Adds8 s (.adci rd imm) rd (s.get8 rd) imm s.carry

/-- 40_alu8.md R207 to R212, with the choices the rules mark (D8): difference, flags and frame of SUB, SUBI, SBC, SBCI. -/
def Obligations.SubtractionsOfBytes : Prop :=
  ∀ (s : State) (rd rs : Reg8) (imm : Byte), rd ≠ .f →
    Subtracts8 s (.sub rd rs) rd (s.get8 rd) (s.get8 rs) 0 ∧
    Subtracts8 s (.subi rd imm) rd (s.get8 rd) imm 0 ∧
    Subtracts8 s (.sbc rd rs) rd (s.get8 rd) (s.get8 rs) s.carry ∧
    Subtracts8 s (.sbci rd imm) rd (s.get8 rd) imm s.carry

/-- 40_alu8.md R213 to R221, with the choices the rules mark (D10): result, flags and frame of AND, OR, XOR and their
immediate forms. -/
def Obligations.LogicOfBytes : Prop :=
  ∀ (s : State) (rd rs : Reg8) (imm : Byte), rd ≠ .f →
    Logic8 s (.and rd rs) rd (s.get8 rd &&& s.get8 rs) true ∧
    Logic8 s (.andi rd imm) rd (s.get8 rd &&& imm) true ∧
    Logic8 s (.or rd rs) rd (s.get8 rd ||| s.get8 rs) false ∧
    Logic8 s (.ori rd imm) rd (s.get8 rd ||| imm) false ∧
    Logic8 s (.xor rd rs) rd (s.get8 rd ^^^ s.get8 rs) false ∧
    Logic8 s (.xori rd imm) rd (s.get8 rd ^^^ imm) false

/-- 40_alu8.md R222 to R225, with the choices the rules mark (D9): INC and DEC keep Carry. -/
def Obligations.IncrementAndDecrement : Prop :=
  ∀ (s : State) (rd : Reg8), rd ≠ .f →
    (∃ t, exec (.inc rd) s = .next t ∧
      Alu8Effect s t rd (BitVec.ofNat 8 ((s.get8 rd).toNat + 1)) (decide ((s.get8 rd).toNat % 16 = 15))
        (decide (s.get8 rd = 0x7F)) false (s.flag .c)) ∧
    (∃ t, exec (.dec rd) s = .next t ∧
      Alu8Effect s t rd (BitVec.ofNat 8 ((s.get8 rd).toNat + 255)) (decide ((s.get8 rd).toNat % 16 = 0))
        (decide (s.get8 rd = 0x80)) true (s.flag .c))

/-- 41_alu_rotate_bcd_bit.md R240 to R254, with the choices the rules mark (D11, D12): every bit of the result, the bit moved
out, flags and frame of RL, RR, RLC, RRC, SLA, SRA, SRL. -/
def Obligations.RotatesAndShifts : Prop :=
  ∀ (s : State) (rd : Reg8), rd ≠ .f →
    let a := s.get8 rd
    Shifts8 s (.rl rd) rd (fun k => if k = 0 then s.flag .c else a.getLsbD (k - 1)) (a.getLsbD 7) ∧
    Shifts8 s (.rr rd) rd (fun k => if k = 7 then s.flag .c else a.getLsbD (k + 1)) (a.getLsbD 0) ∧
    Shifts8 s (.rlc rd) rd (fun k => if k = 0 then a.getLsbD 7 else a.getLsbD (k - 1)) (a.getLsbD 7) ∧
    Shifts8 s (.rrc rd) rd (fun k => if k = 7 then a.getLsbD 0 else a.getLsbD (k + 1)) (a.getLsbD 0) ∧
    Shifts8 s (.sla rd) rd (fun k => if k = 0 then false else a.getLsbD (k - 1)) (a.getLsbD 7) ∧
    Shifts8 s (.sra rd) rd (fun k => if k = 7 then a.getLsbD 7 else a.getLsbD (k + 1)) (a.getLsbD 0) ∧
    Shifts8 s (.srl rd) rd (fun k => if k = 7 then false else a.getLsbD (k + 1)) (a.getLsbD 0)

/-- 41_alu_rotate_bcd_bit.md R255, R256, with the choices the rule marks (D13): the correction, its sign, flags and frame of
DAA. -/
def Obligations.DecimalAdjustOfABcdByte : Prop :=
  ∀ (s : State) (rd : Reg8), rd ≠ .f →
    let a := s.get8 rd
    let hi := decide (a.toNat > 0x99) || s.flag .c
    let lo := decide (a.toNat % 16 > 9) || s.flag .h
    let corr := (if hi then 0x60 else 0) + (if lo then 0x06 else 0)
    let r := if s.flag .n then BitVec.ofInt 8 ((a.toNat : Int) - (corr : Nat)) else BitVec.ofNat 8 (a.toNat + corr)
    ∃ t, exec (.daa rd) s = .next t ∧
      Alu8Effect s t rd r (a.getLsbD 4 != r.getLsbD 4) (evenOnes r) (s.flag .n) hi

/-- 41_alu_rotate_bcd_bit.md R257, R258 (D14; both values of BITTEST_SIGN, 93_implementation_defined.md U22, log 18): BIT
writes F only. -/
def Obligations.BitTestWritesFlagsOnly : Prop :=
  ∀ (s : State) (n : BitVec 3) (rs : Reg8),
    let a := s.get8 rs
    let zero := !a.getLsbD n.toNat
    let sign := match s.cfg.bitTestSign with
      | .document => decide (n = 7) && zero
      | .conventional => decide (n = 7) && a.getLsbD 7
    ∃ t, exec (.bit n rs) s = .next t ∧
      t.flagsAre sign zero (a.getLsbD 5) true (a.getLsbD 3) zero false (s.flag .c) ∧
      RegsKept [.f] [] s.regs t.regs ∧ OnlyRegisters s t

/-- 40_alu8.md R199: PV of every 8-bit and 42_alu16.md R270 of every 16-bit addition and subtraction tells that the exact
signed result is not the result read as a signed number; a subtraction undoes an addition. -/
def Obligations.OverflowIsSignedOverflow : Prop :=
  (∀ (s t : State) (rd rs : Reg8) (imm : Byte), rd ≠ .f → ∀ (i : Instr) (b : Byte) (c : Nat),
    ((i, b, c) ∈ [(Instr.add rd rs, s.get8 rs, 0), (.addi rd imm, imm, 0), (.adc rd rs, s.get8 rs, s.carry),
        (.adci rd imm, imm, s.carry)] → exec i s = .next t →
      t.flag .pv = decide ((t.get8 rd).toInt ≠ (s.get8 rd).toInt + b.toInt + c)) ∧
    ((i, b, c) ∈ [(Instr.sub rd rs, s.get8 rs, 0), (.subi rd imm, imm, 0), (.sbc rd rs, s.get8 rs, s.carry),
        (.sbci rd imm, imm, s.carry)] → exec i s = .next t →
      t.flag .pv = decide ((t.get8 rd).toInt ≠ (s.get8 rd).toInt - b.toInt - c))) ∧
  (∀ (s t : State) (rd rs : Reg16), rd ≠ .af → rd ≠ .pc → ∀ (i : Instr) (c : Nat),
    ((i, c) ∈ [(Instr.add16 rd rs, 0), (.adc16 rd rs, s.carry)] → exec i s = .next t →
      t.flag .pv = decide ((t.get16 rd).toInt ≠ (s.get16 rd).toInt + (s.get16 rs).toInt + c)) ∧
    ((i, c) ∈ [(Instr.sub16 rd rs, 0), (.sbc16 rd rs, s.carry)] → exec i s = .next t →
      t.flag .pv = decide ((t.get16 rd).toInt ≠ (s.get16 rd).toInt - (s.get16 rs).toInt - c))) ∧
  (∀ (s t u : State) (rd : Reg8) (imm : Byte), rd ≠ .f →
    exec (.addi rd imm) s = .next t → exec (.subi rd imm) t = .next u → u.get8 rd = s.get8 rd)

/-- 41_alu_rotate_bcd_bit.md R242, R246: eight circular rotates restore the byte, nine rotates through Carry restore the byte
and the Carry. -/
def Obligations.RotatesComeRoundAgain : Prop :=
  ∀ (s : State) (rd : Reg8), rd ≠ .f →
    (∃ t, execTimes (.rlc rd) 8 s = .next t ∧ t.get8 rd = s.get8 rd) ∧
    (∃ t, execTimes (.rrc rd) 8 s = .next t ∧ t.get8 rd = s.get8 rd) ∧
    (∃ t, execTimes (.rl rd) 9 s = .next t ∧ t.get8 rd = s.get8 rd ∧ t.flag .c = s.flag .c) ∧
    (∃ t, execTimes (.rr rd) 9 s = .next t ∧ t.get8 rd = s.get8 rd ∧ t.flag .c = s.flag .c)

/-! ### 16-bit arithmetic -/

/-- 42_alu16.md R270 to R278 (D15): results, flags and frame of ADD16, ADC16, SUB16, SBC16. -/
def Obligations.ArithmeticOfWords : Prop :=
  ∀ (s : State) (rd rs : Reg16), rd ≠ .af → rd ≠ .pc →
    Adds16 s (.add16 rd rs) rd (s.get16 rd) (s.get16 rs) 0 ∧
    Adds16 s (.adc16 rd rs) rd (s.get16 rd) (s.get16 rs) s.carry ∧
    Subtracts16 s (.sub16 rd rs) rd (s.get16 rd) (s.get16 rs) 0 ∧
    Subtracts16 s (.sbc16 rd rs) rd (s.get16 rd) (s.get16 rs) s.carry

/-! ### Moves, loads and stores, stack, block transfer, ports -/

/-- 43_move_memory_io.md R290 to R294: LDI8, MOV8 to any 8-bit register, LDI16, MOV16 to any 16-bit register but PC. -/
def Obligations.MovesBetweenRegisters : Prop :=
  (∀ (s : State) (rd rs : Reg8) (imm : Byte),
    Moves8 s (.ldi8 rd imm) rd imm ∧ Moves8 s (.mov8 rd rs) rd (s.get8 rs)) ∧
  (∀ (s : State) (rd rs : Reg16) (imm : Word), rd ≠ .pc →
    Moves16 s (.ldi16 rd imm) rd imm ∧ Moves16 s (.mov16 rd rs) rd (s.get16 rs))

/-- 43_move_memory_io.md R300, R304 with 20_memory.md R83 to R86, R100 (D19, D20; a draw is a free value, log 7): LDR8, LDA8
on every kind of segment and under both policies. -/
def Obligations.LoadsOfBytes : Prop :=
  ∀ (s : State) (rd : Reg8) (rs : Reg16) (addr : Word),
    LoadsByte s (.ldr8 rd rs) rd (s.get16 rs) ∧ LoadsByte s (.lda8 rd addr) rd addr

/-- 43_move_memory_io.md R302, R306 with 20_memory.md R93, R102, R112, R113 (log 6): LDR16, LDA16; and what happens at the
point between two byte accesses of one step of the CPU (00_scope.md R18), which every equation with `interleave` in it goes
through. -/
def Obligations.LoadsOfWords : Prop :=
  OthersActBetween ∧ ∀ (s : State) (rd rs : Reg16) (addr : Word), rd ≠ .pc →
    LoadsWord s (.ldr16 rd rs) rd (s.get16 rs) ∧ LoadsWord s (.lda16 rd addr) rd addr

/-- 43_move_memory_io.md R301, R305 with 20_memory.md R83 to R86, R101 (D19, D20, D21): STR8, STA8 on every kind of segment
and under both policies. -/
def Obligations.StoresOfBytes : Prop :=
  ∀ (s : State) (rd : Reg16) (rs : Reg8) (addr : Word),
    StoresByte s (.str8 rd rs) (s.get16 rd) (s.get8 rs) ∧ StoresByte s (.sta8 addr rs) addr (s.get8 rs)

/-- 43_move_memory_io.md R303, R307 with 20_memory.md R93, R103, R109, R112, R113 (log 6): STR16, STA16. What
happens at the point between the two byte writes is stated in `LoadsOfWords`. -/
def Obligations.StoresOfWords : Prop :=
  ∀ (s : State) (rd rs : Reg16) (addr : Word),
    StoresWord s (.str16 rd rs) (s.get16 rd) (s.get16 rs) ∧ StoresWord s (.sta16 addr rs) addr (s.get16 rs)

/-- 43_move_memory_io.md R310 with 10_state.md R39 (D40): PUSH of any 16-bit register, SP included, whose value before the
decrement is pushed, with the point between the two byte writes where other agents' accesses may fall (20_memory.md R112; log 6).
After a WriteFault SP is decremented. -/
def Obligations.PushStoresBelowTheStack : Prop :=
  ∀ (s : State) (rs : Reg16),
    exec (.push rs) s = ((s.setSp (s.sp - 2)).twoWrites (s.sp - 2) (s.get16 rs)).outcome ∧
    (s.agenda = [] → s.writable (s.sp - 2) → s.writable (s.sp - 1) →
      ∃ t, exec (.push rs) s = .next t ∧ t.sp = s.sp - 2 ∧ t.holdsWord (s.sp - 2) (s.get16 rs) ∧
        RegsKept [] [.sp] s.regs t.regs ∧ OnlyStored s t fun x => x = s.sp - 2 ∨ x = s.sp - 1) ∧
    (s.writeRaises (s.sp - 2) →
      exec (.push rs) s = .next ((s.setSp (s.sp - 2)).raise (.writeFault (s.sp - 2)))) ∧
    WritesWord (s.setSp (s.sp - 2)) (s.sp - 2) (s.get16 rs) (exec (.push rs) s) id

/-- 43_move_memory_io.md R311 with 10_state.md R39 (D40): POP of any 16-bit register but PC; POP SP leaves the popped value.
The word is two byte reads (20_memory.md R93, R102), with the point between them where other agents' accesses may fall
(20_memory.md R112; log 6). After a ReadFault nothing is written. -/
def Obligations.PopLoadsFromTheStack : Prop :=
  ∀ (s : State) (rd : Reg16), rd ≠ .pc →
    exec (.pop rd) s =
      ((s.twoReads s.sp).bind fun v t => .ok () ((t.setSp (t.sp + 2)).set16 rd v)).outcome ∧
    (s.agenda = [] → s.readable s.sp → s.readable (s.sp + 1) →
      ∃ t, exec (.pop rd) s = .next t ∧ t.get16 rd = s.byteAt (s.sp + 1) ++ s.byteAt s.sp ∧
        (rd ≠ .sp → t.sp = s.sp + 2) ∧ RegsKept rd.halves [rd, .sp] s.regs t.regs ∧ OnlyRegisters s t) ∧
    (s.readRaises s.sp → exec (.pop rd) s = .next (s.raise (.readFault s.sp))) ∧
    (s.agenda = [] → s.readable s.sp → s.readRaises (s.sp + 1) →
      exec (.pop rd) s = .next (s.raise (.readFault (s.sp + 1))))

/-- 43_move_memory_io.md R315 with 20_memory.md R106, R112 (log 6): XFER copies one byte; a read fault writes nothing and is
the one reported (60_exceptions.md R408). -/
def Obligations.TransferOfAByte : Prop :=
  ∀ (s : State) (rd rs : Reg16),
    exec (.xfer rd rs) s = ((s.readByte (s.get16 rs)).bind fun v t =>
      t.interleave.bind fun _ u => u.writeByte (s.get16 rd) v).outcome ∧
    (s.agenda = [] → s.readable (s.get16 rs) → s.writable (s.get16 rd) →
      ∃ t, exec (.xfer rd rs) s = .next t ∧ t.byteAt (s.get16 rd) = s.byteAt (s.get16 rs) ∧
        t.regs = s.regs ∧ OnlyStored s t fun x => x = s.get16 rd) ∧
    (s.readRaises (s.get16 rs) → exec (.xfer rd rs) s = .next (s.raise (.readFault (s.get16 rs)))) ∧
    (s.agenda = [] → s.readable (s.get16 rs) → s.writeRaises (s.get16 rd) →
      exec (.xfer rd rs) s = .next (s.raise (.writeFault (s.get16 rd))))

/-- 43_move_memory_io.md R316 with 20_memory.md R104, R105, R107, R109 (D22, D32; log 6): XFERN copies the bytes the source
held before, also where the runs overlap or wrap; what a fault in the read phase and in the write phase leaves, in memory and
in the cache (R140). -/
def Obligations.TransferOfABlock : Prop :=
  ∀ (s : State) (rd rs : Reg16) (len : Word),
    let source := s.get16 rs
    let target := s.get16 rd
    (exec (.xfern rd rs 0) s = .next s) ∧
    (len ≠ 0 → exec (.xfern rd rs len) s = ((State.readBytes len.toNat source s).bind fun bytes t =>
      t.interleave.bind fun _ u => u.writeBytes target bytes).outcome) ∧
    (s.agenda = [] → s.readableRun source len.toNat → s.writableRun target len.toNat →
      ∃ t, exec (.xfern rd rs len) s = .next t ∧
        (∀ j, j < len.toNat → t.byteAt (target + BitVec.ofNat 16 j) = s.byteAt (source + BitVec.ofNat 16 j)) ∧
        t.regs = s.regs ∧ OnlyStored s t fun x => ∃ j, j < len.toNat ∧ x = target + BitVec.ofNat 16 j) ∧
    (∀ k, k < len.toNat → s.agenda = [] → s.readableRun source k → s.readRaises (source + BitVec.ofNat 16 k) →
      exec (.xfern rd rs len) s = .next (s.raise (.readFault (source + BitVec.ofNat 16 k)))) ∧
    (∀ k, k < len.toNat → s.agenda = [] → s.readableRun source len.toNat → s.writableRun target k →
      s.writeRaises (target + BitVec.ofNat 16 k) →
      ∃ t, exec (.xfern rd rs len) s = .next t ∧ t.phase = .faulted (.writeFault (target + BitVec.ofNat 16 k)) ∧
        (∀ j, j < k → t.byteAt (target + BitVec.ofNat 16 j) = s.byteAt (source + BitVec.ofNat 16 j)) ∧
        t.regs = s.regs ∧ (∀ x, (∀ j, j < k → x ≠ target + BitVec.ofNat 16 j) → t.byteAt x = s.byteAt x) ∧
        (s.cfg.tiled → DropsExactly s t fun x => ∃ j, j < k ∧ x = target + BitVec.ofNat 16 j))

/-- 43_move_memory_io.md R320, R321, R325, R326 (D36; the answer of the environment, or a free value where it holds none
ready, log 7): IN and OUT. -/
def Obligations.PortReadsAndWrites : Prop :=
  (∀ (s : State) (rd : Reg8) (rs : Reg16),
    (∀ v rest, s.inputs = v :: rest →
      ∃ t, exec (.inp rd rs) s = .next t ∧ t.get8 rd = v ∧ RegsKept [rd] [] s.regs t.regs ∧
        t = { s with regs := t.regs, inputs := rest, log := s.log ++ [.readPort (s.get16 rs) v] } ∧
        ∀ a, t.byteAt a = s.byteAt a) ∧
    (s.inputs = [] →
      ∃ t, exec (.inp rd rs) s = .next t ∧ t.get8 rd = Config.draw s.draws ∧ RegsKept [rd] [] s.regs t.regs ∧
        t = { s with regs := t.regs, draws := s.draws + 1,
                     log := s.log ++ [.readPort (s.get16 rs) (Config.draw s.draws)] } ∧
        ∀ a, t.byteAt a = s.byteAt a)) ∧
  (∀ (s : State) (rd : Reg16) (rs : Reg8),
    ∃ t, exec (.out rd rs) s = .next t ∧ t = { s with log := s.log ++ [.writePort (s.get16 rd) (s.get8 rs)] } ∧
      ∀ a, t.byteAt a = s.byteAt a)

/-! ### System and control transfer -/

/-- 44_control_system.md R330 to R333: NOP, END, HALT, HALTP do nothing at execution. -/
def Obligations.NothingAtExecution : Prop :=
  ∀ s : State, exec .nop s = .next s ∧ exec .endBlock s = .next s ∧ exec .halt s = .next s ∧ exec .haltp s = .next s

/-- 44_control_system.md R334 to R336 (D37, D39): EI, DI, IM write the flip-flops and the mode, and nothing else. -/
def Obligations.InterruptEnableAndMode : Prop :=
  ∀ s : State,
    (∃ t, exec .ei s = .next t ∧ t = { s with regs := { s.regs with iff1 := true, iff2 := true } } ∧
      t.interruptsEnabled = true ∧ ∀ a, t.byteAt a = s.byteAt a) ∧
    (∃ t, exec .di s = .next t ∧ t = { s with regs := { s.regs with iff1 := false, iff2 := false } } ∧
      t.interruptsEnabled = false ∧ ∀ a, t.byteAt a = s.byteAt a) ∧
    (∀ n, n ≠ 3 → ∃ t, exec (.im n) s = .next t ∧ t = { s with regs := { s.regs with im := n } } ∧
      ∀ a, t.byteAt a = s.byteAt a)

/-- 44_control_system.md R337: EXAF. -/
def Obligations.ExafSelectsTheOtherBank : Prop :=
  encode .exaf = 0x07000000 ∧
  ∀ s : State, ∃ t, exec .exaf s = .next t ∧ t = { s with regs := { s.regs with afSel := !s.regs.afSel } } ∧
    t.get8 .a = s.regs.afAlt.a ∧ t.get8 .f = s.regs.afAlt.f ∧ t.regs.afAlt = s.regs.af ∧
    (∀ x, x ≠ .a → x ≠ .f → t.get8 x = s.get8 x) ∧ (∀ a, t.byteAt a = s.byteAt a) ∧ exec .exaf t = .next s

/-- 44_control_system.md R338: EXX. -/
def Obligations.ExxSelectsTheOtherBank : Prop :=
  encode .exx = 0x08000000 ∧
  ∀ s : State, ∃ t, exec .exx s = .next t ∧ t = { s with regs := { s.regs with gpSel := !s.regs.gpSel } } ∧
    t.get8 .b = s.regs.gpAlt.b ∧ t.get8 .c = s.regs.gpAlt.c ∧ t.get8 .d = s.regs.gpAlt.d ∧
    t.get8 .e = s.regs.gpAlt.e ∧ t.get8 .h = s.regs.gpAlt.h ∧ t.get8 .l = s.regs.gpAlt.l ∧
    t.get16 .bc = s.regs.gpAlt.b ++ s.regs.gpAlt.c ∧ t.get16 .de = s.regs.gpAlt.d ++ s.regs.gpAlt.e ∧
    t.get16 .hl = s.regs.gpAlt.h ++ s.regs.gpAlt.l ∧ t.regs.gpAlt = s.regs.gp ∧
    (∀ x, x ∈ [Reg8.a, .f, .i, .r] → t.get8 x = s.get8 x) ∧
    (∀ y, y ∈ [Reg16.af, .ix, .iy, .sp, .pc] → t.get16 y = s.get16 y) ∧ ∀ a, t.byteAt a = s.byteAt a

/-- 44_control_system.md R339 to R342 with 30_encoding.md R167: JP, JPR, and JPC on each of its 16 conditions. -/
def Obligations.JumpsWriteThePc : Prop :=
  ∀ (s : State) (addr : Word) (rs : Reg16) (cc : BitVec 4),
    Jumps s (.jp addr) addr ∧ Jumps s (.jpr rs) (s.get16 rs) ∧
    ((s.get8 .f).getLsbD (cc.toNat % 8) = decide (cc.toNat ≥ 8) → Jumps s (.jpc cc addr) addr) ∧
    ((s.get8 .f).getLsbD (cc.toNat % 8) ≠ decide (cc.toNat ≥ 8) → exec (.jpc cc addr) s = .next s)

/-- 44_control_system.md R343 with 10_state.md R39 (D40): CALL pushes PC, the address after the block, and jumps, with
the point between the two byte writes where other agents' accesses may fall (20_memory.md R112; log 6); after a WriteFault PC is
not changed and SP is decremented. -/
def Obligations.CallPushesThePc : Prop :=
  ∀ (s : State) (addr : Word),
    exec (.call addr) s =
      (((s.setSp (s.sp - 2)).twoWrites (s.sp - 2) s.pc).bind fun _ t => .ok () (t.setPc addr)).outcome ∧
    (s.agenda = [] → s.writable (s.sp - 2) → s.writable (s.sp - 1) →
      ∃ t, exec (.call addr) s = .next t ∧ t.pc = addr ∧ t.sp = s.sp - 2 ∧ t.holdsWord (s.sp - 2) s.pc ∧
        RegsKept [] [.pc, .sp] s.regs t.regs ∧ OnlyStored s t fun x => x = s.sp - 2 ∨ x = s.sp - 1) ∧
    (s.writeRaises (s.sp - 2) →
      exec (.call addr) s = .next ((s.setSp (s.sp - 2)).raise (.writeFault (s.sp - 2)))) ∧
    WritesWord (s.setSp (s.sp - 2)) (s.sp - 2) s.pc (exec (.call addr) s) fun t => t.setPc addr

/-- 44_control_system.md R344, R347 with 10_state.md R39 (D39, D40): RET and RETN pop PC, by two byte reads (20_memory.md R93,
R102) with the point between them where other agents' accesses may fall (20_memory.md R112; log 6); RETN copies IFF2 into IFF1;
after a ReadFault nothing changes. -/
def Obligations.ReturnsPopThePc : Prop :=
  ∀ s : State,
    exec .ret s = ((s.twoReads s.sp).bind fun v t => .ok () ((t.setSp (t.sp + 2)).setPc v)).outcome ∧
    exec .retn s = ((s.twoReads s.sp).bind fun v t =>
      .ok () (((t.setSp (t.sp + 2)).setPc v).setIff t.regs.iff2 t.regs.iff2)).outcome ∧
    (s.agenda = [] → s.readable s.sp → s.readable (s.sp + 1) →
      (∃ t, exec .ret s = .next t ∧ t.pc = s.byteAt (s.sp + 1) ++ s.byteAt s.sp ∧ t.sp = s.sp + 2 ∧
        RegsKept [] [.pc, .sp] s.regs t.regs ∧ OnlyRegisters s t) ∧
      (∃ t g, exec .retn s = .next t ∧ t.pc = s.byteAt (s.sp + 1) ++ s.byteAt s.sp ∧ t.sp = s.sp + 2 ∧
        RegsKept [] [.pc, .sp] s.regs g ∧ t.regs = { g with iff1 := s.regs.iff2 } ∧ OnlyRegisters s t)) ∧
    (s.readRaises s.sp →
      exec .ret s = .next (s.raise (.readFault s.sp)) ∧ exec .retn s = .next (s.raise (.readFault s.sp))) ∧
    (s.agenda = [] → s.readable s.sp → s.readRaises (s.sp + 1) →
      exec .ret s = .next (s.raise (.readFault (s.sp + 1))) ∧
        exec .retn s = .next (s.raise (.readFault (s.sp + 1))))

/-- 44_control_system.md R339 "CALL pushes the return address, RET pops it", and PUSH and POP likewise (43_move_memory_io.md
R310, R311), with no other agent between (log 6). -/
def Obligations.ReturnUndoesCall : Prop :=
  ∀ (s : State) (addr : Word) (rs : Reg16), s.agenda = [] →
    s.writable (s.sp - 2) → s.writable (s.sp - 1) → s.readable (s.sp - 2) → s.readable (s.sp - 1) →
    (∃ t u, exec (.call addr) s = .next t ∧ t.pc = addr ∧ exec .ret t = .next u ∧ u.pc = s.pc ∧ u.sp = s.sp) ∧
    (rs ≠ .pc → ∃ t u, exec (.push rs) s = .next t ∧ exec (.pop rs) t = .next u ∧
      u.get16 rs = s.get16 rs ∧ u.sp = s.sp)

/-! ### The fetch-execute loop -/

/-- 60_exceptions.md R442 (D35): a CPU turn in phase Execute runs the next micro-operation of the body and then moves on; this
is what `step` adds around `exec`. Where the agenda is empty that the turn is the CPU's is the model's choice (log 5, DESIGN
CHOICE). The cycles of a block that names no count are a free value (log 22). -/
def Obligations.StepRunsTheNextMicroOp : Prop :=
  (∀ (s : State) (b : Block) (k : Nat) (i : Instr),
    s.started = true → s.phase = .execute b k → b.body[k]? = some i →
    (s.agenda = [] → step s = runsUop b k (exec i s)) ∧
    (∀ rest, s.agenda = .cpu :: rest → step s = runsUop b k (exec i { s with agenda := rest }))) ∧
  (∀ (t : State) (b : Block) (k : Nat), t.faulted = false →
    (k + 1 < b.body.length → t.afterUop b k = { t with phase := .execute b (k + 1) }) ∧
    (¬k + 1 < b.body.length → t.afterUop b k =
      { t with
        lastCycles := b.staticCycles + b.cyclesUsed.getD (Config.cycles t.draws)
        totalCycles := t.totalCycles + (b.staticCycles + b.cyclesUsed.getD (Config.cycles t.draws))
        draws := if b.cyclesUsed = none then t.draws + 1 else t.draws
        phase := .post b })) ∧
  (∀ (t : State) (b : Block) (k : Nat), t.faulted = true → t.afterUop b k = t)

/-- 60_exceptions.md R441, R442 with 30_encoding.md R170, R175, for the decoder RD0: where the bytes at PC decode to a
micro-operation, the fetch step forms a block that begins with it and the CPU's next step runs it; a terminator is a block of
its own. The CPU's turns are named by the agenda or taken by default (log 5). -/
def Obligations.BytesAtThePcAreRun : Prop :=
  ∀ (s : State) (rest : List Turn) (i : Instr), s.cfg.decoder = .rd0 → s.started = true → s.cpuTurn rest →
    s.phase = .fetch → s.cancel = false → s.cache.find s.pc = none → s.readableRun s.pc 4 →
    decodeBytes (s.fourBytes s.pc) = .ok (i, []) →
    (∀ t, step s = .next t → t.faulted = false →
      ∃ b, t.phase = .execute b 0 ∧ b.address = s.pc ∧ b.body[0]? = some i ∧ t.agenda = rest ∧
        t.pc = s.pc + BitVec.ofNat 16 (4 * b.body.length) ∧
        ∀ more, t.cpuTurn more → step t = runsUop b 0 (exec i { t with agenda := more })) ∧
    (i.isTerminator = true →
      ∃ t, step s = .next t ∧ t.phase = .execute (blockOf s.pc [i]) 0 ∧ t.agenda = rest ∧ t.pc = s.pc + 4 ∧
        RegsKept [] [.pc] s.regs t.regs ∧ (∀ a, t.byteAt a = s.byteAt a) ∧
        ∀ more, t.cpuTurn more → step t = runsUop (blockOf s.pc [i]) 0 (exec i { t with agenda := more }))

/-- 60_exceptions.md R441 with 20_memory.md R131, R135 and 30_encoding.md R175 (D16, D17, D27): CPU-FETCH, in a turn the agenda
names or by default (log 5), with any decoder (log 12; a limit of 0 counts as 1, log 23; the limit holds for every decoder's
block, log 29; its halt bits are as given, log 31), what it keeps where the decoder raises, the address recorded for a block
that is not admitted (log 28), and the ReadFault that RD0 meets at an unreadable byte. -/
def Obligations.FetchTakesABlock : Prop :=
  ∀ (s : State) (rest : List Turn), s.started = true → s.cpuTurn rest → s.phase = .fetch →
    (s.cancel = true → step s = .next { s with agenda := rest, phase := .stopped }) ∧
    (s.cancel = false → ∀ e, s.cache.find s.pc = some e →
      ∃ c, step s = .next { s with agenda := rest, cache := c, phase := .execute e.block 0, regs :=
          { s.regs with pc := e.block.address + BitVec.ofNat 16 e.block.length } } ∧
        c.find s.pc = some { e with accessCount := e.accessCount + 1 } ∧ ∀ a, a ≠ s.pc → c.find a = s.cache.find a) ∧
    (s.cancel = false → s.cache.find s.pc = none →
      ∀ b t, { s with agenda := rest }.decode s.cfg.decoder s.pc = .ok b t →
      b.address = s.pc ∧
      (b.wf s.cfg → ∃ c, step s = .next { t with cache := c, phase := .execute b 0, regs :=
          { t.regs with pc := s.pc + BitVec.ofNat 16 b.length } } ∧
        c.find s.pc = some { block := b, ranges := rangesOf s.pc b.length, accessCount := 0 } ∧
        ∀ a, a ≠ s.pc → c.find a = s.cache.find a) ∧
      (¬b.wf s.cfg → step s = .next (t.raise (.unsupportedInstruction s.pc)) ∧ t.cache = s.cache ∧ t.regs = s.regs)) ∧
    (s.cancel = false → s.cache.find s.pc = none →
      ∀ t, { s with agenda := rest }.decode s.cfg.decoder s.pc = .raised t →
      step s = .next t ∧ t.cache = s.cache ∧ t.regs = s.regs ∧ t.mem = s.mem ∧
        ∃ e, t.phase = .faulted e ∧ e.ofDecoder ∧ t.log = s.log ++ [.fatal e]) ∧
    (s.cancel = false → s.cache.find s.pc = none → s.cfg.decoder = .rd0 → ∀ k j, k < max 1 s.cfg.maxBlockUops → j < 4 →
      s.readableRun s.pc (4 * k + j) →
      (∀ m, m < k → ∃ i, decodeBytes (s.fourBytes (s.pc + BitVec.ofNat 16 (4 * m))) = .ok (i, []) ∧
        i.isTerminator = false) →
      s.readRaises (s.pc + BitVec.ofNat 16 (4 * k + j)) →
      step s = .next ({ s with agenda := rest }.raise (.readFault (s.pc + BitVec.ofNat 16 (4 * k + j)))))

/-- 30_encoding.md R161, R170 to R174 (D2, D46): what RD0 returns. That a limit of 0 micro-operations counts as 1 is log 23
(DESIGN CHOICE). -/
def Obligations.ReferenceDecoderFormsBlocks : Prop :=
  ∀ (s t : State) (p : Word) (b : Block), s.decodeBlock p = .ok b t →
    b.address = p ∧ b.length = 4 * b.body.length ∧ b.staticCycles = b.body.length ∧ b.cyclesUsed = some 0 ∧
    1 ≤ b.body.length ∧ b.body.length ≤ max 1 s.cfg.maxBlockUops ∧
    (∀ k i, b.body[k]? = some i → i.wf = true ∧ (i.isTerminator = true → k + 1 = b.body.length)) ∧
    (b.body.length = max 1 s.cfg.maxBlockUops ∨ ∃ i, b.body.getLast? = some i ∧ i.isTerminator = true) ∧
    (b.haltsCpu = true ↔ b.body.getLast? = some .halt ∨ b.body.getLast? = some .haltp) ∧
    (b.haltsPeripherals = true ↔ b.body.getLast? = some .haltp) ∧
    (s.readableRun p (4 * b.body.length) → t = s ∧ ∀ k i, b.body[k]? = some i →
      decodeBytes (s.fourBytes (p + BitVec.ofNat 16 (4 * k))) = .ok (i, []))

/-- 60_exceptions.md R406: an illegal word in the block being formed raises in the fetch step, with its own address; nothing is
inserted, PC keeps the fetch address and no micro-operation has run. The decoder is RD0, the CPU's turn named by the agenda or
taken by default (log 5); that a limit of 0 micro-operations counts as 1 is log 23 (DESIGN CHOICE), that the step after the
error is a fault is log 10 (DEDUCED). -/
def Obligations.IllegalWordStopsTheFetch : Prop :=
  ∀ (s : State) (rest : List Turn) (k : Nat), s.cfg.decoder = .rd0 → s.started = true → s.cpuTurn rest →
    s.phase = .fetch → s.cancel = false → s.cache.find s.pc = none → k < max 1 s.cfg.maxBlockUops →
    s.readableRun s.pc (4 * k + 4) →
    (∀ j, j < k → ∃ i, decodeBytes (s.fourBytes (s.pc + BitVec.ofNat 16 (4 * j))) = .ok (i, []) ∧
      i.isTerminator = false) →
    (∃ e, decodeBytes (s.fourBytes (s.pc + BitVec.ofNat 16 (4 * k))) = .error e) →
    ∃ t, step s = .next t ∧
      t = { s with agenda := rest }.raise (.unsupportedInstruction (s.pc + BitVec.ofNat 16 (4 * k))) ∧
      t.phase = .faulted (.unsupportedInstruction (s.pc + BitVec.ofNat 16 (4 * k))) ∧
      t.cache = s.cache ∧ t.regs = s.regs ∧ (∀ a, t.byteAt a = s.byteAt a) ∧
      step t = .fault (.engineFaulted (.unsupportedInstruction (s.pc + BitVec.ofNat 16 (4 * k))))

/-- 60_exceptions.md R443, R444 (D30, D47): CPU-POST in each of its cases, in a turn the agenda names or by default (log 5). -/
def Obligations.PostStepHaltsOrGoesOn : Prop :=
  ∀ (s : State) (rest : List Turn) (b : Block), s.started = true → s.cpuTurn rest → s.phase = .post b →
    (b.haltsCpu = false → s.ic.halted = false ∨ s.ic.interrupting = false →
      step s = .next { s with
        agenda := rest, ic := { s.ic with halted := false, haltAck := false }, phase := .fetch }) ∧
    (b.haltsCpu = false → s.ic.halted = true → s.ic.interrupting = true →
      step s = .next { s with agenda := rest, ic := { s.ic with haltAck := true }, phase := .awaitVector }) ∧
    (b.haltsCpu = true → b.haltsPeripherals = false →
      step s = .next { s with
        agenda := rest, ic := { s.ic with halted := true, haltAck := true }, phase := .awaitVector }) ∧
    (b.haltsCpu = true → b.haltsPeripherals = true →
      step s = .next { s with
        agenda := rest
        ic := { s.ic with halted := true, haltAck := true, resumeTasks := s.ic.resumeTasks ++ [.signalResume] }
        periphHalted := true, log := s.log ++ [.signalHalt], phase := .awaitVector })

/-! ### Interrupts -/

/-- 60_exceptions.md R422 (D29): IC-ACCEPT, with IFF1 clear and with IFF1 set. -/
def Obligations.RequestIsAcceptedOrDiscarded : Prop :=
  ∀ (s : State) (v : Word) (rest : List Word) (more : List Turn), s.faulted = false →
    s.agenda = .other .ic :: more → s.ic.interrupting = false → s.ic.reqQueue = v :: rest →
    (s.regs.iff1 = false → step s = .next { s with agenda := more, ic := { s.ic with reqQueue := rest } }) ∧
    (s.regs.iff1 = true → step s = .next { s with
      agenda := more
      regs := { s.regs with iff1 := false }
      ic := { s.ic with reqQueue := rest, interrupting := true, halted := true, icVector := some v } })

/-- 60_exceptions.md R423 to R425 (D29, D30): IC-HANDOFF waits for the acknowledgement, hands the vector over and performs
every resume task once, in order. That it waits for an empty slot is log 16 (DEDUCED from R424 and 70_reset_and_hazards.md
R524), that a turn it cannot take changes nothing is log 11. -/
def Obligations.HandoffDeliversTheVector : Prop :=
  ∀ (s : State) (more : List Turn), s.faulted = false → s.agenda = .other .ic :: more → s.ic.interrupting = true →
    (s.ic.haltAck = false → step s = .next { s with agenda := more }) ∧
    (s.ic.vectorSlot ≠ none → step s = .next { s with agenda := more }) ∧
    (s.ic.haltAck = true → s.ic.vectorSlot = none → step s = .next { s with
      agenda := more
      ic := { s.ic with vectorSlot := s.ic.icVector, icVector := none, interrupting := false, resumeTasks := [] }
      log := s.log ++ s.ic.resumeTasks.map fun _ => .signalResume
      periphHalted := if s.ic.resumeTasks = [] then s.periphHalted else false })

/-- 60_exceptions.md R446 (D17): CPU-WAKE, the interrupt entry, in a turn the agenda names or by default (log 5): what is
pushed, where the PC goes, what is left alone, which cached blocks the push drops (20_memory.md R110, R140); for every agenda
the two byte writes with the point between them where other agents may act (20_memory.md R112; log 6); the push on every kind
of segment and under both policies, and the WriteFault of either byte (60_exceptions.md R404, R407). That with `cancel` also
set the CPU's turn is CPU-WAKE and not CPU-CANCEL is log 19 (DESIGN CHOICE). -/
def Obligations.InterruptEntryPushesThePc : Prop :=
  ∀ (s : State) (rest : List Turn) (v : Word), s.started = true → s.cpuTurn rest → s.phase = .awaitVector →
    s.ic.vectorSlot = some v →
    let entered := State.setSp { s with agenda := rest, ic := { s.ic with vectorSlot := none } } (s.sp - 2)
    let atVector := fun t : State =>
      { t with regs := { t.regs with pc := v }, ic := { t.ic with halted := false, haltAck := false }, phase := .fetch }
    step s = ((entered.twoWrites (s.sp - 2) s.pc).bind fun _ t => .ok () (atVector t)).outcome ∧
    (rest = [] → s.writable (s.sp - 2) → s.writable (s.sp - 1) →
      ∃ t, step s = .next t ∧ t.pc = v ∧ t.sp = s.sp - 2 ∧ t.holdsWord (s.sp - 2) s.pc ∧ t.phase = .fetch ∧
        t.ic = { s.ic with vectorSlot := none, halted := false, haltAck := false } ∧
        RegsKept [] [.pc, .sp] s.regs t.regs ∧
        t = { s with agenda := [], regs := t.regs, mem := t.mem, cache := t.cache, ic := t.ic, phase := .fetch } ∧
        (∀ a, a ≠ s.sp - 2 → a ≠ s.sp - 1 → t.byteAt a = s.byteAt a) ∧ t.cache.Sublist s.cache ∧
        (s.cfg.tiled → DropsExactly s t fun x => x = s.sp - 2 ∨ x = s.sp - 1)) ∧
    WritesWord entered (s.sp - 2) s.pc (step s) atVector

/-- 60_exceptions.md R420, R421: `halt()` and `interrupt(vector)`; CPU-POST (R443) calls `halt()` in a turn the agenda names or
by default, the latter being the model's choice (log 5, DESIGN CHOICE). -/
def Obligations.HaltAndInterruptRequests : Prop :=
  (∀ x : Ic, x.halt = { x with halted := true } ∧ (x.halted = true → x.halt = x)) ∧
  (∀ (s : State) (more : List Turn), s.faulted = false → s.agenda = .other (.env .halt) :: more →
    step s = .next { s with agenda := more, ic := s.ic.halt }) ∧
  (∀ (s t : State) (rest : List Turn) (b : Block), s.started = true → s.cpuTurn rest → s.phase = .post b →
    b.haltsCpu = true → step s = .next t → t.ic.halted = true) ∧
  (∀ (s t : State) (more : List Turn), s.faulted = false → s.agenda = .other .ic :: more →
    s.ic.interrupting = false → s.ic.reqQueue ≠ [] → s.regs.iff1 = true → step s = .next t → t.ic.halted = true) ∧
  (∀ (s : State) (v : Word) (more : List Turn), s.faulted = false → s.agenda = .other (.env (.interrupt v)) :: more →
    (s.ic.accepting = true →
      step s = .next { s with agenda := more, ic := { s.ic with reqQueue := s.ic.reqQueue ++ [v] } }) ∧
    (s.ic.accepting = false → step s = .next { s with agenda := more }))

/-- 60_exceptions.md R422, R424, R446 together, the example of R451: a waiting CPU with interrupts enabled, an empty slot, no
cancellation, one request and the turns IC, IC, CPU (log 5) is at the vector with the old PC on the stack and interrupts
disabled. -/
def Obligations.InterruptIsServed : Prop :=
  ∀ (s : State) (v : Word), s.started = true → s.phase = .awaitVector → s.regs.iff1 = true →
    s.ic.interrupting = false → s.ic.haltAck = true → s.ic.vectorSlot = none → s.cancel = false → s.ic.reqQueue = [v] →
    s.agenda = [.other .ic, .other .ic, .cpu] → s.writable (s.sp - 2) → s.writable (s.sp - 1) →
    ∃ t, steps 3 s = .next t ∧ t.pc = v ∧ t.sp = s.sp - 2 ∧
      t.holdsWord (s.sp - 2) s.pc ∧ t.phase = .fetch ∧ t.regs.iff1 = false ∧ t.regs.iff2 = s.regs.iff2 ∧
      t.ic.halted = false ∧ t.ic.interrupting = false ∧ t.ic.vectorSlot = none ∧ t.ic.reqQueue = [] ∧
      (∀ x, t.get8 x = s.get8 x) ∧ ∀ a, a ≠ s.sp - 2 → a ≠ s.sp - 1 → t.byteAt a = s.byteAt a

/-- 60_exceptions.md R449, R450 (D42; log 11, 19): cancellation stops the CPU at its next fetch and while it waits; a stopped
CPU, and one that waits with nothing to wake it, changes nothing. -/
def Obligations.CancellationStopsTheCpu : Prop :=
  ∀ (s : State) (more : List Turn),
    (s.faulted = false → s.agenda = .other (.env .cancel) :: more →
      step s = .next { s with agenda := more, cancel := true }) ∧
    (s.phase = .awaitVector → s.cancel = true → s.agenda = .cpuCancel :: more →
      step s = .next { s with agenda := more, phase := .stopped }) ∧
    (s.started = true → s.phase = .fetch → s.cancel = true → s.agenda = .cpu :: more →
      step s = .next { s with agenda := more, phase := .stopped }) ∧
    (s.started = true → s.phase = .awaitVector → s.cancel = true → s.ic.vectorSlot = none → s.agenda = .cpu :: more →
      step s = .next { s with agenda := more, phase := .stopped }) ∧
    (s.started = true → s.phase = .awaitVector → s.cancel = false → s.ic.vectorSlot = none → s.agenda = .cpu :: more →
      step s = .next { s with agenda := more }) ∧
    (s.phase = .stopped → s.agenda = .cpu :: more → step s = .next { s with agenda := more })

/-! ### Fatal errors -/

/-- 60_exceptions.md R401 (D32; log 10): a raised error is logged and makes the phase Faulted, all else stays, and then no
agent has a step, whatever the agenda. -/
def Obligations.FatalErrorStopsEveryAgent : Prop :=
  (∀ (s : State) (e : FatalError), s.raise e = { s with log := s.log ++ [.fatal e], phase := .faulted e }) ∧
  (∀ (s : State) (e : FatalError), s.phase = .faulted e → step s = .fault (.engineFaulted e)) ∧
  (∀ (s : State) (m : Move), s.faulted = true → s.moveStep m = s)

/-! ### DMA -/

/-- 20_memory.md R123: step DMA-TAKE. That a turn of the pump with nothing queued is spent and changes nothing is log 11 (DESIGN
CHOICE). -/
def Obligations.DmaTakesTheHead : Prop :=
  ∀ (s : State) (more : List Turn), s.faulted = false → s.agenda = .other .dma :: more → s.dma.current = none →
    (∀ op rest, s.dma.queue = op :: rest → step s = .next { s with
      agenda := more
      dma := { s.dma with
        queue := rest, current := some op, locked := op.lockedRanges, buffer := [], i := 0, j := 0 } }) ∧
    (s.dma.queue = [] → step s = .next { s with agenda := more })

/-- 20_memory.md R124, R125 with R83 to R86, R105, R140 (D23, D24; a draw is a free value, log 7): steps DMA-READ, DMA-WRITE,
DMA-DONE on every kind of segment and under both policies, what each write drops from the cache, and the faults. -/
def Obligations.DmaMovesOneByteAStep : Prop :=
  ∀ (s : State) (more : List Turn) (op : DmaOp), s.faulted = false → s.agenda = .other .dma :: more →
    s.dma.current = some op →
    (s.dma.i < op.length → ¬s.readRaises (op.source + BitVec.ofNat 16 s.dma.i) →
      ∃ v u, s.reads (op.source + BitVec.ofNat 16 s.dma.i) v u ∧
        step s = .next { u with agenda := more, dma := { s.dma with
          buffer := s.dma.buffer ++ [v], i := s.dma.i + 1 } }) ∧
    (s.dma.i < op.length → s.readRaises (op.source + BitVec.ofNat 16 s.dma.i) →
      step s = .next ({ s with agenda := more }.raise (.readFault (op.source + BitVec.ofNat 16 s.dma.i)))) ∧
    (∀ v, s.dma.i = op.length → s.dma.j < op.length → s.dma.buffer[s.dma.j]? = some v →
      ¬s.writeRaises (op.destination + BitVec.ofNat 16 s.dma.j) →
      ∃ u, s.writesByte op.destination op.length s.dma.j v u ∧
        step s = .next { u with agenda := more, dma := { s.dma with j := s.dma.j + 1 } }) ∧
    (s.dma.i = op.length → s.dma.j < op.length → s.writeRaises (op.destination + BitVec.ofNat 16 s.dma.j) →
      step s = .next ({ s with agenda := more }.raise (.writeFault (op.destination + BitVec.ofNat 16 s.dma.j)))) ∧
    (s.dma.i = op.length → s.dma.j = op.length →
      step s = .next { s with agenda := more, dma := { s.dma with current := none, locked := [], buffer := [] } })

/-- 20_memory.md R107, R123 to R125: from the enqueued operation to its end the pump, running alone, copies what the source
held before, also where the runs overlap or wrap, and changes no other byte and no register. -/
def Obligations.DmaCopiesTheBlock : Prop :=
  ∀ (s : State) (op : DmaOp) (rest : List DmaOp), s.faulted = false → s.dma.current = none →
    s.dma.queue = op :: rest → op.length ≤ 0x10000 →
    s.readableRun op.source op.length → s.writableRun op.destination op.length →
    s.agenda = List.replicate (2 * op.length + 2) (.other .dma) →
    ∃ t, steps (2 * op.length + 2) s = .next t ∧
      (∀ k, k < op.length →
        t.byteAt (op.destination + BitVec.ofNat 16 k) = s.byteAt (op.source + BitVec.ofNat 16 k)) ∧
      (∀ a, (∀ k, k < op.length → a ≠ op.destination + BitVec.ofNat 16 k) → t.byteAt a = s.byteAt a) ∧
      t.regs = s.regs ∧ t.dma.queue = rest ∧ t.dma.current = none ∧ t.agenda = []

/-! ### The environment -/

/-- 20_memory.md R121, R127, 60_exceptions.md R430, R440 (D23, D24; log 8, 17; that the environment starts the disposals is
log 30; an operation that 10_state.md R47 does not admit is none, log 25): `run`, enqueueing, disposal and the drain timeouts;
20_memory.md R104, R105, R107, R112, R140 with R83 to R86: the environment's reads, writes and transfers of strings, one at a
time and one byte access a step (log 13), on every kind of segment and under both policies (the answer of a Peripheral is the
head of the answers held ready, else a draw, which is a free value, log 7), what each write drops from the cache, and the
faults. -/
def Obligations.EnvironmentMovesTakeEffect : Prop :=
  ∀ (s : State) (more : List Turn), s.faulted = false →
    (s.agenda = .other (.env .run) :: more → step s = .next { s with agenda := more, started := true }) ∧
    (∀ op, s.agenda = .other (.env (.enqueue op)) :: more →
      (s.dma.closed = false → op.wf = true →
        step s = .next { s with agenda := more, dma := { s.dma with queue := s.dma.queue ++ [op] } }) ∧
      (s.dma.closed = true ∨ op.wf = false → step s = .next { s with agenda := more })) ∧
    (s.agenda = .other (.env .disposeDma) :: more →
      step s = .next { s with agenda := more, dma := { s.dma with closed := true } }) ∧
    (s.agenda = .other (.env .dmaDrainTimeout) :: more →
      (s.dma.closed = true → s.dma.queue ≠ [] → step s = .next ({ s with agenda := more }.raise .dmaDrainTimeout)) ∧
      (s.dma.closed = false ∨ s.dma.queue = [] → step s = .next { s with agenda := more })) ∧
    (s.agenda = .other (.env .disposeIc) :: more →
      step s = .next { s with agenda := more, ic := { s.ic with accepting := false } }) ∧
    (s.agenda = .other (.env .interruptDrainTimeout) :: more →
      (s.ic.accepting = false → s.ic.reqQueue ≠ [] →
        step s = .next ({ s with agenda := more }.raise .interruptDrainTimeout)) ∧
      (s.ic.accepting = true ∨ s.ic.reqQueue = [] → step s = .next { s with agenda := more })) ∧
    (∀ x n, BeginsString s more (.readBytes x n) n
      { readFrom := x, readLength := n, readCount := 0, writeTo := 0, writeLength := 0, writeCount := 0, buffer := [] }) ∧
    (∀ y bytes, BeginsString s more (.writeBytes y bytes) bytes.length
      { readFrom := 0, readLength := 0, readCount := 0, writeTo := y, writeLength := bytes.length, writeCount := 0,
        buffer := bytes }) ∧
    (∀ x y n, BeginsString s more (.transferBytes x y n) n
      { readFrom := x, readLength := n, readCount := 0, writeTo := y, writeLength := n, writeCount := 0, buffer := [] }) ∧
    (s.agenda = .other (.env .stringByte) :: more →
      (s.envJob.readCount < s.envJob.readLength →
        (¬s.readRaises (s.envJob.readFrom + BitVec.ofNat 16 s.envJob.readCount) →
          ∃ v u, s.reads (s.envJob.readFrom + BitVec.ofNat 16 s.envJob.readCount) v u ∧
            step s = .next { u with agenda := more, envJob := { s.envJob with
              buffer := s.envJob.buffer ++ [v], readCount := s.envJob.readCount + 1 } }) ∧
        (s.readRaises (s.envJob.readFrom + BitVec.ofNat 16 s.envJob.readCount) →
          step s = .next ({ s with agenda := more }.raise
            (.readFault (s.envJob.readFrom + BitVec.ofNat 16 s.envJob.readCount))))) ∧
      (s.envJob.readCount = s.envJob.readLength → s.envJob.writeCount < s.envJob.writeLength →
        (∀ v, s.envJob.buffer[s.envJob.writeCount]? = some v →
          ¬s.writeRaises (s.envJob.writeTo + BitVec.ofNat 16 s.envJob.writeCount) →
          ∃ u, s.writesByte s.envJob.writeTo s.envJob.writeLength s.envJob.writeCount v u ∧
            step s = .next { u with agenda := more, envJob := { s.envJob with
              writeCount := s.envJob.writeCount + 1 } }) ∧
        (s.writeRaises (s.envJob.writeTo + BitVec.ofNat 16 s.envJob.writeCount) →
          step s = .next ({ s with agenda := more }.raise
            (.writeFault (s.envJob.writeTo + BitVec.ofNat 16 s.envJob.writeCount))))) ∧
      (s.envJob.readCount = s.envJob.readLength → s.envJob.writeCount = s.envJob.writeLength →
        step s = .next { s with agenda := more }))

/-! ### Address space and cache -/

/-- 20_memory.md R137: `invalidate`, as the environment's move, removes exactly the entries one of whose ranges intersects the
bytes, and changes nothing else. -/
def Obligations.InvalidateRemovesTheIntersecting : Prop :=
  (∀ (s : State) (a : Word) (n : Nat) (more : List Turn), s.faulted = false →
    s.agenda = .other (.env (.invalidate a n)) :: more →
    ∃ c, step s = .next { s with agenda := more, cache := c } ∧
      (∀ e, e ∈ c ↔ e ∈ s.cache ∧
        ∀ r ∈ e.ranges, ∀ w ∈ rangesOf a n, ¬max r.low w.low ≤ min r.high w.high) ∧
      (n = 0 → c = s.cache)) ∧
  (∀ e : CacheEntry, e.ranges = rangesOf 0xFFF0 32 → ∀ s : State, e ∉ (s.invalidate 0x0005 1).cache)

/-- 20_memory.md R105, R110, R111, R137, R140 (D21): after a string is written, with no other agent between, exactly the
entries that cover no RAM byte of it are still cached: no stale block of RAM is left and no other block is lost. -/
def Obligations.StoresInvalidateWhatTheyTouch : Prop :=
  ∀ (s t : State) (a : Word) (bytes : List Byte), s.cfg.tiled → s.agenda = [] → bytes.length ≤ 0x10000 →
    s.writableRun a bytes.length → s.writeBytes a bytes = .ok () t →
    ∀ e, e ∈ t.cache ↔ e ∈ s.cache ∧ ∀ j, j < bytes.length →
      (s.segmentAt (a + BitVec.ofNat 16 j)).kind = .ram → e.covers (a + BitVec.ofNat 16 j) = false

/-- 20_memory.md R80, R81 (D28): `Ranges` covers exactly the bytes of the run, in one or two closed ranges. -/
def Obligations.RangesCoverTheRun : Prop :=
  (∀ (a : Word) (n : Nat), 1 ≤ n → n ≤ 0x10000 →
    (rangesOf a n).length ∈ [1, 2] ∧
    (∀ r ∈ rangesOf a n, r.low ≤ r.high ∧ r.high ≤ 0xFFFF) ∧
    ∀ x, x < 0x10000 →
      ((∃ r ∈ rangesOf a n, r.low ≤ x ∧ x ≤ r.high) ↔ ∃ k, k < n ∧ x = (a.toNat + k) % 0x10000)) ∧
  (∀ a, rangesOf a 0 = []) ∧ (∀ a n, 0x10000 < n → rangesOf a n = rangesOf a 0x10000) ∧
  rangesOf 0xFFF0 32 = [⟨0xFFF0, 0xFFFF⟩, ⟨0x0000, 0x000F⟩]

/-- 20_memory.md R131, R135, R139 (D27): a block once compiled is found again, whatever the compile function, and not
compiled again; the environment's `getOrCompile` with any compile function (its errors are fatal, log 14; which block is
admitted and the address recorded, log 23, 28, 29, 31); the sweep keeps exactly the entries used since the last one. That a turn
of the sweeper where it is not enabled is spent and changes nothing is log 11 (DESIGN CHOICE). -/
def Obligations.CompiledBlockIsFoundAgain : Prop :=
  (∀ (s t : State) (f g : CompileFn) (a : Word) (b : Block), s.getOrCompile f a = .ok b t →
    ∃ c, t.getOrCompile g a = .ok b { t with cache := c } ∧ ∀ x, x ≠ a → c.find x = t.cache.find x) ∧
  (∀ (s : State) (f : CompileFn) (a : Word) (more : List Turn), s.faulted = false →
    s.agenda = .other (.env (.getOrCompile a f)) :: more →
    (∀ e, s.cache.find a = some e → ∃ c, step s = .next { s with agenda := more, cache := c } ∧
      c.find a = some { e with accessCount := e.accessCount + 1 } ∧ ∀ x, x ≠ a → c.find x = s.cache.find x) ∧
    (s.cache.find a = none → ∀ b t, { s with agenda := more }.compile f a = .ok b t →
      (b.wf s.cfg → ∃ c, step s = .next { t with cache := c } ∧
        c.find a = some { block := b, ranges := rangesOf a b.length, accessCount := 0 } ∧
        ∀ x, x ≠ a → c.find x = s.cache.find x) ∧
      (¬b.wf s.cfg → step s = .next (t.raise (.unsupportedInstruction a)) ∧ t.cache = s.cache)) ∧
    (s.cache.find a = none → ∀ t, { s with agenda := more }.compile f a = .raised t →
      step s = .next t ∧ t.cache = s.cache ∧ t.faulted = true)) ∧
  (∀ (s : State) (a p : Word) (d : Decoder) (b : Block),
    s.compile (.decoder d) a = s.decode d a ∧
    s.compile (.answers b) a = .ok { b with address := a } s ∧
    s.compile (.raises p) a = .raised (s.raise (.unsupportedInstruction p))) ∧
  (∀ (s : State) (more : List Turn), s.faulted = false → s.agenda = .other .sweep :: more →
    (s.cfg.sweepEnabled = false → step s = .next { s with agenda := more }) ∧
    (s.cfg.sweepEnabled = true → ∃ c, step s = .next { s with agenda := more, cache := c } ∧
      ∀ e, e ∈ c ↔ ∃ x ∈ s.cache, x.accessCount ≠ 0 ∧ e = { x with accessCount := 0 }))

/-- 20_memory.md R87, R88, R89, R91 (D18, D41): validation finds no fault in a list exactly if, sorted, it tiles the space, and
construction none exactly if also all initial contents of RAM and ROM have their segment's length; a list that tiles is
already sorted; then every address lies in the one segment the lookup finds. -/
def Obligations.ConstructionAcceptsTilings : Prop :=
  (∀ l : List Segment, checkTiling 0 (sortSegments l) = none ↔ Tiles 0 (sortSegments l)) ∧
  (∀ l : List Segment, configError l = none ↔ Tiles 0 (sortSegments l) ∧
    ∀ g ∈ l, g.kind.backed = true → ∀ bytes, g.init = some bytes → bytes.length = g.length) ∧
  (∀ l : List Segment, Tiles 0 l → sortSegments l = l) ∧
  (∀ l : List Segment, Tiles 0 l → ∀ a : Word, ∃ g ∈ l, floorSegment l a.toNat = some g ∧
    g.base.toNat ≤ a.toNat ∧ a.toNat < g.base.toNat + g.length ∧
    ∀ h ∈ l, h.base.toNat ≤ a.toNat → a.toNat < h.base.toNat + h.length → h = g) ∧
  configError [⟨.ram, 0x2000, 0x1000, .both, none⟩, ⟨.ram, 0x0000, 0x1000, .both, none⟩] =
    some (.addressGap 0x1000 0x2000)

/-! ### Reset -/

/-- 10_state.md R60, 70_reset_and_hazards.md R501 (D33): what reset leaves, for every configuration and whatever the registers
it leaves unspecified hold (their zero in `State.reset` is log 1, the default configuration log 4, that `RAM_INIT` is one byte
for all log 26); and a configuration that does not validate never leaves reset (20_memory.md R90; the fault is log 10). -/
def Obligations.ResetLeavesTheStatedValues : Prop :=
  (∀ (c : Config) (d : PowerOn), configError c.segments = none →
    let s := State.resetWith c d
    s.pc = 0 ∧ s.get8 .i = 0 ∧ s.get8 .r = 0 ∧ s.regs.iff1 = false ∧ s.regs.iff2 = false ∧ s.regs.im = 0 ∧
    s.regs.gpSel = false ∧ s.regs.afSel = false ∧ s.dma.queue = [] ∧ s.dma.closed = false ∧ s.dma.current = none ∧
    s.dma.buffer = [] ∧ s.dma.locked = [] ∧ s.cache = [] ∧ s.ic.halted = false ∧ s.ic.interrupting = false ∧
    s.ic.haltAck = false ∧ s.ic.reqQueue = [] ∧ s.ic.icVector = none ∧ s.ic.vectorSlot = none ∧
    s.ic.resumeTasks = [] ∧ s.ic.accepting = true ∧ s.phase = .fetch ∧ s.started = false ∧ s.cancel = false ∧
    s.lastCycles = 0 ∧ s.totalCycles = 0 ∧ s.periphHalted = false ∧ s.log = [] ∧
    (∀ a bytes v, (s.segmentAt a).kind.backed = true → (s.segmentAt a).init = some bytes →
      bytes[a.toNat - (s.segmentAt a).base.toNat]? = some v → s.byteAt a = v) ∧
    (∀ a v, (s.segmentAt a).kind.backed = true → (s.segmentAt a).init = none → c.ramInit = some v → s.byteAt a = v)) ∧
  (∀ (c : Config) (d : PowerOn) (e : FatalError), configError c.segments = some e →
    (State.resetWith c d).log = [.fatal e] ∧ step (State.resetWith c d) = .fault (.engineFaulted e)) ∧
  State.reset = State.resetWith Config.default PowerOn.zero

/-! ### Invariants -/

/-- Every step of every agent keeps the invariant of the engine: the canonical form of memory, the shape of the cache
(20_memory.md R131, R135), cached and running blocks that 30_encoding.md R161 admits (log 29), IM never 3 (10_state.md R44), the
controller's bits, DMA operations within 10_state.md R47 (log 25), and the last event of a Faulted engine. -/
def Obligations.EveryStepKeepsTheInvariant : Prop :=
  ∀ s t : State, s.Inv → step s = .next t → t.Inv

/-- The engine satisfies the invariant after reset, for every configuration and whatever the unspecified registers hold. -/
def Obligations.ResetMeetsTheInvariant : Prop :=
  (∀ (c : Config) (d : PowerOn), (State.resetWith c d).Inv) ∧ State.reset.Inv

/-- 10_state.md R30, R43, 70_reset_and_hazards.md R504: no step changes the configuration; an agent other than the CPU changes
no register but IFF1, which only the interrupt controller changes and only to clear it. -/
def Obligations.OtherAgentsLeaveTheRegisters : Prop :=
  (∀ s t : State, step s = .next t → t.cfg = s.cfg) ∧
  (∀ (s : State) (m : Move), (s.moveStep m).regs = s.regs ∨
    (m = .ic ∧ s.regs.iff1 = true ∧ (s.moveStep m).regs = { s.regs with iff1 := false }))

/-- 60_exceptions.md R401: from a state with the invariant a step refuses nothing, and stops only where a fatal error was raised
before. That the step after the error is a fault is log 10 (DEDUCED); that a turn of an agent with no enabled step, a CPU that
waits for ever among them, is a next state is log 11 (DESIGN CHOICE). -/
def Obligations.OnlyAFatalErrorStops : Prop :=
  ∀ s : State, s.Inv → (∃ t, step s = .next t) ∨ ∃ e, s.phase = .faulted e ∧ step s = .fault (.engineFaulted e)
end

