-- ==== Sys2Proof/Laws/State.lean ====
section
/-! SUPPORT. One lemma for each field and each update of State, true by definition. -/

namespace Sys2Proof.Machine

variable (s : State)

@[simp] theorem State.emit_cfg (e : Event) : (s.emit e).cfg = s.cfg := rfl
@[simp] theorem State.emit_regs (e : Event) : (s.emit e).regs = s.regs := rfl
@[simp] theorem State.emit_mem (e : Event) : (s.emit e).mem = s.mem := rfl
@[simp] theorem State.emit_dma (e : Event) : (s.emit e).dma = s.dma := rfl
@[simp] theorem State.emit_cache (e : Event) : (s.emit e).cache = s.cache := rfl
@[simp] theorem State.emit_ic (e : Event) : (s.emit e).ic = s.ic := rfl
@[simp] theorem State.emit_phase (e : Event) : (s.emit e).phase = s.phase := rfl
@[simp] theorem State.emit_started (e : Event) : (s.emit e).started = s.started := rfl
@[simp] theorem State.emit_cancel (e : Event) : (s.emit e).cancel = s.cancel := rfl
@[simp] theorem State.emit_lastCycles (e : Event) : (s.emit e).lastCycles = s.lastCycles := rfl
@[simp] theorem State.emit_totalCycles (e : Event) : (s.emit e).totalCycles = s.totalCycles := rfl
@[simp] theorem State.emit_periphHalted (e : Event) : (s.emit e).periphHalted = s.periphHalted := rfl
@[simp] theorem State.emit_log (e : Event) : (s.emit e).log = s.log ++ [e] := rfl
@[simp] theorem State.emit_envJob (e : Event) : (s.emit e).envJob = s.envJob := rfl
@[simp] theorem State.emit_agenda (e : Event) : (s.emit e).agenda = s.agenda := rfl
@[simp] theorem State.emit_inputs (e : Event) : (s.emit e).inputs = s.inputs := rfl
@[simp] theorem State.emit_draws (e : Event) : (s.emit e).draws = s.draws := rfl

@[simp] theorem State.raise_cfg (e : FatalError) : (s.raise e).cfg = s.cfg := rfl
@[simp] theorem State.raise_regs (e : FatalError) : (s.raise e).regs = s.regs := rfl
@[simp] theorem State.raise_mem (e : FatalError) : (s.raise e).mem = s.mem := rfl
@[simp] theorem State.raise_dma (e : FatalError) : (s.raise e).dma = s.dma := rfl
@[simp] theorem State.raise_cache (e : FatalError) : (s.raise e).cache = s.cache := rfl
@[simp] theorem State.raise_ic (e : FatalError) : (s.raise e).ic = s.ic := rfl
@[simp] theorem State.raise_phase (e : FatalError) : (s.raise e).phase = .faulted e := rfl
@[simp] theorem State.raise_started (e : FatalError) : (s.raise e).started = s.started := rfl
@[simp] theorem State.raise_cancel (e : FatalError) : (s.raise e).cancel = s.cancel := rfl
@[simp] theorem State.raise_lastCycles (e : FatalError) : (s.raise e).lastCycles = s.lastCycles := rfl
@[simp] theorem State.raise_totalCycles (e : FatalError) : (s.raise e).totalCycles = s.totalCycles := rfl
@[simp] theorem State.raise_periphHalted (e : FatalError) : (s.raise e).periphHalted = s.periphHalted := rfl
@[simp] theorem State.raise_log (e : FatalError) : (s.raise e).log = s.log ++ [.fatal e] := rfl
@[simp] theorem State.raise_envJob (e : FatalError) : (s.raise e).envJob = s.envJob := rfl
@[simp] theorem State.raise_agenda (e : FatalError) : (s.raise e).agenda = s.agenda := rfl
@[simp] theorem State.raise_inputs (e : FatalError) : (s.raise e).inputs = s.inputs := rfl
@[simp] theorem State.raise_draws (e : FatalError) : (s.raise e).draws = s.draws := rfl

@[simp] theorem State.set8_cfg (x : Reg8) (v : Byte) : (s.set8 x v).cfg = s.cfg := rfl
@[simp] theorem State.set8_regs (x : Reg8) (v : Byte) : (s.set8 x v).regs = s.regs.set8 x v := rfl
@[simp] theorem State.set8_mem (x : Reg8) (v : Byte) : (s.set8 x v).mem = s.mem := rfl
@[simp] theorem State.set8_dma (x : Reg8) (v : Byte) : (s.set8 x v).dma = s.dma := rfl
@[simp] theorem State.set8_cache (x : Reg8) (v : Byte) : (s.set8 x v).cache = s.cache := rfl
@[simp] theorem State.set8_ic (x : Reg8) (v : Byte) : (s.set8 x v).ic = s.ic := rfl
@[simp] theorem State.set8_phase (x : Reg8) (v : Byte) : (s.set8 x v).phase = s.phase := rfl
@[simp] theorem State.set8_started (x : Reg8) (v : Byte) : (s.set8 x v).started = s.started := rfl
@[simp] theorem State.set8_cancel (x : Reg8) (v : Byte) : (s.set8 x v).cancel = s.cancel := rfl
@[simp] theorem State.set8_lastCycles (x : Reg8) (v : Byte) : (s.set8 x v).lastCycles = s.lastCycles := rfl
@[simp] theorem State.set8_totalCycles (x : Reg8) (v : Byte) : (s.set8 x v).totalCycles = s.totalCycles := rfl
@[simp] theorem State.set8_periphHalted (x : Reg8) (v : Byte) : (s.set8 x v).periphHalted = s.periphHalted := rfl
@[simp] theorem State.set8_log (x : Reg8) (v : Byte) : (s.set8 x v).log = s.log := rfl
@[simp] theorem State.set8_envJob (x : Reg8) (v : Byte) : (s.set8 x v).envJob = s.envJob := rfl
@[simp] theorem State.set8_agenda (x : Reg8) (v : Byte) : (s.set8 x v).agenda = s.agenda := rfl
@[simp] theorem State.set8_inputs (x : Reg8) (v : Byte) : (s.set8 x v).inputs = s.inputs := rfl
@[simp] theorem State.set8_draws (x : Reg8) (v : Byte) : (s.set8 x v).draws = s.draws := rfl

@[simp] theorem State.set16_cfg (x : Reg16) (v : Word) : (s.set16 x v).cfg = s.cfg := rfl
@[simp] theorem State.set16_regs (x : Reg16) (v : Word) : (s.set16 x v).regs = s.regs.set16 x v := rfl
@[simp] theorem State.set16_mem (x : Reg16) (v : Word) : (s.set16 x v).mem = s.mem := rfl
@[simp] theorem State.set16_dma (x : Reg16) (v : Word) : (s.set16 x v).dma = s.dma := rfl
@[simp] theorem State.set16_cache (x : Reg16) (v : Word) : (s.set16 x v).cache = s.cache := rfl
@[simp] theorem State.set16_ic (x : Reg16) (v : Word) : (s.set16 x v).ic = s.ic := rfl
@[simp] theorem State.set16_phase (x : Reg16) (v : Word) : (s.set16 x v).phase = s.phase := rfl
@[simp] theorem State.set16_started (x : Reg16) (v : Word) : (s.set16 x v).started = s.started := rfl
@[simp] theorem State.set16_cancel (x : Reg16) (v : Word) : (s.set16 x v).cancel = s.cancel := rfl
@[simp] theorem State.set16_lastCycles (x : Reg16) (v : Word) : (s.set16 x v).lastCycles = s.lastCycles := rfl
@[simp] theorem State.set16_totalCycles (x : Reg16) (v : Word) : (s.set16 x v).totalCycles = s.totalCycles := rfl
@[simp] theorem State.set16_periphHalted (x : Reg16) (v : Word) : (s.set16 x v).periphHalted = s.periphHalted := rfl
@[simp] theorem State.set16_log (x : Reg16) (v : Word) : (s.set16 x v).log = s.log := rfl
@[simp] theorem State.set16_envJob (x : Reg16) (v : Word) : (s.set16 x v).envJob = s.envJob := rfl
@[simp] theorem State.set16_agenda (x : Reg16) (v : Word) : (s.set16 x v).agenda = s.agenda := rfl
@[simp] theorem State.set16_inputs (x : Reg16) (v : Word) : (s.set16 x v).inputs = s.inputs := rfl
@[simp] theorem State.set16_draws (x : Reg16) (v : Word) : (s.set16 x v).draws = s.draws := rfl

@[simp] theorem State.setSp_cfg (v : Word) : (s.setSp v).cfg = s.cfg := rfl
@[simp] theorem State.setSp_regs (v : Word) : (s.setSp v).regs = { s.regs with sp := v } := rfl
@[simp] theorem State.setSp_mem (v : Word) : (s.setSp v).mem = s.mem := rfl
@[simp] theorem State.setSp_dma (v : Word) : (s.setSp v).dma = s.dma := rfl
@[simp] theorem State.setSp_cache (v : Word) : (s.setSp v).cache = s.cache := rfl
@[simp] theorem State.setSp_ic (v : Word) : (s.setSp v).ic = s.ic := rfl
@[simp] theorem State.setSp_phase (v : Word) : (s.setSp v).phase = s.phase := rfl
@[simp] theorem State.setSp_started (v : Word) : (s.setSp v).started = s.started := rfl
@[simp] theorem State.setSp_cancel (v : Word) : (s.setSp v).cancel = s.cancel := rfl
@[simp] theorem State.setSp_lastCycles (v : Word) : (s.setSp v).lastCycles = s.lastCycles := rfl
@[simp] theorem State.setSp_totalCycles (v : Word) : (s.setSp v).totalCycles = s.totalCycles := rfl
@[simp] theorem State.setSp_periphHalted (v : Word) : (s.setSp v).periphHalted = s.periphHalted := rfl
@[simp] theorem State.setSp_log (v : Word) : (s.setSp v).log = s.log := rfl
@[simp] theorem State.setSp_envJob (v : Word) : (s.setSp v).envJob = s.envJob := rfl
@[simp] theorem State.setSp_agenda (v : Word) : (s.setSp v).agenda = s.agenda := rfl
@[simp] theorem State.setSp_inputs (v : Word) : (s.setSp v).inputs = s.inputs := rfl
@[simp] theorem State.setSp_draws (v : Word) : (s.setSp v).draws = s.draws := rfl

@[simp] theorem State.setPc_cfg (v : Word) : (s.setPc v).cfg = s.cfg := rfl
@[simp] theorem State.setPc_regs (v : Word) : (s.setPc v).regs = { s.regs with pc := v } := rfl
@[simp] theorem State.setPc_mem (v : Word) : (s.setPc v).mem = s.mem := rfl
@[simp] theorem State.setPc_dma (v : Word) : (s.setPc v).dma = s.dma := rfl
@[simp] theorem State.setPc_cache (v : Word) : (s.setPc v).cache = s.cache := rfl
@[simp] theorem State.setPc_ic (v : Word) : (s.setPc v).ic = s.ic := rfl
@[simp] theorem State.setPc_phase (v : Word) : (s.setPc v).phase = s.phase := rfl
@[simp] theorem State.setPc_started (v : Word) : (s.setPc v).started = s.started := rfl
@[simp] theorem State.setPc_cancel (v : Word) : (s.setPc v).cancel = s.cancel := rfl
@[simp] theorem State.setPc_lastCycles (v : Word) : (s.setPc v).lastCycles = s.lastCycles := rfl
@[simp] theorem State.setPc_totalCycles (v : Word) : (s.setPc v).totalCycles = s.totalCycles := rfl
@[simp] theorem State.setPc_periphHalted (v : Word) : (s.setPc v).periphHalted = s.periphHalted := rfl
@[simp] theorem State.setPc_log (v : Word) : (s.setPc v).log = s.log := rfl
@[simp] theorem State.setPc_envJob (v : Word) : (s.setPc v).envJob = s.envJob := rfl
@[simp] theorem State.setPc_agenda (v : Word) : (s.setPc v).agenda = s.agenda := rfl
@[simp] theorem State.setPc_inputs (v : Word) : (s.setPc v).inputs = s.inputs := rfl
@[simp] theorem State.setPc_draws (v : Word) : (s.setPc v).draws = s.draws := rfl

@[simp] theorem State.setIff_cfg (v w : Bool) : (s.setIff v w).cfg = s.cfg := rfl
@[simp] theorem State.setIff_regs (v w : Bool) : (s.setIff v w).regs = { s.regs with iff1 := v, iff2 := w } := rfl
@[simp] theorem State.setIff_mem (v w : Bool) : (s.setIff v w).mem = s.mem := rfl
@[simp] theorem State.setIff_dma (v w : Bool) : (s.setIff v w).dma = s.dma := rfl
@[simp] theorem State.setIff_cache (v w : Bool) : (s.setIff v w).cache = s.cache := rfl
@[simp] theorem State.setIff_ic (v w : Bool) : (s.setIff v w).ic = s.ic := rfl
@[simp] theorem State.setIff_phase (v w : Bool) : (s.setIff v w).phase = s.phase := rfl
@[simp] theorem State.setIff_started (v w : Bool) : (s.setIff v w).started = s.started := rfl
@[simp] theorem State.setIff_cancel (v w : Bool) : (s.setIff v w).cancel = s.cancel := rfl
@[simp] theorem State.setIff_lastCycles (v w : Bool) : (s.setIff v w).lastCycles = s.lastCycles := rfl
@[simp] theorem State.setIff_totalCycles (v w : Bool) : (s.setIff v w).totalCycles = s.totalCycles := rfl
@[simp] theorem State.setIff_periphHalted (v w : Bool) : (s.setIff v w).periphHalted = s.periphHalted := rfl
@[simp] theorem State.setIff_log (v w : Bool) : (s.setIff v w).log = s.log := rfl
@[simp] theorem State.setIff_envJob (v w : Bool) : (s.setIff v w).envJob = s.envJob := rfl
@[simp] theorem State.setIff_agenda (v w : Bool) : (s.setIff v w).agenda = s.agenda := rfl
@[simp] theorem State.setIff_inputs (v w : Bool) : (s.setIff v w).inputs = s.inputs := rfl
@[simp] theorem State.setIff_draws (v w : Bool) : (s.setIff v w).draws = s.draws := rfl

@[simp] theorem State.invalidate_cfg (a : Word) (n : Nat) : (s.invalidate a n).cfg = s.cfg := rfl
@[simp] theorem State.invalidate_regs (a : Word) (n : Nat) : (s.invalidate a n).regs = s.regs := rfl
@[simp] theorem State.invalidate_mem (a : Word) (n : Nat) : (s.invalidate a n).mem = s.mem := rfl
@[simp] theorem State.invalidate_dma (a : Word) (n : Nat) : (s.invalidate a n).dma = s.dma := rfl
@[simp] theorem State.invalidate_cache (a : Word) (n : Nat) : (s.invalidate a n).cache = s.cache.invalidate a n := rfl
@[simp] theorem State.invalidate_ic (a : Word) (n : Nat) : (s.invalidate a n).ic = s.ic := rfl
@[simp] theorem State.invalidate_phase (a : Word) (n : Nat) : (s.invalidate a n).phase = s.phase := rfl
@[simp] theorem State.invalidate_started (a : Word) (n : Nat) : (s.invalidate a n).started = s.started := rfl
@[simp] theorem State.invalidate_cancel (a : Word) (n : Nat) : (s.invalidate a n).cancel = s.cancel := rfl
@[simp] theorem State.invalidate_lastCycles (a : Word) (n : Nat) : (s.invalidate a n).lastCycles = s.lastCycles := rfl
@[simp] theorem State.invalidate_totalCycles (a : Word) (n : Nat) : (s.invalidate a n).totalCycles = s.totalCycles := rfl
@[simp] theorem State.invalidate_periphHalted (a : Word) (n : Nat) : (s.invalidate a n).periphHalted = s.periphHalted := rfl
@[simp] theorem State.invalidate_log (a : Word) (n : Nat) : (s.invalidate a n).log = s.log := rfl
@[simp] theorem State.invalidate_envJob (a : Word) (n : Nat) : (s.invalidate a n).envJob = s.envJob := rfl
@[simp] theorem State.invalidate_agenda (a : Word) (n : Nat) : (s.invalidate a n).agenda = s.agenda := rfl
@[simp] theorem State.invalidate_inputs (a : Word) (n : Nat) : (s.invalidate a n).inputs = s.inputs := rfl
@[simp] theorem State.invalidate_draws (a : Word) (n : Nat) : (s.invalidate a n).draws = s.draws := rfl

end Sys2Proof.Machine
end

