-- ==== Sys2Proof/Laws/Memory.lean ====
section
/-! SUPPORT. The laws of the byte store: a read after a write, and the canonical form (10_state.md R46, 20_memory.md R83). -/

namespace Sys2Proof.Machine

theorem Memory.get?_insert (m : Memory) (a b : Nat) (v : Byte) :
    (m.insert a v).get? b = if a = b then some v else m.get? b := by
  induction m with
  | nil => simp [Memory.insert, Memory.get?]
  | cons e rest ih =>
    obtain ⟨k, w⟩ := e
    unfold Memory.insert
    split
    · simp [Memory.get?]
    · split
      · subst a; by_cases h : k = b <;> simp [Memory.get?, h]
      · by_cases h : k = b
        · subst h; simp_all [Memory.get?]
        · simp [Memory.get?, h, ih]

theorem Memory.get?_erase (m : Memory) (a b : Nat) : (m.erase a).get? b = if a = b then none else m.get? b := by
  induction m with
  | nil => simp [Memory.erase, Memory.get?]
  | cons e rest ih =>
    obtain ⟨k, w⟩ := e
    unfold Memory.erase at ih ⊢
    by_cases hk : k = a
    · subst hk
      simp only [List.filter_cons, bne_self_eq_false, Bool.false_eq_true, if_false, ih]
      split <;> simp_all [Memory.get?]
    · simp only [List.filter_cons, bne_iff_ne, ne_eq, hk, not_false_eq_true, if_true, Memory.get?, ih]
      split <;> split <;> simp_all

/-- A byte reads as the value last written to it (20_memory.md R113). -/
theorem Memory.read_write_self (c : Config) (m : Memory) (a : Word) (v : Byte) :
    Memory.read c (Memory.write (c.resetByte a) m a.toNat v) a = v := by
  unfold Memory.write Memory.read
  by_cases hk : c.resetByte a = some v
  · simp [hk, Memory.get?_erase, Memory.unlisted]
  · simp [hk, Memory.get?_insert]

/-- A write leaves every other byte alone (20_memory.md R83). -/
theorem Memory.read_write_of_ne (c : Config) (m : Memory) {a b : Word} (v : Byte) (h : b ≠ a) :
    Memory.read c (Memory.write (c.resetByte a) m a.toNat v) b = Memory.read c m b := by
  have h' : a.toNat ≠ b.toNat := fun e => h (BitVec.eq_of_toNat_eq e.symm)
  unfold Memory.write Memory.read
  by_cases hk : c.resetByte a = some v
  · simp [hk, Memory.get?_erase, h']
  · simp [hk, Memory.get?_insert, h']

/-! ### The canonical form -/

theorem Memory.rising_some (m : Memory) (low : Nat) :
    Memory.rising (some low) m = true ↔ (∀ e ∈ m, low < e.1) ∧ m.Pairwise fun x y => x.1 < y.1 := by
  induction m generalizing low with
  | nil => simp [Memory.rising]
  | cons e rest ih =>
    obtain ⟨k, w⟩ := e
    simp only [Memory.rising, Bool.and_eq_true, decide_eq_true_eq, ih, List.forall_mem_cons, List.pairwise_cons]
    constructor
    · rintro ⟨h, hr, hp⟩
      exact ⟨⟨h, fun e he => lt_trans h (hr e he)⟩, hr, hp⟩
    · rintro ⟨⟨h, -⟩, hr, hp⟩
      exact ⟨h, hr, hp⟩

theorem Memory.rising_none (m : Memory) :
    Memory.rising none m = true ↔ m.Pairwise fun x y => x.1 < y.1 := by
  cases m with
  | nil => simp [Memory.rising]
  | cons e rest => simp [Memory.rising, Memory.rising_some]

theorem Memory.mem_insert {m : Memory} {a : Nat} {v : Byte} {e : Host.Cell} (h : e ∈ m.insert a v) :
    e = (a, v) ∨ e ∈ m := by
  induction m with
  | nil => simpa [Memory.insert] using h
  | cons x rest ih =>
    unfold Memory.insert at h
    split at h
    · simpa using h
    · split at h
      · simp only [List.mem_cons] at h ⊢; tauto
      · rcases List.mem_cons.mp h with h | h
        · exact .inr (by simp [h])
        · rcases ih h with h | h
          · exact .inl h
          · exact .inr (List.mem_cons_of_mem _ h)

theorem Memory.insert_pairwise {m : Memory} (a : Nat) (v : Byte) (h : m.Pairwise fun x y => x.1 < y.1) :
    (m.insert a v).Pairwise fun x y => x.1 < y.1 := by
  induction m with
  | nil => simp [Memory.insert]
  | cons x rest ih =>
    obtain ⟨k, w⟩ := x
    obtain ⟨hx, hr⟩ := List.pairwise_cons.mp h
    unfold Memory.insert
    split
    · next hak =>
      refine List.pairwise_cons.mpr ⟨fun e he => ?_, h⟩
      rcases List.mem_cons.mp he with rfl | he
      · exact hak
      · exact lt_trans hak (hx e he)
    · split
      · next hak => subst hak; exact List.pairwise_cons.mpr ⟨hx, hr⟩
      · next h1 h2 =>
        refine List.pairwise_cons.mpr ⟨fun e he => ?_, ih hr⟩
        rcases Memory.mem_insert he with rfl | he
        · show k < a; omega
        · exact hx e he

/-- The canonical form as a proposition. -/
theorem Memory.wf_iff (c : Config) (m : Memory) :
    m.wf c = true ↔ m.Pairwise (fun x y => x.1 < y.1) ∧ ∀ e ∈ m, Memory.entryOk c e = true := by
  simp [Memory.wf, Memory.rising_none]

/-- A write to an address of a RAM or ROM segment keeps the canonical form. -/
theorem Memory.write_wf (c : Config) {m : Memory} (a : Word) (v : Byte) (hb : (c.segmentAt a).kind.backed = true)
    (h : m.wf c = true) : (Memory.write (c.resetByte a) m a.toNat v).wf c = true := by
  rw [Memory.wf_iff] at h ⊢
  unfold Memory.write
  split
  · exact ⟨h.1.sublist List.filter_sublist, fun e he => h.2 e (List.mem_of_mem_filter he)⟩
  · next hk =>
    refine ⟨Memory.insert_pairwise _ _ h.1, fun e he => ?_⟩
    rcases Memory.mem_insert he with rfl | he
    · simp [Memory.entryOk, hb, hk, a.isLt]
    · exact h.2 e he

/-- Memory with nothing listed has the canonical form. -/
theorem Memory.nil_wf (c : Config) : Memory.wf c [] = true := rfl

/-- The memory of the machine after reset has the canonical form. -/
theorem State.reset_memory_wf : State.reset.mem.wf State.reset.cfg = true := rfl

end Sys2Proof.Machine
end

