-- ==== Sys2Proof/Laws/Registers.lean ====
section
/-! SUPPORT. What a write of a register does to every read of one (10_state.md R32, R35, R40, R41). -/

namespace Sys2Proof.Machine

section Banks

variable (g : Regs) (x : GpBank) (y : AfBank)

@[simp] theorem Regs.gp_setGp : (g.setGp x).gp = x := by
  unfold Regs.setGp Regs.gp; split <;> simp_all

@[simp] theorem Regs.af_setGp : (g.setGp x).af = g.af := by
  unfold Regs.setGp Regs.af; split <;> rfl

@[simp] theorem Regs.gpAlt_setGp : (g.setGp x).gpAlt = g.gpAlt := by
  unfold Regs.setGp Regs.gpAlt; split <;> simp_all

@[simp] theorem Regs.afAlt_setGp : (g.setGp x).afAlt = g.afAlt := by
  unfold Regs.setGp Regs.afAlt; split <;> rfl

@[simp] theorem Regs.af_setAf : (g.setAf y).af = y := by
  unfold Regs.setAf Regs.af; split <;> simp_all

@[simp] theorem Regs.gp_setAf : (g.setAf y).gp = g.gp := by
  unfold Regs.setAf Regs.gp; split <;> rfl

@[simp] theorem Regs.afAlt_setAf : (g.setAf y).afAlt = g.afAlt := by
  unfold Regs.setAf Regs.afAlt; split <;> simp_all

@[simp] theorem Regs.gpAlt_setAf : (g.setAf y).gpAlt = g.gpAlt := by
  unfold Regs.setAf Regs.gpAlt; split <;> rfl

@[simp] theorem Regs.gpSel_setGp : (g.setGp x).gpSel = g.gpSel := by unfold Regs.setGp; split <;> rfl
@[simp] theorem Regs.afSel_setGp : (g.setGp x).afSel = g.afSel := by unfold Regs.setGp; split <;> rfl
@[simp] theorem Regs.ix_setGp : (g.setGp x).ix = g.ix := by unfold Regs.setGp; split <;> rfl
@[simp] theorem Regs.iy_setGp : (g.setGp x).iy = g.iy := by unfold Regs.setGp; split <;> rfl
@[simp] theorem Regs.sp_setGp : (g.setGp x).sp = g.sp := by unfold Regs.setGp; split <;> rfl
@[simp] theorem Regs.pc_setGp : (g.setGp x).pc = g.pc := by unfold Regs.setGp; split <;> rfl
@[simp] theorem Regs.i_setGp : (g.setGp x).i = g.i := by unfold Regs.setGp; split <;> rfl
@[simp] theorem Regs.r_setGp : (g.setGp x).r = g.r := by unfold Regs.setGp; split <;> rfl
@[simp] theorem Regs.iff1_setGp : (g.setGp x).iff1 = g.iff1 := by unfold Regs.setGp; split <;> rfl
@[simp] theorem Regs.iff2_setGp : (g.setGp x).iff2 = g.iff2 := by unfold Regs.setGp; split <;> rfl
@[simp] theorem Regs.im_setGp : (g.setGp x).im = g.im := by unfold Regs.setGp; split <;> rfl

@[simp] theorem Regs.gpSel_setAf : (g.setAf y).gpSel = g.gpSel := by unfold Regs.setAf; split <;> rfl
@[simp] theorem Regs.afSel_setAf : (g.setAf y).afSel = g.afSel := by unfold Regs.setAf; split <;> rfl
@[simp] theorem Regs.ix_setAf : (g.setAf y).ix = g.ix := by unfold Regs.setAf; split <;> rfl
@[simp] theorem Regs.iy_setAf : (g.setAf y).iy = g.iy := by unfold Regs.setAf; split <;> rfl
@[simp] theorem Regs.sp_setAf : (g.setAf y).sp = g.sp := by unfold Regs.setAf; split <;> rfl
@[simp] theorem Regs.pc_setAf : (g.setAf y).pc = g.pc := by unfold Regs.setAf; split <;> rfl
@[simp] theorem Regs.i_setAf : (g.setAf y).i = g.i := by unfold Regs.setAf; split <;> rfl
@[simp] theorem Regs.r_setAf : (g.setAf y).r = g.r := by unfold Regs.setAf; split <;> rfl
@[simp] theorem Regs.iff1_setAf : (g.setAf y).iff1 = g.iff1 := by unfold Regs.setAf; split <;> rfl
@[simp] theorem Regs.iff2_setAf : (g.setAf y).iff2 = g.iff2 := by unfold Regs.setAf; split <;> rfl
@[simp] theorem Regs.im_setAf : (g.setAf y).im = g.im := by unfold Regs.setAf; split <;> rfl

end Banks

/-! ### Reads after writes -/

@[simp] theorem Regs.get8_set8_self (g : Regs) (x : Reg8) (v : Byte) : (g.set8 x v).get8 x = v := by
  cases x <;> simp [Regs.set8, Regs.get8]

theorem Regs.get8_set8_of_ne (g : Regs) {x y : Reg8} (v : Byte) (h : y ≠ x) : (g.set8 x v).get8 y = g.get8 y := by
  cases x <;> cases y <;> first | exact absurd rfl h | rfl | simp [Regs.set8, Regs.get8]

theorem highByte_append_lowByte (v : Word) : highByte v ++ lowByte v = v := by
  unfold highByte lowByte
  ext k hk
  simp only [BitVec.getElem_append, BitVec.getElem_extractLsb']
  split
  · simp [BitVec.getLsbD_eq_getElem, hk]
  · rw [Nat.add_sub_cancel' (by omega), BitVec.getLsbD_eq_getElem]

@[simp] theorem Regs.get16_set16_self (g : Regs) (x : Reg16) (v : Word) : (g.set16 x v).get16 x = v := by
  cases x <;> simp [Regs.set16, Regs.get16, highByte_append_lowByte]

theorem Regs.get8_set16_of_not_mem (g : Regs) {x : Reg16} {y : Reg8} (v : Word) (h : y ∉ x.halves) :
    (g.set16 x v).get8 y = g.get8 y := by
  cases x <;> cases y <;> first | (simp [Reg16.halves] at h; done) | rfl | simp [Regs.set16, Regs.get8]

theorem Regs.get16_set8 (g : Regs) (x : Reg8) (v : Byte) {y : Reg16}
    (h : y ∈ [Reg16.ix, .iy, .sp, .pc]) : (g.set8 x v).get16 y = g.get16 y := by
  cases x <;> cases y <;> simp_all [Regs.set8, Regs.get16]

theorem Regs.get16_set16_of_ne (g : Regs) {x y : Reg16} (v : Word) (hy : y ∈ [Reg16.ix, .iy, .sp, .pc]) (h : y ≠ x) :
    (g.set16 x v).get16 y = g.get16 y := by
  cases x <;> cases y <;> simp_all [Regs.set16, Regs.get16]

/-! ### Frames of the register writes -/

theorem RegsKept.refl (xs : List Reg8) (ys : List Reg16) (g : Regs) : RegsKept xs ys g g :=
  ⟨fun _ _ => rfl, fun _ _ _ => rfl, rfl, rfl, rfl, rfl, rfl, rfl, rfl⟩

theorem RegsKept.trans {xs xs' : List Reg8} {ys ys' : List Reg16} {g h k : Regs}
    (p : RegsKept xs ys g h) (q : RegsKept xs' ys' h k) : RegsKept (xs ++ xs') (ys ++ ys') g k where
  bytes x hx := by
    rw [List.mem_append, not_or] at hx
    rw [q.bytes x hx.2, p.bytes x hx.1]
  words y hm hy := by
    rw [List.mem_append, not_or] at hy
    rw [q.words y hm hy.2, p.words y hm hy.1]
  gpAlt := q.gpAlt.trans p.gpAlt
  afAlt := q.afAlt.trans p.afAlt
  gpSel := q.gpSel.trans p.gpSel
  afSel := q.afSel.trans p.afSel
  iff1 := q.iff1.trans p.iff1
  iff2 := q.iff2.trans p.iff2
  im := q.im.trans p.im

theorem RegsKept.mono {xs xs' : List Reg8} {ys ys' : List Reg16} {g h : Regs} (p : RegsKept xs ys g h)
    (hx : ∀ x ∈ xs, x ∈ xs') (hy : ∀ y ∈ ys, y ∈ ys') : RegsKept xs' ys' g h :=
  { p with
    bytes := fun x h => p.bytes x fun h' => h (hx x h')
    words := fun y hm h => p.words y hm fun h' => h (hy y h') }

theorem Regs.set8_kept (g : Regs) (x : Reg8) (v : Byte) : RegsKept [x] [] g (g.set8 x v) where
  bytes y h := Regs.get8_set8_of_ne g v (by simpa using h)
  words y h _ := Regs.get16_set8 g x v h
  gpAlt := by cases x <;> simp [Regs.set8] <;> rfl
  afAlt := by cases x <;> simp [Regs.set8] <;> rfl
  gpSel := by cases x <;> simp [Regs.set8]
  afSel := by cases x <;> simp [Regs.set8]
  iff1 := by cases x <;> simp [Regs.set8]
  iff2 := by cases x <;> simp [Regs.set8]
  im := by cases x <;> simp [Regs.set8]

theorem Regs.set16_kept (g : Regs) (x : Reg16) (v : Word) : RegsKept x.halves [x] g (g.set16 x v) where
  bytes y h := Regs.get8_set16_of_not_mem g v h
  words y hm h := Regs.get16_set16_of_ne g v hm (by simpa using h)
  gpAlt := by cases x <;> simp [Regs.set16] <;> rfl
  afAlt := by cases x <;> simp [Regs.set16] <;> rfl
  gpSel := by cases x <;> simp [Regs.set16]
  afSel := by cases x <;> simp [Regs.set16]
  iff1 := by cases x <;> simp [Regs.set16]
  iff2 := by cases x <;> simp [Regs.set16]
  im := by cases x <;> simp [Regs.set16]

theorem Regs.setPc_kept (g : Regs) (v : Word) : RegsKept [] [.pc] g { g with pc := v } :=
  Regs.set16_kept g .pc v

theorem Regs.setSp_kept (g : Regs) (v : Word) : RegsKept [] [.sp] g { g with sp := v } :=
  Regs.set16_kept g .sp v

/-! ### The same over a state -/

section States

variable (s : State)

@[simp] theorem State.get8_set8_self (x : Reg8) (v : Byte) : (s.set8 x v).get8 x = v :=
  Regs.get8_set8_self s.regs x v

theorem State.get8_set8_of_ne {x y : Reg8} (v : Byte) (h : y ≠ x) : (s.set8 x v).get8 y = s.get8 y :=
  Regs.get8_set8_of_ne s.regs v h

@[simp] theorem State.get16_set16_self (x : Reg16) (v : Word) : (s.set16 x v).get16 x = v :=
  Regs.get16_set16_self s.regs x v

@[simp] theorem State.byteAt_set8 (x : Reg8) (v : Byte) (a : Word) : (s.set8 x v).byteAt a = s.byteAt a := rfl
@[simp] theorem State.byteAt_set16 (x : Reg16) (v a : Word) : (s.set16 x v).byteAt a = s.byteAt a := rfl
@[simp] theorem State.byteAt_setSp (v a : Word) : (s.setSp v).byteAt a = s.byteAt a := rfl
@[simp] theorem State.byteAt_setPc (v a : Word) : (s.setPc v).byteAt a = s.byteAt a := rfl
@[simp] theorem State.byteAt_setIff (v w : Bool) (a : Word) : (s.setIff v w).byteAt a = s.byteAt a := rfl
@[simp] theorem State.byteAt_emit (e : Event) (a : Word) : (s.emit e).byteAt a = s.byteAt a := rfl
@[simp] theorem State.byteAt_raise (e : FatalError) (a : Word) : (s.raise e).byteAt a = s.byteAt a := rfl
@[simp] theorem State.byteAt_invalidate (b : Word) (n : Nat) (a : Word) : (s.invalidate b n).byteAt a = s.byteAt a :=
  rfl

theorem OnlyRegisters.of_regs (g : Regs) : OnlyRegisters s { s with regs := g } :=
  ⟨rfl, fun _ => rfl⟩

end States

end Sys2Proof.Machine
end

