-- ==== Sys2Proof/Laws/Bus.lean ====
section
/-! SUPPORT. What the byte accesses, the notifications and the decoder's reads can do (20_memory.md R83 to R86, R100, R101,
R105, R137; 30_encoding.md R170). -/

namespace Sys2Proof.Machine

section Res

variable {α β : Type}

@[simp] theorem Res.bind_ok (v : α) (s : State) (k : α → State → Res β) : (Res.ok v s).bind k = k v s := rfl
@[simp] theorem Res.bind_raised (s : State) (k : α → State → Res β) : (Res.raised s).bind k = .raised s := rfl
@[simp] theorem Res.state_ok (v : α) (s : State) : (Res.ok v s).state = s := rfl
@[simp] theorem Res.state_raised (s : State) : (Res.raised s : Res α).state = s := rfl
@[simp] theorem Res.outcome_ok (s : State) : (Res.ok () s).outcome = .next s := rfl
@[simp] theorem Res.outcome_raised (s : State) : (Res.raised s : Res Unit).outcome = .next s := rfl

theorem Res.bind_assoc {γ : Type} (x : Res α) (k : α → State → Res β) (m : β → State → Res γ) :
    (x.bind k).bind m = x.bind fun v s => (k v s).bind m := by
  cases x <;> rfl

/-- What holds of the state after the first operation and is kept by the second holds after both. -/
theorem Res.bind_state {P : State → Prop} {x : Res α} {k : α → State → Res β} (hx : P x.state)
    (hk : ∀ v t, P t → P (k v t).state) : P (x.bind k).state := by
  cases x with
  | ok v t => exact hk v t hx
  | raised t => exact hx

end Res

/-! ### Byte reads -/

/-- Everything a byte read can do (20_memory.md R83 to R86, R100). -/
theorem State.readByte_cases (s : State) (a : Word) :
    (∃ v, s.readByte a = .ok v s) ∨
      (∃ v rest, s.inputs = v :: rest ∧ s.readByte a = .ok v { s with inputs := rest }) ∨
      s.readByte a = .ok (Config.draw s.draws) { s with draws := s.draws + 1 } ∨
      s.readByte a = .raised (s.raise (.readFault a)) := by
  unfold State.readByte State.answer State.draw
  cases hr : (s.segmentAt a).cap.canRead
  · cases hp : s.cfg.readFaultPolicy
    · exact .inr (.inr (.inl (by simp [hr])))
    · exact .inr (.inr (.inr (by simp [hr])))
  · cases hk : (s.segmentAt a).kind
    · exact .inl ⟨s.byteAt a, by simp [hr, hk]⟩
    · exact .inl ⟨s.byteAt a, by simp [hr, hk]⟩
    · cases hi : s.inputs with
      | nil => exact .inr (.inr (.inl (by simp [hr, hk])))
      | cons v rest => exact .inr (.inl ⟨v, rest, rfl, by simp [hr, hk]⟩)
    · cases hu : s.cfg.unusedRead with
      | none => exact .inr (.inr (.inl (by simp [hr, hk])))
      | some v => exact .inl ⟨v, by simp [hr, hk]⟩

theorem State.readByte_of_readable {s : State} {a : Word} (h : s.readable a) : s.readByte a = .ok (s.byteAt a) s := by
  unfold State.readByte
  rw [if_pos h.1]
  have hb := h.2
  cases hk : (s.segmentAt a).kind <;> simp_all [SegmentKind.backed]

theorem State.readByte_of_readRaises {s : State} {a : Word} (h : s.readRaises a) :
    s.readByte a = .raised (s.raise (.readFault a)) := by
  simp [State.readByte, h.1, h.2]

/-! ### Byte writes -/

/-- A performed write changes one byte of memory, or logs the device's write, or nothing (20_memory.md R83 to R85). -/
theorem State.performWrite_cases (s : State) (a : Word) (v : Byte) :
    ((s.segmentAt a).kind.backed = true ∧
        s.performWrite a v = { s with mem := s.mem.write (s.cfg.resetByte a) a.toNat v }) ∨
      ((s.segmentAt a).kind = .peripheral ∧
        s.performWrite a v =
          s.emit (.peripheralWrite (s.segmentAt a).base (a.toNat - (s.segmentAt a).base.toNat) v)) ∨
      ((s.segmentAt a).kind = .unused ∧ s.performWrite a v = s) := by
  unfold State.performWrite
  cases hk : (s.segmentAt a).kind <;> simp [hk, SegmentKind.backed]

theorem State.performWrite_of_backed {s : State} {a : Word} (v : Byte) (h : (s.segmentAt a).kind.backed = true) :
    s.performWrite a v = { s with mem := s.mem.write (s.cfg.resetByte a) a.toNat v } := by
  rcases s.performWrite_cases a v with ⟨_, h'⟩ | ⟨h', _⟩ | ⟨h', _⟩
  · exact h'
  · simp [h', SegmentKind.backed] at h
  · simp [h', SegmentKind.backed] at h

theorem State.byteAt_performWrite {s : State} {a : Word} (v : Byte) (h : (s.segmentAt a).kind.backed = true) (b : Word) :
    (s.performWrite a v).byteAt b = if b = a then v else s.byteAt b := by
  rw [State.performWrite_of_backed v h]
  unfold State.byteAt
  split
  · next e => subst e; exact Memory.read_write_self _ _ _ _
  · next e => exact Memory.read_write_of_ne _ _ _ e

/-- The notification of byte `j` of a string, if one is due (20_memory.md R105, R110). -/
def State.notify (s : State) (a : Word) (n j : Nat) : State :=
  if (s.segmentAt a).kind = .ram && portionEnds (s.segmentAt a) a n j then
    s.invalidate (a - BitVec.ofNat 16 (portionBefore (s.segmentAt a) a j)) (portionBefore (s.segmentAt a) a j + 1)
  else s

theorem State.notify_eq (s : State) (a : Word) (n j : Nat) :
    ∃ c, c.Sublist s.cache ∧ s.notify a n j = { s with cache := c } := by
  unfold State.notify
  split
  · exact ⟨_, List.filter_sublist, rfl⟩
  · exact ⟨s.cache, List.Sublist.refl _, rfl⟩

@[simp] theorem State.byteAt_notify (s : State) (a : Word) (n j : Nat) (b : Word) :
    (s.notify a n j).byteAt b = s.byteAt b := by
  obtain ⟨c, -, h⟩ := s.notify_eq a n j
  rw [h]; rfl

@[simp] theorem State.segmentAt_emit (s : State) (e : Event) (a : Word) : (s.emit e).segmentAt a = s.segmentAt a := rfl

theorem State.segmentAt_performWrite (s : State) (a : Word) (v : Byte) (b : Word) :
    (s.performWrite a v).segmentAt b = s.segmentAt b := by
  rcases s.performWrite_cases a v with ⟨_, h⟩ | ⟨_, h⟩ | ⟨_, h⟩ <;> rw [h] <;> rfl

/-- Everything the write of one byte of a string can do (20_memory.md R86, R105). -/
theorem State.writeStringByte_eq (s : State) (addr : Word) (n j : Nat) (v : Byte) :
    s.writeStringByte addr n j v =
      if (s.segmentAt (addr + BitVec.ofNat 16 j)).cap.canWrite then
        .ok () ((s.performWrite (addr + BitVec.ofNat 16 j) v).notify (addr + BitVec.ofNat 16 j) n j)
      else if s.cfg.writeFaultPolicy = .ignore then .ok () s
      else .raised (s.raise (.writeFault (addr + BitVec.ofNat 16 j))) := by
  unfold State.writeStringByte State.notify
  simp only [State.segmentAt_performWrite]
  split
  · split <;> rfl
  · cases s.cfg.writeFaultPolicy <;> rfl

theorem State.writeStringByte_of_writable {s : State} {addr : Word} {n j : Nat} (v : Byte)
    (h : s.writable (addr + BitVec.ofNat 16 j)) :
    s.writeStringByte addr n j v =
      .ok () ((s.performWrite (addr + BitVec.ofNat 16 j) v).notify (addr + BitVec.ofNat 16 j) n j) := by
  rw [State.writeStringByte_eq, if_pos h.1]

theorem State.writeStringByte_of_writeRaises {s : State} {addr : Word} {n j : Nat} (v : Byte)
    (h : s.writeRaises (addr + BitVec.ofNat 16 j)) :
    s.writeStringByte addr n j v = .raised (s.raise (.writeFault (addr + BitVec.ofNat 16 j))) := by
  simp [State.writeStringByte_eq, h.1, h.2]

/-- The state after one byte of a string is stored to RAM or ROM: that byte, and entries dropped from the cache. -/
theorem State.writeStringByte_stores {s : State} {addr : Word} {n j : Nat} (v : Byte)
    (h : s.writable (addr + BitVec.ofNat 16 j)) :
    ∃ m c, s.writeStringByte addr n j v = .ok () { s with mem := m, cache := c } ∧ c.Sublist s.cache ∧
      (∀ b, { s with mem := m, cache := c }.byteAt b = if b = addr + BitVec.ofNat 16 j then v else s.byteAt b) := by
  rw [State.writeStringByte_of_writable v h]
  obtain ⟨c, hc, e⟩ := (s.performWrite (addr + BitVec.ofNat 16 j) v).notify_eq (addr + BitVec.ofNat 16 j) n j
  have hp := State.performWrite_of_backed v h.2
  refine ⟨_, c, by rw [e, hp], by simpa [hp] using hc, fun b => ?_⟩
  rw [← State.byteAt_performWrite v h.2 b, hp]
  rfl

/-- The write of one byte of a string changes memory, the cache and the log, or raises (20_memory.md R83 to R86, R105). -/
theorem State.writeStringByte_effect (s : State) (addr : Word) (n j : Nat) (v : Byte) :
    (∃ m c l, s.writeStringByte addr n j v = .ok () { s with mem := m, cache := c, log := l }) ∨
      s.writeStringByte addr n j v = .raised (s.raise (.writeFault (addr + BitVec.ofNat 16 j))) := by
  rw [State.writeStringByte_eq]
  split
  · obtain ⟨c, -, e⟩ := (s.performWrite (addr + BitVec.ofNat 16 j) v).notify_eq (addr + BitVec.ofNat 16 j) n j
    rw [e]
    rcases s.performWrite_cases (addr + BitVec.ofNat 16 j) v with ⟨_, h⟩ | ⟨_, h⟩ | ⟨_, h⟩ <;> rw [h]
    · exact .inl ⟨_, c, s.log, rfl⟩
    · exact .inl ⟨s.mem, c, _, rfl⟩
    · exact .inl ⟨s.mem, c, s.log, rfl⟩
  · split
    · exact .inl ⟨s.mem, s.cache, s.log, rfl⟩
    · exact .inr rfl

/-! ### Points between two byte accesses -/

theorem State.interleave_of_agenda_nil {s : State} (h : s.agenda = []) : s.interleave = .ok () s := by
  simp [State.interleave, h, State.takeTurns]

end Sys2Proof.Machine
end

