-- ==== Sys2Proof/Laws/Cache.lean ====
section
/-! SUPPORT. The block cache: what its operations find, and that they keep its canonical form (10_state.md R48, 20_memory.md
R130 to R139). -/

namespace Sys2Proof.Machine

/-- The entry with one more hit. -/
def CacheEntry.hit (e : CacheEntry) : CacheEntry :=
  { e with accessCount := e.accessCount + 1 }

@[simp] theorem CacheEntry.hit_block (e : CacheEntry) : e.hit.block = e.block := rfl
@[simp] theorem CacheEntry.hit_ranges (e : CacheEntry) : e.hit.ranges = e.ranges := rfl
@[simp] theorem entryOf_block (b : Block) : (entryOf b).block = b := rfl
@[simp] theorem blockOf_address (a : Word) (l : List Instr) : (blockOf a l).address = a := rfl
@[simp] theorem blockOf_body (a : Word) (l : List Instr) : (blockOf a l).body = l := rfl
@[simp] theorem blockOf_length (a : Word) (l : List Instr) : (blockOf a l).length = 4 * l.length := rfl

/-! ### What is found -/

theorem Cache.find_some {a : Word} {e : CacheEntry} : ∀ {c : Cache}, c.find a = some e → e ∈ c ∧ e.block.address = a
  | [], h => by simp [Cache.find] at h
  | x :: rest, h => by
    unfold Cache.find at h
    split at h
    · next hx =>
      obtain rfl : x = e := by simpa using h
      exact ⟨List.mem_cons_self, hx⟩
    · obtain ⟨h1, h2⟩ := Cache.find_some h
      exact ⟨List.mem_cons_of_mem _ h1, h2⟩

theorem Cache.find_touch_self {a : Word} {e : CacheEntry} :
    ∀ {c : Cache}, c.find a = some e → (c.touch a).find a = some e.hit
  | [], h => by simp [Cache.find] at h
  | x :: rest, h => by
    unfold Cache.find at h
    unfold Cache.touch
    split at h
    · next hx =>
      obtain rfl : x = e := by simpa using h
      rw [if_pos hx]
      exact if_pos hx
    · next hx =>
      rw [if_neg hx]
      exact (if_neg hx).trans (Cache.find_touch_self h)

theorem Cache.find_touch_of_ne {a b : Word} (h : b ≠ a) : ∀ c : Cache, (c.touch a).find b = c.find b
  | [] => rfl
  | x :: rest => by
    unfold Cache.touch
    split
    · next hx =>
      have hb : x.block.address ≠ b := fun e => h (e.symm.trans hx)
      exact (if_neg hb).trans (if_neg hb).symm
    · exact congrArg (fun z => if x.block.address = b then some x else z) (Cache.find_touch_of_ne h rest)

theorem Cache.find_insert (x : CacheEntry) (b : Word) :
    ∀ c : Cache, (c.insert x).find b = if x.block.address = b then some x else c.find b
  | [] => rfl
  | e :: rest => by
    unfold Cache.insert
    split
    · rfl
    · split
      · next h =>
        unfold Cache.find
        split
        · rfl
        · next hb => rw [if_neg (fun h' => hb (h.trans h'))]
      · next h =>
        unfold Cache.find
        rw [Cache.find_insert x b rest]
        split
        · next he =>
          rw [if_neg]
          exact fun h' => h (h'.trans he.symm)
        · rfl

/-! ### Membership -/

theorem Cache.mem_touch {a : Word} {e : CacheEntry} :
    ∀ {c : Cache}, e ∈ c.touch a → e ∈ c ∨ ∃ x ∈ c, e = x.hit
  | [], h => by simp [Cache.touch] at h
  | x :: rest, h => by
    unfold Cache.touch at h
    split at h
    · rcases List.mem_cons.1 h with rfl | h
      · exact .inr ⟨x, List.mem_cons_self, rfl⟩
      · exact .inl (List.mem_cons_of_mem _ h)
    · rcases List.mem_cons.1 h with rfl | h
      · exact .inl List.mem_cons_self
      · rcases Cache.mem_touch h with h | ⟨y, hy, h⟩
        · exact .inl (List.mem_cons_of_mem _ h)
        · exact .inr ⟨y, List.mem_cons_of_mem _ hy, h⟩

theorem Cache.mem_insert {x e : CacheEntry} : ∀ {c : Cache}, e ∈ c.insert x → e = x ∨ e ∈ c
  | [], h => by simpa [Cache.insert] using h
  | y :: rest, h => by
    unfold Cache.insert at h
    split at h
    · simpa using h
    · split at h
      · rcases List.mem_cons.1 h with h | h
        · exact .inl h
        · exact .inr (List.mem_cons_of_mem _ h)
      · rcases List.mem_cons.1 h with rfl | h
        · exact .inr List.mem_cons_self
        · rcases Cache.mem_insert h with h | h
          · exact .inl h
          · exact .inr (List.mem_cons_of_mem _ h)

theorem Cache.mem_invalidate {c : Cache} {a : Word} {n : Nat} {e : CacheEntry} :
    e ∈ c.invalidate a n ↔ e ∈ c ∧ rangesMeet (rangesOf a n) e.ranges = false := by
  simp [Cache.invalidate]

theorem Cache.mem_sweep {c : Cache} {e : CacheEntry} :
    e ∈ c.sweep ↔ ∃ x ∈ c, x.accessCount ≠ 0 ∧ e = { x with accessCount := 0 } := by
  simp only [Cache.sweep, List.mem_map, List.mem_filter, bne_iff_ne]
  constructor
  · rintro ⟨x, ⟨h1, h2⟩, rfl⟩
    exact ⟨x, h1, h2, rfl⟩
  · rintro ⟨x, h1, h2, rfl⟩
    exact ⟨x, ⟨h1, h2⟩, rfl⟩

/-! ### The canonical form -/

/-- Start addresses rise strictly (10_state.md R48). -/
def Cache.sorted (c : Cache) : Prop :=
  c.Pairwise fun x y => x.block.address.toNat < y.block.address.toNat

theorem Cache.map_address_touch (a : Word) :
    ∀ c : Cache, (c.touch a).map (fun e => e.block.address) = c.map fun e => e.block.address
  | [] => rfl
  | x :: rest => by
    unfold Cache.touch
    split
    · rfl
    · rw [List.map_cons, List.map_cons, Cache.map_address_touch a rest]

theorem Cache.sorted_iff (c : Cache) :
    c.sorted ↔ (c.map fun e => e.block.address).Pairwise fun x y => x.toNat < y.toNat := by
  rw [Cache.sorted, List.pairwise_map]

theorem Cache.sorted_touch {c : Cache} (a : Word) (h : c.sorted) : (c.touch a).sorted := by
  rw [Cache.sorted_iff] at h ⊢
  rwa [Cache.map_address_touch]

theorem Cache.sorted_insert {x : CacheEntry} : ∀ {c : Cache}, c.sorted → (c.insert x).sorted
  | [], _ => List.pairwise_singleton _ _
  | e :: rest, h => by
    obtain ⟨h1, h2⟩ := List.pairwise_cons.1 h
    unfold Cache.insert
    split
    · next hx =>
      refine List.pairwise_cons.2 ⟨fun y hy => ?_, h⟩
      rcases List.mem_cons.1 hy with rfl | hy
      · exact hx
      · exact Nat.lt_trans hx (h1 y hy)
    · next hx =>
      split
      · next he => exact List.pairwise_cons.2 ⟨fun y hy => he ▸ h1 y hy, h2⟩
      · next he =>
        refine List.pairwise_cons.2 ⟨fun y hy => ?_, Cache.sorted_insert h2⟩
        rcases Cache.mem_insert hy with rfl | hy
        · have : y.block.address.toNat ≠ e.block.address.toNat := fun h => he (BitVec.eq_of_toNat_eq h)
          omega
        · exact h1 y hy

theorem Cache.sorted_sublist {c d : Cache} (h : c.sorted) (s : d.Sublist c) : d.sorted :=
  List.Pairwise.sublist s h

theorem Cache.sorted_sweep {c : Cache} (h : c.sorted) : c.sweep.sorted := by
  rw [Cache.sorted_iff]
  have e : (c.sweep.map fun e => e.block.address) =
      (c.filter fun e => e.accessCount != 0).map fun e => e.block.address := by
    simp [Cache.sweep, Function.comp_def]
  rw [e, ← Cache.sorted_iff]
  exact Cache.sorted_sublist h List.filter_sublist

end Sys2Proof.Machine
end

