-- ==== Sys2Proof/Laws/Encoding.lean ====
section
/-! SUPPORT. The fields of an assembled word, and the register numbers (30_encoding.md R162, R164; 10_state.md R40,
R41). -/

namespace Sys2Proof

theorem toNat_append_eq {m n : Nat} (x : BitVec m) (y : BitVec n) : (x ++ y).toNat = x.toNat * 2 ^ n + y.toNat := by
  rw [BitVec.toNat_append, ← Nat.shiftLeft_add_eq_or_of_lt y.isLt, Nat.shiftLeft_eq]

section Fields

variable (op : BitVec 8) (a b : BitVec 4) (imm : Word)

theorem toNat_assemble :
    (assemble op a b imm).toNat = op.toNat * 0x1000000 + a.toNat * 0x100000 + b.toNat * 0x10000 + imm.toNat := by
  simp only [assemble, toNat_append_eq]; omega

@[simp] theorem fieldOp_assemble : fieldOp (assemble op a b imm) = op := by
  apply BitVec.eq_of_toNat_eq
  simp only [fieldOp, BitVec.extractLsb'_toNat, Nat.shiftRight_eq_div_pow, toNat_assemble]
  omega

@[simp] theorem fieldA_assemble : fieldA (assemble op a b imm) = a := by
  apply BitVec.eq_of_toNat_eq
  simp only [fieldA, BitVec.extractLsb'_toNat, Nat.shiftRight_eq_div_pow, toNat_assemble]
  omega

@[simp] theorem fieldB_assemble : fieldB (assemble op a b imm) = b := by
  apply BitVec.eq_of_toNat_eq
  simp only [fieldB, BitVec.extractLsb'_toNat, Nat.shiftRight_eq_div_pow, toNat_assemble]
  omega

@[simp] theorem fieldImm_assemble : fieldImm (assemble op a b imm) = imm := by
  apply BitVec.eq_of_toNat_eq
  simp only [fieldImm, BitVec.extractLsb'_toNat, Nat.shiftRight_eq_div_pow, toNat_assemble]
  omega

/-- A word is assembled from its fields (30_encoding.md R162). -/
theorem assemble_fields (w : UopWord) : assemble (fieldOp w) (fieldA w) (fieldB w) (fieldImm w) = w := by
  apply BitVec.eq_of_toNat_eq
  simp only [toNat_assemble, fieldOp, fieldA, fieldB, fieldImm, BitVec.extractLsb'_toNat, Nat.shiftRight_eq_div_pow]
  omega

/-- The bits of an assembled word under a mask assembled from the masks of the fields. -/
theorem assemble_and_mask (op' : BitVec 8) (a' b' : BitVec 4) (imm' : Word) :
    assemble op a b imm &&& assemble op' a' b' imm' =
      assemble (op &&& op') (a &&& a') (b &&& b') (imm &&& imm') := by
  refine BitVec.and_append.trans ?_
  unfold assemble
  rw [BitVec.and_append, BitVec.and_append]

end Fields

/-- The memory image of a word gives the word back (30_encoding.md R163). -/
theorem wordOfBytes_bytesOfWord (w : UopWord) :
    wordOfBytes (w.extractLsb' 24 8) (w.extractLsb' 16 8) (w.extractLsb' 0 8) (w.extractLsb' 8 8) = w := by
  apply BitVec.eq_of_toNat_eq
  simp only [wordOfBytes, toNat_append_eq, BitVec.extractLsb'_toNat, Nat.shiftRight_eq_div_pow]
  omega

theorem decodeBytes_bytesOfWord (w : UopWord) (rest : List Byte) :
    decodeBytes (bytesOfWord w ++ rest) = (decodeWord w).map fun i => (i, rest) := by
  simp only [bytesOfWord, List.cons_append, List.nil_append, decodeBytes, wordOfBytes_bytesOfWord]
  cases decodeWord w <;> rfl

@[simp] theorem Reg8.ofCode_code (x : Reg8) : Reg8.ofCode x.code = some x := by
  cases x <;> rfl

@[simp] theorem Reg16.ofCode_code (x : Reg16) : Reg16.ofCode x.code = some x := by
  cases x <;> rfl

theorem Reg8.code_of_ofCode {n : BitVec 4} {x : Reg8} (h : Reg8.ofCode n = some x) : x.code = n := by
  revert n x; decide

theorem Reg16.code_of_ofCode {n : BitVec 4} {x : Reg16} (h : Reg16.ofCode n = some x) : x.code = n := by
  revert n x; decide

/-! ### What each format accepts (30_encoding.md R164, R169) -/

section Formats

theorem low_byte_of_high_zero {v : Word} (h : v.extractLsb' 8 8 = 0#8) : (v.extractLsb' 0 8).setWidth 16 = v := by
  apply BitVec.eq_of_toNat_eq
  have h := congrArg BitVec.toNat h
  simp only [BitVec.extractLsb'_toNat, Nat.shiftRight_eq_div_pow, BitVec.toNat_setWidth, BitVec.toNat_ofNat] at h ⊢
  omega

theorem low_two_of_high_zero {v : Word} (h : v.extractLsb' 2 14 = 0#14) : (v.extractLsb' 0 2).setWidth 16 = v := by
  apply BitVec.eq_of_toNat_eq
  have h := congrArg BitVec.toNat h
  simp only [BitVec.extractLsb'_toNat, Nat.shiftRight_eq_div_pow, BitVec.toNat_setWidth, BitVec.toNat_ofNat] at h ⊢
  omega

theorem low_three_of_high_zero {v : Word} (h : v.extractLsb' 3 13 = 0#13) : (v.extractLsb' 0 3).setWidth 16 = v := by
  apply BitVec.eq_of_toNat_eq
  have h := congrArg BitVec.toNat h
  simp only [BitVec.extractLsb'_toNat, Nat.shiftRight_eq_div_pow, BitVec.toNat_setWidth, BitVec.toNat_ofNat] at h ⊢
  omega

theorem needZero_ok {z : Bool} {r : Except DecodeError Instr} {i : Instr} (h : needZero z r = .ok i) :
    z = true ∧ r = .ok i := by
  unfold needZero at h; split at h <;> simp_all

theorem needReg8_ok {n : BitVec 4} {r : Reg8 → Except DecodeError Instr} {i : Instr} (h : needReg8 n r = .ok i) :
    ∃ x : Reg8, n = x.code ∧ r x = .ok i := by
  unfold needReg8 at h; split at h
  · exact ⟨_, (Reg8.code_of_ofCode (by assumption)).symm, h⟩
  · cases h

theorem needReg16_ok {n : BitVec 4} {r : Reg16 → Except DecodeError Instr} {i : Instr} (h : needReg16 n r = .ok i) :
    ∃ x : Reg16, n = x.code ∧ r x = .ok i := by
  unfold needReg16 at h; split at h
  · exact ⟨_, (Reg16.code_of_ofCode (by assumption)).symm, h⟩
  · cases h

/-- The word has its operation code and the fields `a`, `b`, `imm`. -/
def WordIs (w : UopWord) (a b : BitVec 4) (imm : Word) : Prop :=
  ∀ op : BitVec 8, (fieldOp w).toNat = op.toNat → assemble op a b imm = w

theorem WordIs.of_fields {w : UopWord} {a b : BitVec 4} {imm : Word} (ha : fieldA w = a) (hb : fieldB w = b)
    (hi : fieldImm w = imm) : WordIs w a b imm := by
  intro op h
  rw [← assemble_fields w, ha, hb, hi, BitVec.eq_of_toNat_eq h]

variable {w : UopWord}

theorem formatZ_ok {j i : Instr} (h : formatZ w j = .ok i) :
    i = j ∧ WordIs w (0) (0) (0) := by
  unfold formatZ at h
  obtain ⟨hz, h⟩ := needZero_ok h
  simp only [Bool.and_eq_true, beq_iff_eq] at hz
  cases h
  refine ⟨rfl, ?_⟩
  apply WordIs.of_fields <;> simp_all

theorem formatN2_ok {mk : BitVec 2 → Instr} {i : Instr} (h : formatN2 w mk = .ok i) :
    ∃ n : BitVec 2, i = mk n ∧ WordIs w (0) (0) (n.setWidth 16) := by
  unfold formatN2 at h
  obtain ⟨hz, h⟩ := needZero_ok h
  simp only [Bool.and_eq_true, beq_iff_eq] at hz
  cases h
  refine ⟨_, rfl, ?_⟩
  apply WordIs.of_fields <;> simp_all [low_two_of_high_zero]

theorem formatD8I_ok {mk : Reg8 → Byte → Instr} {i : Instr} (h : formatD8I w mk = .ok i) :
    ∃ (rd : Reg8) (v : Byte), i = mk rd v ∧ WordIs w (rd.code) (0) (v.setWidth 16) := by
  unfold formatD8I at h
  obtain ⟨hz, h⟩ := needZero_ok h
  simp only [Bool.and_eq_true, beq_iff_eq] at hz
  obtain ⟨rd, hrd, h⟩ := needReg8_ok h
  cases h
  refine ⟨rd, _, rfl, ?_⟩
  apply WordIs.of_fields <;> simp_all [low_byte_of_high_zero]

theorem formatD16I_ok {mk : Reg16 → Word → Instr} {i : Instr} (h : formatD16I w mk = .ok i) :
    ∃ (rd : Reg16) (v : Word), i = mk rd v ∧ WordIs w (rd.code) (0) (v) := by
  unfold formatD16I at h
  obtain ⟨hz, h⟩ := needZero_ok h
  rw [beq_iff_eq] at hz
  obtain ⟨rd, hrd, h⟩ := needReg16_ok h
  cases h
  refine ⟨rd, _, rfl, ?_⟩
  apply WordIs.of_fields <;> simp_all

theorem formatD8S8_ok {mk : Reg8 → Reg8 → Instr} {i : Instr} (h : formatD8S8 w mk = .ok i) :
    ∃ (rd rs : Reg8), i = mk rd rs ∧ WordIs w (rd.code) (rs.code) (0) := by
  unfold formatD8S8 at h
  obtain ⟨hz, h⟩ := needZero_ok h
  rw [beq_iff_eq] at hz
  obtain ⟨rd, hrd, h⟩ := needReg8_ok h
  obtain ⟨rs, hrs, h⟩ := needReg8_ok h
  cases h
  refine ⟨rd, rs, rfl, ?_⟩
  apply WordIs.of_fields <;> simp_all

theorem formatD16S16_ok {mk : Reg16 → Reg16 → Instr} {i : Instr} (h : formatD16S16 w mk = .ok i) :
    ∃ (rd rs : Reg16), i = mk rd rs ∧ WordIs w (rd.code) (rs.code) (0) := by
  unfold formatD16S16 at h
  obtain ⟨hz, h⟩ := needZero_ok h
  rw [beq_iff_eq] at hz
  obtain ⟨rd, hrd, h⟩ := needReg16_ok h
  obtain ⟨rs, hrs, h⟩ := needReg16_ok h
  cases h
  refine ⟨rd, rs, rfl, ?_⟩
  apply WordIs.of_fields <;> simp_all

theorem formatD8S16_ok {mk : Reg8 → Reg16 → Instr} {i : Instr} (h : formatD8S16 w mk = .ok i) :
    ∃ (rd : Reg8) (rs : Reg16), i = mk rd rs ∧ WordIs w (rd.code) (rs.code) (0) := by
  unfold formatD8S16 at h
  obtain ⟨hz, h⟩ := needZero_ok h
  rw [beq_iff_eq] at hz
  obtain ⟨rd, hrd, h⟩ := needReg8_ok h
  obtain ⟨rs, hrs, h⟩ := needReg16_ok h
  cases h
  refine ⟨rd, rs, rfl, ?_⟩
  apply WordIs.of_fields <;> simp_all

theorem formatD16S8_ok {mk : Reg16 → Reg8 → Instr} {i : Instr} (h : formatD16S8 w mk = .ok i) :
    ∃ (rd : Reg16) (rs : Reg8), i = mk rd rs ∧ WordIs w (rd.code) (rs.code) (0) := by
  unfold formatD16S8 at h
  obtain ⟨hz, h⟩ := needZero_ok h
  rw [beq_iff_eq] at hz
  obtain ⟨rd, hrd, h⟩ := needReg16_ok h
  obtain ⟨rs, hrs, h⟩ := needReg8_ok h
  cases h
  refine ⟨rd, rs, rfl, ?_⟩
  apply WordIs.of_fields <;> simp_all

theorem formatD8A_ok {mk : Reg8 → Word → Instr} {i : Instr} (h : formatD8A w mk = .ok i) :
    ∃ (rd : Reg8) (v : Word), i = mk rd v ∧ WordIs w (rd.code) (0) (v) := by
  unfold formatD8A at h
  obtain ⟨hz, h⟩ := needZero_ok h
  rw [beq_iff_eq] at hz
  obtain ⟨rd, hrd, h⟩ := needReg8_ok h
  cases h
  refine ⟨rd, _, rfl, ?_⟩
  apply WordIs.of_fields <;> simp_all

theorem formatS8A_ok {mk : Word → Reg8 → Instr} {i : Instr} (h : formatS8A w mk = .ok i) :
    ∃ (v : Word) (rs : Reg8), i = mk v rs ∧ WordIs w (0) (rs.code) (v) := by
  unfold formatS8A at h
  obtain ⟨hz, h⟩ := needZero_ok h
  rw [beq_iff_eq] at hz
  obtain ⟨rs, hrs, h⟩ := needReg8_ok h
  cases h
  refine ⟨_, rs, rfl, ?_⟩
  apply WordIs.of_fields <;> simp_all

theorem formatS16A_ok {mk : Word → Reg16 → Instr} {i : Instr} (h : formatS16A w mk = .ok i) :
    ∃ (v : Word) (rs : Reg16), i = mk v rs ∧ WordIs w (0) (rs.code) (v) := by
  unfold formatS16A at h
  obtain ⟨hz, h⟩ := needZero_ok h
  rw [beq_iff_eq] at hz
  obtain ⟨rs, hrs, h⟩ := needReg16_ok h
  cases h
  refine ⟨_, rs, rfl, ?_⟩
  apply WordIs.of_fields <;> simp_all

theorem formatS16_ok {mk : Reg16 → Instr} {i : Instr} (h : formatS16 w mk = .ok i) :
    ∃ (rs : Reg16), i = mk rs ∧ WordIs w (0) (rs.code) (0) := by
  unfold formatS16 at h
  obtain ⟨hz, h⟩ := needZero_ok h
  simp only [Bool.and_eq_true, beq_iff_eq] at hz
  obtain ⟨rs, hrs, h⟩ := needReg16_ok h
  cases h
  refine ⟨rs, rfl, ?_⟩
  apply WordIs.of_fields <;> simp_all

theorem formatD16_ok {mk : Reg16 → Instr} {i : Instr} (h : formatD16 w mk = .ok i) :
    ∃ (rd : Reg16), i = mk rd ∧ WordIs w (rd.code) (0) (0) := by
  unfold formatD16 at h
  obtain ⟨hz, h⟩ := needZero_ok h
  simp only [Bool.and_eq_true, beq_iff_eq] at hz
  obtain ⟨rd, hrd, h⟩ := needReg16_ok h
  cases h
  refine ⟨rd, rfl, ?_⟩
  apply WordIs.of_fields <;> simp_all

theorem formatD8_ok {mk : Reg8 → Instr} {i : Instr} (h : formatD8 w mk = .ok i) :
    ∃ (rd : Reg8), i = mk rd ∧ WordIs w (rd.code) (0) (0) := by
  unfold formatD8 at h
  obtain ⟨hz, h⟩ := needZero_ok h
  simp only [Bool.and_eq_true, beq_iff_eq] at hz
  obtain ⟨rd, hrd, h⟩ := needReg8_ok h
  cases h
  refine ⟨rd, rfl, ?_⟩
  apply WordIs.of_fields <;> simp_all

theorem formatS8B_ok {mk : BitVec 3 → Reg8 → Instr} {i : Instr} (h : formatS8B w mk = .ok i) :
    ∃ (n : BitVec 3) (rs : Reg8), i = mk n rs ∧ WordIs w (0) (rs.code) (n.setWidth 16) := by
  unfold formatS8B at h
  obtain ⟨hz, h⟩ := needZero_ok h
  simp only [Bool.and_eq_true, beq_iff_eq] at hz
  obtain ⟨rs, hrs, h⟩ := needReg8_ok h
  cases h
  refine ⟨_, rs, rfl, ?_⟩
  apply WordIs.of_fields <;> simp_all [low_three_of_high_zero]

theorem formatD16S16N_ok {mk : Reg16 → Reg16 → Word → Instr} {i : Instr} (h : formatD16S16N w mk = .ok i) :
    ∃ (rd rs : Reg16) (v : Word), i = mk rd rs v ∧ WordIs w (rd.code) (rs.code) (v) := by
  unfold formatD16S16N at h
  obtain ⟨rd, hrd, h⟩ := needReg16_ok h
  obtain ⟨rs, hrs, h⟩ := needReg16_ok h
  cases h
  refine ⟨rd, rs, _, rfl, ?_⟩
  apply WordIs.of_fields <;> simp_all

theorem formatA16_ok {mk : Word → Instr} {i : Instr} (h : formatA16 w mk = .ok i) :
    ∃ (v : Word), i = mk v ∧ WordIs w (0) (0) (v) := by
  unfold formatA16 at h
  obtain ⟨hz, h⟩ := needZero_ok h
  simp only [Bool.and_eq_true, beq_iff_eq] at hz
  cases h
  refine ⟨_, rfl, ?_⟩
  apply WordIs.of_fields <;> simp_all

theorem formatCA16_ok {mk : BitVec 4 → Word → Instr} {i : Instr} (h : formatCA16 w mk = .ok i) :
    ∃ (cc : BitVec 4) (v : Word), i = mk cc v ∧ WordIs w (cc) (0) (v) := by
  unfold formatCA16 at h
  obtain ⟨hz, h⟩ := needZero_ok h
  rw [beq_iff_eq] at hz
  cases h
  refine ⟨_, _, rfl, ?_⟩
  apply WordIs.of_fields <;> simp_all

end Formats

end Sys2Proof
end

