-- ==== Sys2Proof/Laws/Space.lean ====
section
/-! SUPPORT. Ranges of addresses and the segment table (20_memory.md R80, R81, R87, R88, R91, R137). -/

namespace Sys2Proof

/-! ### Ranges -/

/-- An address lies in some range of the list. -/
def inRanges (l : List AddressRange) (x : Nat) : Prop :=
  ∃ r ∈ l, r.low ≤ x ∧ x ≤ r.high

/-- `Ranges` holds exactly the addresses of the run (20_memory.md R81). -/
theorem inRanges_rangesOf (a : Word) (n x : Nat) (hn : n ≤ spaceSize) :
    inRanges (rangesOf a n) x ↔ ∃ k, k < n ∧ x = (a.toNat + k) % spaceSize := by
  have ha : a.toNat < spaceSize := a.isLt
  unfold inRanges rangesOf
  rw [Nat.min_eq_left hn]
  simp only
  have hs : spaceSize = 65536 := rfl
  split
  · next h => subst h; simp
  · split
    · next h0 h =>
      simp only [List.mem_singleton, exists_eq_left]
      constructor
      · rintro ⟨h1, h2⟩
        exact ⟨x - a.toNat, by omega, by rw [Nat.mod_eq_of_lt] <;> omega⟩
      · rintro ⟨k, hk, rfl⟩
        rw [Nat.mod_eq_of_lt (by omega)]
        omega
    · next h0 h =>
      simp only [List.mem_cons, List.not_mem_nil, or_false, exists_eq_or_imp, exists_eq_left]
      constructor
      · rintro (⟨h1, h2⟩ | ⟨h1, h2⟩)
        · exact ⟨x - a.toNat, by omega, by rw [Nat.mod_eq_of_lt] <;> omega⟩
        · exact ⟨x + spaceSize - a.toNat, by omega, by
            rw [show a.toNat + (x + spaceSize - a.toNat) = x + spaceSize by omega, Nat.add_mod_right,
              Nat.mod_eq_of_lt (by omega)]⟩
      · rintro ⟨k, hk, rfl⟩
        by_cases hw : a.toNat + k < spaceSize
        · rw [Nat.mod_eq_of_lt hw]; left; omega
        · rw [Nat.mod_eq_sub_mod (by omega), Nat.mod_eq_of_lt (by omega)]; right; omega

theorem rangesOf_high {a : Word} {n : Nat} {r : AddressRange} (h : r ∈ rangesOf a n) :
    r.low ≤ r.high ∧ r.high ≤ 0xFFFF := by
  have ha : a.toNat < 65536 := a.isLt
  unfold rangesOf at h
  simp only at h
  have hs : spaceSize = 65536 := rfl
  split at h
  · simp at h
  · split at h
    · simp only [List.mem_singleton] at h
      subst h
      simp only
      omega
    · simp only [List.mem_cons, List.not_mem_nil, or_false] at h
      rcases h with rfl | rfl <;> simp only <;> omega

/-- Two lists of ranges meet exactly if they hold an address in common (20_memory.md R137). -/
theorem rangesMeet_iff (l m : List AddressRange) : rangesMeet l m = true ↔ ∃ x, inRanges l x ∧ inRanges m x := by
  simp only [rangesMeet, List.any_eq_true, AddressRange.intersects, decide_eq_true_eq, inRanges]
  constructor
  · rintro ⟨r, hr, w, hw, h⟩
    exact ⟨max r.low w.low, ⟨r, hr, by omega⟩, ⟨w, hw, by omega⟩⟩
  · rintro ⟨x, ⟨r, hr, h1⟩, ⟨w, hw, h2⟩⟩
    exact ⟨r, hr, w, hw, by omega⟩

/-! ### The segment table -/

/-- Validation finds no error exactly where the list tiles the rest of the space (20_memory.md R88). -/
theorem checkTiling_iff : ∀ {n : Nat} {l : List Segment}, checkTiling n l = none ↔ Machine.Tiles n l
  | n, [] => by
    have hs : spaceSize = 65536 := rfl
    unfold checkTiling Machine.Tiles
    split
    · simp; omega
    · split <;> simp <;> omega
  | n, s :: rest => by
    unfold checkTiling Machine.Tiles
    rw [← checkTiling_iff]
    split
    · simp; omega
    · split
      · simp; omega
      · split
        · simp; omega
        · exact ⟨fun h => ⟨by omega, by omega, h⟩, fun h => h.2.2⟩

theorem insertSegment_of_le {s : Segment} {l : List Segment} (h : ∀ t ∈ l, s.base.toNat ≤ t.base.toNat) :
    insertSegment s l = s :: l := by
  cases l with
  | nil => rfl
  | cons t l => exact if_pos (h t List.mem_cons_self)

end Sys2Proof

namespace Sys2Proof.Machine

theorem Tiles.le : ∀ {n : Nat} {l : List Segment}, Tiles n l → n ≤ spaceSize
  | _, [], h => Nat.le_of_eq h
  | _, _ :: _, h => Nat.le_trans (Nat.le_add_right _ _) (Tiles.le h.2.2)

theorem Tiles.floor_none : ∀ {n : Nat} {l : List Segment}, Tiles n l → ∀ {a : Nat}, a < n → floorSegment l a = none
  | _, [], _, _, _ => rfl
  | _, s :: rest, h, a, ha => by
    unfold floorSegment
    rw [Tiles.floor_none h.2.2 (by omega)]
    exact if_neg (by have := h.1; omega)

/-- In a list that tiles the space from `n` on, the lookup of an address finds the segment that holds it, finds it again for
every address that segment holds, and finds for the address before it the segment that ends there (20_memory.md R91). -/
theorem Tiles.floor : ∀ {n : Nat} {l : List Segment}, Tiles n l → ∀ {a : Nat}, n ≤ a → a < spaceSize →
    ∃ g ∈ l, floorSegment l a = some g ∧ n ≤ g.base.toNat ∧ g.base.toNat ≤ a ∧ a < g.base.toNat + g.length ∧
      g.base.toNat + g.length ≤ spaceSize ∧
      (∀ b, g.base.toNat ≤ b → b < g.base.toNat + g.length → floorSegment l b = some g) ∧
      (n < g.base.toNat → ∃ f, floorSegment l (g.base.toNat - 1) = some f ∧ f.base.toNat + f.length = g.base.toNat)
  | n, [], h, a, h1, h2 => by
    have : n = spaceSize := h
    omega
  | n, s :: rest, h, a, h1, h2 => by
    obtain ⟨hb, hl, hr⟩ := h
    have hfirst : ∀ b, n ≤ b → b < n + s.length → floorSegment (s :: rest) b = some s := fun b hb1 hb2 => by
      unfold floorSegment
      rw [Tiles.floor_none hr hb2]
      exact if_pos (by omega)
    by_cases ha : a < n + s.length
    · exact ⟨s, List.mem_cons_self, hfirst a h1 ha, by omega, by omega, by omega, by have := Tiles.le hr; omega,
        fun b hb1 hb2 => hfirst b (by omega) (by omega), fun hn => by omega⟩
    · obtain ⟨g, hg, hf, k1, k2, k3, k4, k5, k6⟩ := Tiles.floor hr (Nat.le_of_not_lt ha) h2
      have hrest : ∀ b f, floorSegment rest b = some f → floorSegment (s :: rest) b = some f := fun b f hbf => by
        unfold floorSegment
        rw [hbf]
      refine ⟨g, List.mem_cons_of_mem _ hg, hrest _ _ hf, by omega, k2, k3, k4, fun b hb1 hb2 => hrest _ _ (k5 b hb1 hb2),
        fun _ => ?_⟩
      by_cases he : n + s.length < g.base.toNat
      · obtain ⟨f, hf1, hf2⟩ := k6 he
        exact ⟨f, hrest _ _ hf1, hf2⟩
      · exact ⟨s, hfirst _ (by omega) (by omega), by omega⟩

theorem CacheEntry.covers_iff (e : CacheEntry) (a : Word) : e.covers a = true ↔ inRanges e.ranges a.toNat := by
  simp [CacheEntry.covers, inRanges]

/-- An invalidation of up to 0x10000 bytes keeps exactly the entries that cover none of them (20_memory.md R137). -/
theorem Cache.mem_invalidate_iff {c : Cache} {a : Word} {n : Nat} (hn : n ≤ spaceSize) {e : CacheEntry} :
    e ∈ c.invalidate a n ↔ e ∈ c ∧ ∀ k, k < n → e.covers (a + BitVec.ofNat 16 k) = false := by
  rw [Cache.mem_invalidate]
  refine and_congr_right fun _ => ?_
  rw [← Bool.not_eq_true, rangesMeet_iff]
  constructor
  · intro h k hk
    rw [← Bool.not_eq_true, CacheEntry.covers_iff]
    intro h'
    refine h ⟨_, (inRanges_rangesOf a n _ hn).2 ⟨k, hk, ?_⟩, h'⟩
    simp [BitVec.toNat_add, BitVec.toNat_ofNat]
  · rintro h ⟨x, hx, h'⟩
    obtain ⟨k, hk, rfl⟩ := (inRanges_rangesOf a n x hn).1 hx
    have := h k hk
    rw [← Bool.not_eq_true, CacheEntry.covers_iff] at this
    apply this
    simpa [BitVec.toNat_add, BitVec.toNat_ofNat] using h'

end Sys2Proof.Machine
end

