-- ==== Sys2Proof/Laws/Portions.lean ====
section
/-! SUPPORT. The portions of a string and what a string write drops from the cache (20_memory.md R105, R110, R137, R140), in
an address space that tiles. -/

namespace Sys2Proof.Machine

/-! ### Segments of an address space that tiles -/

section Tiled

variable {s : State}

/-- Every address lies in its segment, and a segment ends within the space (20_memory.md R88, R91). -/
theorem State.segmentAt_holds (ht : s.cfg.tiled) (x : Word) :
    (s.segmentAt x).base.toNat ≤ x.toNat ∧ x.toNat < (s.segmentAt x).base.toNat + (s.segmentAt x).length ∧
      (s.segmentAt x).base.toNat + (s.segmentAt x).length ≤ spaceSize := by
  obtain ⟨g, -, hg, -, h⟩ := Tiles.floor (checkTiling_iff.1 ht) (Nat.zero_le _) x.isLt
  have e : s.segmentAt x = g := by simp [State.segmentAt, Config.segmentAt, hg]
  rw [e]
  exact ⟨h.1, h.2.1, h.2.2.1⟩

/-- Every address a segment holds has that segment. -/
theorem State.segmentAt_eq (ht : s.cfg.tiled) {x y : Word} (h1 : (s.segmentAt x).base.toNat ≤ y.toNat)
    (h2 : y.toNat < (s.segmentAt x).base.toNat + (s.segmentAt x).length) : s.segmentAt y = s.segmentAt x := by
  obtain ⟨g, -, hg, -, h⟩ := Tiles.floor (checkTiling_iff.1 ht) (Nat.zero_le _) x.isLt
  have e : s.segmentAt x = g := by simp [State.segmentAt, Config.segmentAt, hg]
  rw [e] at h1 h2 ⊢
  simp [State.segmentAt, Config.segmentAt, h.2.2.2.1 _ h1 h2]

/-- The address before the first one of a segment, modulo 0x10000, ends its own. -/
theorem State.endsSegment_before (ht : s.cfg.tiled) (x : Word) : s.endsSegment ((s.segmentAt x).base - 1) := by
  have hs : spaceSize = 65536 := rfl
  obtain ⟨g, -, hg, -, h⟩ := Tiles.floor (checkTiling_iff.1 ht) (Nat.zero_le _) x.isLt
  have e : s.segmentAt x = g := by simp [State.segmentAt, Config.segmentAt, hg]
  rw [e]
  by_cases hb : g.base.toNat = 0
  · have hx : (g.base - 1).toNat = 65535 := by bv_omega
    have k := State.segmentAt_holds ht (g.base - 1)
    unfold State.endsSegment
    omega
  · obtain ⟨f, hf, hl⟩ := h.2.2.2.2 (by omega)
    have hx : (g.base - 1).toNat = g.base.toNat - 1 := by bv_omega
    have e' : s.segmentAt (g.base - 1) = f := by
      rw [State.segmentAt, Config.segmentAt, hx, hf]
      rfl
    unfold State.endsSegment
    rw [e', hx]
    omega

/-! ### Portions -/

theorem toNat_sub_ofNat {x : Word} {d : Nat} (h : d ≤ x.toNat) : (x - BitVec.ofNat 16 d).toNat = x.toNat - d := by
  have := x.isLt
  simp only [BitVec.toNat_sub, BitVec.toNat_ofNat]
  omega

theorem add_ofNat_eq_sub (a : Word) {m j : Nat} (h : m ≤ j) :
    a + BitVec.ofNat 16 m = a + BitVec.ofNat 16 j - BitVec.ofNat 16 (j - m) := by
  obtain ⟨d, rfl⟩ := Nat.exists_eq_add_of_le h
  rw [Nat.add_sub_cancel_left, BitVec.ofNat_add]
  bv_omega

/-- The bytes of one portion are those as far back as the segment of the last one reaches (20_memory.md R105). -/
theorem State.onePortion_iff (ht : s.cfg.tiled) (a : Word) {k j : Nat} : s.onePortion a k j ↔
    k ≤ j ∧ j - k ≤ (a + BitVec.ofNat 16 j).toNat - (s.segmentAt (a + BitVec.ofNat 16 j)).base.toNat := by
  obtain ⟨h1, h2, h3⟩ := State.segmentAt_holds ht (a + BitVec.ofNat 16 j)
  refine and_congr_right fun hk => ⟨fun h => ?_, fun h m hm hmj he => ?_⟩
  · refine Nat.le_of_not_lt fun hlt => ?_
    let d := (a + BitVec.ofNat 16 j).toNat - (s.segmentAt (a + BitVec.ofNat 16 j)).base.toNat
    refine h (j - d - 1) (by omega) (by omega) ?_
    have e : a + BitVec.ofNat 16 (j - d - 1) = (s.segmentAt (a + BitVec.ofNat 16 j)).base - 1 := by
      rw [add_ofNat_eq_sub a (show j - d - 1 ≤ j by omega), show j - (j - d - 1) = d + 1 by omega, BitVec.ofNat_add]
      have : (a + BitVec.ofNat 16 j - BitVec.ofNat 16 d).toNat = (s.segmentAt (a + BitVec.ofNat 16 j)).base.toNat := by
        rw [toNat_sub_ofNat (by omega)]
        omega
      rw [← BitVec.eq_of_toNat_eq this]
      generalize a + BitVec.ofNat 16 j = x
      bv_omega
    rw [e]
    exact State.endsSegment_before ht _
  · unfold State.endsSegment at he
    rw [add_ofNat_eq_sub a (Nat.le_of_lt hmj)] at he
    have ht' := toNat_sub_ofNat (x := a + BitVec.ofNat 16 j) (d := j - m) (by omega)
    rw [State.segmentAt_eq ht (x := a + BitVec.ofNat 16 j) (by omega) (by omega), ht'] at he
    omega

/-- The bytes of one portion lie in one segment. -/
theorem State.onePortion_segment (ht : s.cfg.tiled) {a : Word} {k j : Nat} (h : s.onePortion a k j) :
    s.segmentAt (a + BitVec.ofNat 16 k) = s.segmentAt (a + BitVec.ofNat 16 j) := by
  obtain ⟨h1, h2, h3⟩ := State.segmentAt_holds ht (a + BitVec.ofNat 16 j)
  obtain ⟨hk, hd⟩ := (State.onePortion_iff ht a).1 h
  rw [add_ofNat_eq_sub a hk]
  have := toNat_sub_ofNat (x := a + BitVec.ofNat 16 j) (d := j - k) (by omega)
  exact State.segmentAt_eq ht (by omega) (by omega)

/-- Where the next byte is of another segment the portion ends. -/
theorem State.endsSegment_of_ne (ht : s.cfg.tiled) {x : Word} (h : s.segmentAt (x + 1) ≠ s.segmentAt x) :
    s.endsSegment x := by
  obtain ⟨h1, h2, h3⟩ := State.segmentAt_holds ht x
  have hs : spaceSize = 65536 := rfl
  by_contra hn
  unfold State.endsSegment at hn
  have hx : x.toNat < 65535 := by omega
  have : (x + 1).toNat = x.toNat + 1 := by bv_omega
  exact h (State.segmentAt_eq ht (by omega) (by omega))

/-! ### What is dropped -/

/-- The notification of a byte keeps exactly the entries that cover no byte of the RAM portion that ends at it (20_memory.md
R105, R137). -/
theorem State.notify_drops (ht : s.cfg.tiled) (a : Word) (n j : Nat) (e : CacheEntry) :
    e ∈ (s.notify (a + BitVec.ofNat 16 j) n j).cache ↔ e ∈ s.cache ∧
      ((s.segmentAt (a + BitVec.ofNat 16 j)).kind = .ram → s.lastOfPortion a n j →
        ∀ k, s.onePortion a k j → e.covers (a + BitVec.ofNat 16 k) = false) := by
  obtain ⟨h1, h2, h3⟩ := State.segmentAt_holds ht (a + BitVec.ofNat 16 j)
  unfold State.notify portionEnds
  by_cases hl : (s.segmentAt (a + BitVec.ofNat 16 j)).kind = .ram ∧ s.lastOfPortion a n j
  · have hc : (decide ((s.segmentAt (a + BitVec.ofNat 16 j)).kind = .ram) && (decide (j + 1 = n) ||
        decide ((a + BitVec.ofNat 16 j).toNat + 1 = (s.segmentAt (a + BitVec.ofNat 16 j)).base.toNat +
          (s.segmentAt (a + BitVec.ofNat 16 j)).length))) = true := by
      have := hl.2
      unfold State.lastOfPortion State.endsSegment at this
      simp only [hl.1, Bool.and_eq_true, Bool.or_eq_true, decide_eq_true_eq, true_and]
      omega
    rw [if_pos hc, portionBefore]
    show e ∈ s.cache.invalidate _ _ ↔ _
    rw [Cache.mem_invalidate_iff (by omega)]
    refine and_congr_right fun _ => ⟨fun h _ _ k hk => ?_, fun h i hi => ?_⟩
    · obtain ⟨hkj, hd⟩ := (State.onePortion_iff ht a).1 hk
      have := h (min j ((a + BitVec.ofNat 16 j).toNat - (s.segmentAt (a + BitVec.ofNat 16 j)).base.toNat) - (j - k))
        (by omega)
      rw [add_ofNat_eq_sub a hkj]
      rw [← this]
      congr 1
      generalize (s.segmentAt (a + BitVec.ofNat 16 j)).base.toNat = b at *
      generalize a + BitVec.ofNat 16 j = x at *
      obtain ⟨q, hq⟩ : ∃ q, min j (x.toNat - b) = q + (j - k) := ⟨min j (x.toNat - b) - (j - k), by omega⟩
      rw [hq, Nat.add_sub_cancel, BitVec.ofNat_add]
      bv_omega
    · have hq : i ≤ min j ((a + BitVec.ofNat 16 j).toNat - (s.segmentAt (a + BitVec.ofNat 16 j)).base.toNat) := by omega
      have := h hl.1 hl.2
        (j - (min j ((a + BitVec.ofNat 16 j).toNat - (s.segmentAt (a + BitVec.ofNat 16 j)).base.toNat) - i))
        ((State.onePortion_iff ht a).2 ⟨by omega, by omega⟩)
      rw [← this]
      congr 1
      rw [add_ofNat_eq_sub a (Nat.sub_le j _)]
      generalize (s.segmentAt (a + BitVec.ofNat 16 j)).base.toNat = b at *
      generalize a + BitVec.ofNat 16 j = x at *
      obtain ⟨q, hq'⟩ : ∃ q, min j (x.toNat - b) = i + q := ⟨min j (x.toNat - b) - i, by omega⟩
      rw [hq', Nat.add_sub_cancel_left, show j - (j - q) = q by omega, BitVec.ofNat_add]
      bv_omega
  · rw [if_neg]
    · exact ⟨fun h => ⟨h, fun h1 h2 => absurd ⟨h1, h2⟩ hl⟩, fun h => h.1⟩
    · intro hc
      apply hl
      simp only [Bool.and_eq_true, Bool.or_eq_true, decide_eq_true_eq] at hc
      exact ⟨hc.1, hc.2.imp id Eq.symm⟩

/-- What the write of one byte of a string drops from the cache. -/
theorem State.writeStringByte_drops (ht : s.cfg.tiled) {a : Word} {n j : Nat} {v : Byte} {t : State}
    (hc : (s.segmentAt (a + BitVec.ofNat 16 j)).cap.canWrite = true) (h : s.writeStringByte a n j v = .ok () t) :
    DropsPortion s t a n j := by
  rw [State.writeStringByte_eq, if_pos hc] at h
  cases h
  intro e
  have hd : ∀ u : State, u.cfg = s.cfg → u.cache = s.cache → (e ∈ (u.notify (a + BitVec.ofNat 16 j) n j).cache ↔ _) :=
    fun u hu _ => State.notify_drops (s := u) (hu ▸ ht) a n j e
  rcases s.performWrite_cases (a + BitVec.ofNat 16 j) v with ⟨-, h⟩ | ⟨-, h⟩ | ⟨-, h⟩ <;> rw [h] <;>
    exact hd _ rfl rfl

/-- The entry covers no byte of a RAM portion that ends at one of the bytes `j` to `j + k - 1`. -/
def State.portionsClear (s : State) (a : Word) (n j k : Nat) (e : CacheEntry) : Prop :=
  ∀ i, i < k → (s.segmentAt (a + BitVec.ofNat 16 (j + i))).kind = .ram → s.lastOfPortion a n (j + i) →
    ∀ p, s.onePortion a p (j + i) → e.covers (a + BitVec.ofNat 16 p) = false

theorem State.portionsClear_succ (a : Word) (n j k : Nat) (e : CacheEntry) : s.portionsClear a n j (k + 1) e ↔
    ((s.segmentAt (a + BitVec.ofNat 16 j)).kind = .ram → s.lastOfPortion a n j →
      ∀ p, s.onePortion a p j → e.covers (a + BitVec.ofNat 16 p) = false) ∧ s.portionsClear a n (j + 1) k e := by
  constructor
  · intro h
    refine ⟨h 0 (by omega), fun i hi => ?_⟩
    have := h (i + 1) (by omega)
    rwa [show j + (i + 1) = j + 1 + i by omega] at this
  · rintro ⟨h0, h1⟩ i hi
    cases i with
    | zero => exact h0
    | succ i =>
      have := h1 i (by omega)
      rwa [show j + 1 + i = j + (i + 1) by omega] at this

/-- Where the last written byte ends its portion, the portions are all the RAM bytes written. -/
theorem State.portionsClear_iff (ht : s.cfg.tiled) (a : Word) {n k : Nat}
    (hend : k = 0 ∨ s.lastOfPortion a n (k - 1)) (e : CacheEntry) : s.portionsClear a n 0 k e ↔
    ∀ j, j < k → (s.segmentAt (a + BitVec.ofNat 16 j)).kind = .ram → e.covers (a + BitVec.ofNat 16 j) = false := by
  unfold State.portionsClear
  simp only [Nat.zero_add]
  constructor
  · intro h j hj hr
    classical
    have hex : ∃ m, j ≤ m ∧ m < k ∧ s.lastOfPortion a n m := ⟨k - 1, by omega, by omega, hend.resolve_left (by omega)⟩
    obtain ⟨h1, h2, h3⟩ := Nat.find_spec hex
    have hp : s.onePortion a j (Nat.find hex) :=
      ⟨h1, fun m hm hlt he => Nat.find_min hex hlt ⟨hm, by omega, .inr he⟩⟩
    exact h _ h2 (by rw [← State.onePortion_segment ht hp]; exact hr) h3 j hp
  · intro h j hj hr _ p hp
    exact h p (by have := hp.1; omega) (by rw [State.onePortion_segment ht hp]; exact hr)

end Tiled

end Sys2Proof.Machine
end

