-- ==== Sys2Proof/Laws/Ops.lean ====
section
/-! SUPPORT. What the accesses of more than one byte, the stack operations and the decoder can do where no other agent has a
turn in between (20_memory.md R102 to R109, 10_state.md R39, 30_encoding.md R170). -/

namespace Sys2Proof.Machine

/-! ### Reads -/

theorem State.readWord_of_readable {s : State} {a : Word} (h : s.agenda = []) (h0 : s.readable a)
    (h1 : s.readable (a + 1)) : s.readWord a = .ok (s.wordAt a) s := by
  rw [State.readWord, State.readByte_of_readable h0, Res.bind_ok, State.interleave_of_agenda_nil h, Res.bind_ok,
    State.readByte_of_readable h1]
  rfl

theorem State.readWord_of_readRaises {s : State} {a : Word} (h : s.readRaises a) :
    s.readWord a = .raised (s.raise (.readFault a)) := by
  simp [State.readWord, State.readByte_of_readRaises h]

theorem State.readWord_of_readRaises_second {s : State} {a : Word} (h : s.agenda = []) (h0 : s.readable a)
    (h1 : s.readRaises (a + 1)) : s.readWord a = .raised (s.raise (.readFault (a + 1))) := by
  rw [State.readWord, State.readByte_of_readable h0, Res.bind_ok, State.interleave_of_agenda_nil h, Res.bind_ok,
    State.readByte_of_readRaises h1]
  rfl

/-- The bytes of a run of RAM and ROM addresses. -/
def State.run (s : State) (a : Word) (n : Nat) : List Byte :=
  (List.range n).map fun j => s.byteAt (a + BitVec.ofNat 16 j)

@[simp] theorem State.length_run (s : State) (a : Word) (n : Nat) : (s.run a n).length = n := by
  simp [State.run]

theorem State.getElem?_run (s : State) (a : Word) {n j : Nat} (h : j < n) :
    (s.run a n)[j]? = some (s.byteAt (a + BitVec.ofNat 16 j)) := by
  simp [State.run, h]

theorem add_ofNat_succ (a : Word) (j : Nat) : a + BitVec.ofNat 16 (j + 1) = a + 1 + BitVec.ofNat 16 j := by
  rw [BitVec.ofNat_add]; ac_rfl

theorem State.run_succ (s : State) (a : Word) (n : Nat) : s.run a (n + 1) = s.byteAt a :: s.run (a + 1) n := by
  unfold State.run
  rw [List.range_succ_eq_map]
  simp only [List.map_cons, List.map_map, BitVec.add_zero]
  refine congrArg₂ _ rfl (List.map_congr_left fun j _ => ?_)
  exact congrArg s.byteAt (add_ofNat_succ a j)

theorem State.readableRun_succ {s : State} {a : Word} {n : Nat} (h : s.readableRun a (n + 1)) :
    s.readable a ∧ s.readableRun (a + 1) n := by
  refine ⟨by simpa using h 0 (by omega), fun j hj => ?_⟩
  rw [← add_ofNat_succ]
  exact h (j + 1) (by omega)

theorem State.readBytes_of_readable {s : State} (h : s.agenda = []) :
    ∀ (n : Nat) (a : Word), s.readableRun a n → State.readBytes n a s = .ok (s.run a n) s
  | 0, _, _ => rfl
  | 1, a, hr => by
    obtain ⟨h0, -⟩ := State.readableRun_succ hr
    simp [State.readBytes, State.readByte_of_readable h0, State.run]
  | n + 2, a, hr => by
    obtain ⟨h0, h1⟩ := State.readableRun_succ hr
    rw [State.readBytes, State.readByte_of_readable h0, Res.bind_ok, State.interleave_of_agenda_nil h, Res.bind_ok,
      State.readBytes_of_readable h (n + 1) (a + 1) h1, Res.bind_ok, State.run_succ s a (n + 1)]

theorem State.readBytes_of_readRaises {s : State} (h : s.agenda = []) :
    ∀ (n : Nat) (a : Word) (k : Nat), k < n → s.readableRun a k → s.readRaises (a + BitVec.ofNat 16 k) →
      State.readBytes n a s = .raised (s.raise (.readFault (a + BitVec.ofNat 16 k)))
  | 0, _, _, hk, _, _ => absurd hk (by omega)
  | 1, a, k, hk, _, hf => by
    obtain rfl : k = 0 := by omega
    rw [State.readBytes, State.readByte_of_readRaises (by simpa using hf)]
    simp
  | n + 2, a, 0, _, _, hf => by
    rw [State.readBytes, State.readByte_of_readRaises (by simpa using hf)]
    simp
  | n + 2, a, k + 1, hk, hr, hf => by
    obtain ⟨h0, h1⟩ := State.readableRun_succ hr
    rw [add_ofNat_succ] at hf ⊢
    rw [State.readBytes, State.readByte_of_readable h0, Res.bind_ok, State.interleave_of_agenda_nil h, Res.bind_ok,
      State.readBytes_of_readRaises h (n + 1) (a + 1) k (by omega) h1 hf, Res.bind_raised]

/-! ### Writes -/

/-- The state with another memory and cache. -/
def State.stored (s : State) (m : Memory) (c : Cache) : State :=
  { s with mem := m, cache := c }

section Stored

variable (s : State) (m m' : Memory) (c c' : Cache)

@[simp] theorem State.stored_cfg : (s.stored m c).cfg = s.cfg := rfl
@[simp] theorem State.stored_regs : (s.stored m c).regs = s.regs := rfl
@[simp] theorem State.stored_mem : (s.stored m c).mem = m := rfl
@[simp] theorem State.stored_cache : (s.stored m c).cache = c := rfl
@[simp] theorem State.stored_agenda : (s.stored m c).agenda = s.agenda := rfl
@[simp] theorem State.stored_phase : (s.stored m c).phase = s.phase := rfl
@[simp] theorem State.stored_stored : (s.stored m c).stored m' c' = s.stored m' c' := rfl

end Stored

/-- After a string is written from byte `j` on, up to its end or to a byte that raises: the bytes before are stored, in
ascending order, nothing else of memory, and entries are dropped from the cache, exactly those of the RAM portions that have
ended where the space tiles (20_memory.md R105, R109). -/
theorem State.writeFrom_stores (addr : Word) (n : Nat) :
    ∀ (bytes : List Byte) (j k : Nat) (s : State), s.agenda = [] → k ≤ bytes.length → j + k ≤ 0x10000 →
      (∀ i, i < k → s.writable (addr + BitVec.ofNat 16 (j + i))) →
      ∃ m c, c.Sublist s.cache ∧
        (∀ i, i < k → some ((s.stored m c).byteAt (addr + BitVec.ofNat 16 (j + i))) = bytes[i]?) ∧
        (∀ x, (∀ i, i < k → x ≠ addr + BitVec.ofNat 16 (j + i)) → (s.stored m c).byteAt x = s.byteAt x) ∧
        (k = bytes.length → State.writeFrom addr n j bytes s = .ok () (s.stored m c)) ∧
        (k < bytes.length → s.writeRaises (addr + BitVec.ofNat 16 (j + k)) →
          State.writeFrom addr n j bytes s =
            .raised ((s.stored m c).raise (.writeFault (addr + BitVec.ofNat 16 (j + k))))) ∧
        (s.cfg.tiled → ∀ e, e ∈ c ↔ e ∈ s.cache ∧ s.portionsClear addr n j k e)
  | [], j, k, s, _, hk, _, _ => by
    obtain rfl : k = 0 := by simpa using hk
    exact ⟨s.mem, s.cache, List.Sublist.refl _, by omega, fun _ _ => rfl, fun _ => rfl, by simp,
      fun _ e => ⟨fun h => ⟨h, fun i hi => absurd hi (by omega)⟩, fun h => h.1⟩⟩
  | v :: rest, j, 0, s, _, _, _, _ => by
    refine ⟨s.mem, s.cache, List.Sublist.refl _, by omega, fun _ _ => rfl, by simp, fun _ hf => ?_,
      fun _ e => ⟨fun h => ⟨h, fun i hi => absurd hi (by omega)⟩, fun h => h.1⟩⟩
    cases rest with
    | nil => exact State.writeStringByte_of_writeRaises v hf
    | cons w rest =>
      rw [State.writeFrom, State.writeStringByte_of_writeRaises (j := j) v hf]
      rfl
  | v :: rest, j, k + 1, s, ha, hk, hj, hw => by
    obtain ⟨m, c, e, hc, hb⟩ := State.writeStringByte_stores (n := n) v (hw 0 (by omega))
    change ∀ b, (s.stored m c).byteAt b = _ at hb
    change State.writeStringByte s addr n j v = .ok () (s.stored m c) at e
    obtain ⟨m', c', hc', hb', hx', hok, hraise, hdrop⟩ :=
      State.writeFrom_stores addr n rest (j + 1) k (s.stored m c) ha (by simpa using hk) (by omega)
        (fun i hi => by
          have := hw (i + 1) (by omega)
          rwa [show j + (i + 1) = j + 1 + i by omega] at this)
    have hne : ∀ i, i < k → addr + BitVec.ofNat 16 (j + 0) ≠ addr + BitVec.ofNat 16 (j + 1 + i) := by
      intro i hi h
      have := congrArg BitVec.toNat h
      simp only [BitVec.toNat_add, BitVec.toNat_ofNat] at this
      omega
    refine ⟨m', c', hc'.trans hc, fun i hi => ?_, fun x hx => ?_, fun hl => ?_, fun hl hf => ?_, fun ht x => ?_⟩
    · cases i with
      | zero =>
        have h1 := hx' _ hne
        rw [State.stored_stored] at h1
        rw [h1, hb]
        simp
      | succ i =>
        have h1 := hb' i (by omega)
        rw [show j + (i + 1) = j + 1 + i by omega]
        simpa using h1
    · have h1 := hx' x fun i hi => by
        have := hx (i + 1) (by omega)
        rwa [show j + (i + 1) = j + 1 + i by omega] at this
      rw [State.stored_stored] at h1
      rw [h1, hb, if_neg (by simpa using hx 0 (by omega))]
    · cases rest with
      | nil =>
        have := hok (by simpa using hl)
        rw [State.writeFrom, e]
        exact this
      | cons w rest =>
        have := hok (by simpa using hl)
        rw [State.writeFrom, e, Res.bind_ok, State.interleave_of_agenda_nil (s := s.stored m c) ha,
          Res.bind_ok]
        exact this
    · cases rest with
      | nil => simp at hl
      | cons w rest =>
        rw [show j + (k + 1) = j + 1 + k by omega] at hf ⊢
        have := hraise (by simpa using hl) hf
        rw [State.writeFrom, e, Res.bind_ok, State.interleave_of_agenda_nil (s := s.stored m c) ha,
          Res.bind_ok]
        exact this
    · have hd := State.writeStringByte_drops ht (hw 0 (by omega)).1 e x
      rw [hdrop ht x, State.portionsClear_succ, ← and_assoc]
      exact and_congr hd Iff.rfl

/-- Whether a byte is writable shows in its segment, so where a writable byte is followed by one that is not, its portion
ends. -/
theorem State.endsSegment_of_writable {s : State} (ht : s.cfg.tiled) {x : Word} (h : s.writable x)
    (h1 : s.writeRaises (x + 1)) : s.endsSegment x :=
  State.endsSegment_of_ne ht fun he => by
    have := h1.1
    rw [he, h.1] at this
    cases this

/-- A string written up to its end, or up to a byte that raises: the bytes before are stored, nothing else of memory, and
exactly the entries that cover a RAM byte stored are dropped (20_memory.md R105, R109, R140). -/
theorem State.writeBytes_stores {s : State} {a : Word} {bytes : List Byte} {k : Nat} (ha : s.agenda = [])
    (hk : k ≤ bytes.length) (hl : k ≤ 0x10000) (hw : s.writableRun a k) :
    ∃ m c, c.Sublist s.cache ∧
      (∀ j, j < k → some ((s.stored m c).byteAt (a + BitVec.ofNat 16 j)) = bytes[j]?) ∧
      (∀ x, (∀ j, j < k → x ≠ a + BitVec.ofNat 16 j) → (s.stored m c).byteAt x = s.byteAt x) ∧
      (k = bytes.length → s.writeBytes a bytes = .ok () (s.stored m c)) ∧
      (k < bytes.length → s.writeRaises (a + BitVec.ofNat 16 k) →
        s.writeBytes a bytes = .raised ((s.stored m c).raise (.writeFault (a + BitVec.ofNat 16 k)))) ∧
      (s.cfg.tiled → k = bytes.length ∨ s.writeRaises (a + BitVec.ofNat 16 k) →
        DropsExactly s (s.stored m c) fun x => ∃ j, j < k ∧ x = a + BitVec.ofNat 16 j) := by
  obtain ⟨m, c, hc, hb, hx, hok, hraise, hd⟩ := State.writeFrom_stores a bytes.length bytes 0 k s ha hk (by omega)
    (fun i hi => by simpa using hw i hi)
  simp only [Nat.zero_add] at hb hx hraise
  refine ⟨m, c, hc, hb, hx, hok, hraise, fun ht hend e => (hd ht e).trans (and_congr_right fun _ => ?_)⟩
  rw [State.portionsClear_iff ht]
  · exact ⟨fun h x ⟨j, hj, hx⟩ hr => by subst hx; exact h j hj hr, fun h j hj hr => h _ ⟨j, hj, rfl⟩ hr⟩
  · cases k with
    | zero => exact .inl rfl
    | succ k =>
      refine .inr (hend.imp (fun h => by omega) fun h => ?_)
      refine State.endsSegment_of_writable ht (hw k (by omega)) ?_
      rwa [Nat.add_sub_cancel,
        show a + BitVec.ofNat 16 k + 1 = a + BitVec.ofNat 16 (k + 1) by rw [BitVec.ofNat_add]; ac_rfl]

theorem DropsExactly.congr {s t : State} {p q : Word → Prop} (h : DropsExactly s t p) (hpq : ∀ x, q x ↔ p x) :
    DropsExactly s t q := fun e => by
  simp only [hpq]
  exact h e

/-- What a byte store to a writable address does. -/
theorem State.writeByte_stores {s : State} {a : Word} (v : Byte) (h : s.writable a) :
    ∃ m c, s.writeByte a v = .ok () (s.stored m c) ∧ c.Sublist s.cache ∧
      (∀ b, (s.stored m c).byteAt b = if b = a then v else s.byteAt b) ∧
      (s.cfg.tiled → DropsExactly s (s.stored m c) fun x => x = a) := by
  obtain ⟨m, c, e, hc, hb⟩ := State.writeStringByte_stores (s := s) (addr := a) (n := 1) (j := 0) v (by simpa using h)
  change s.writeByte a v = .ok () (s.stored m c) at e
  refine ⟨m, c, e, hc, fun b => by simpa [State.stored] using hb b, fun ht x => ?_⟩
  have hd := State.writeStringByte_drops ht (a := a) (n := 1) (j := 0) (v := v) (by simpa using h.1) e x
  rw [hd]
  refine and_congr_right fun _ => ⟨fun k y hy hr => ?_, fun k hr _ p hp => ?_⟩
  · subst hy
    simpa using k (by simpa using hr) (.inl rfl) 0 ⟨Nat.le_refl _, fun m _ hm => absurd hm (by omega)⟩
  · obtain rfl : p = 0 := by have := hp.1; omega
    exact k _ (by simp) (by simpa using hr)

theorem State.writeByte_of_writeRaises {s : State} {a : Word} (v : Byte) (h : s.writeRaises a) :
    s.writeByte a v = .raised (s.raise (.writeFault a)) := by
  have := State.writeStringByte_of_writeRaises (s := s) (addr := a) (n := 1) (j := 0) v (by simpa using h)
  simpa [State.writeByte] using this

/-- What a word store does where both bytes are writable and no other agent has a turn (20_memory.md R93, R103). -/
theorem State.writeWord_stores {s : State} {a : Word} (v : Word) (ha : s.agenda = []) (h0 : s.writable a)
    (h1 : s.writable (a + 1)) :
    ∃ m c, s.writeWord a v = .ok () (s.stored m c) ∧ c.Sublist s.cache ∧ (s.stored m c).holdsWord a v ∧
      (∀ x, x ≠ a → x ≠ a + 1 → (s.stored m c).byteAt x = s.byteAt x) ∧
      (s.cfg.tiled → DropsExactly s (s.stored m c) fun x => x = a ∨ x = a + 1) := by
  obtain ⟨m, c, hc, hb, hx, hok, -, hd⟩ := State.writeBytes_stores (a := a) (bytes := [lowByte v, highByte v]) (k := 2) ha
    (by simp) (by omega) (fun i hi => by
      have : i = 0 ∨ i = 1 := by omega
      rcases this with rfl | rfl
      · simpa using h0
      · simpa using h1)
  refine ⟨m, c, hok rfl, hc, ⟨?_, ?_⟩, fun x hx0 hx1 => hx x fun i hi => ?_,
    fun ht => (hd ht (.inl rfl)).congr fun x => ⟨?_, ?_⟩⟩
  · simpa [lowByte] using hb 0 (by omega)
  · simpa [highByte] using hb 1 (by omega)
  · have : i = 0 ∨ i = 1 := by omega
    rcases this with rfl | rfl
    · simpa using hx0
    · simpa using hx1
  · rintro (rfl | rfl)
    · exact ⟨0, by omega, by simp⟩
    · exact ⟨1, by omega, rfl⟩
  · rintro ⟨j, hj, rfl⟩
    have : j = 0 ∨ j = 1 := by omega
    rcases this with rfl | rfl
    · exact .inl (by simp)
    · exact .inr rfl

/-- A word store whose second byte raises leaves the first byte stored, and drops what covers it (20_memory.md R109). -/
theorem State.writeWord_of_writeRaises_second {s : State} {a : Word} (v : Word) (ha : s.agenda = []) (h0 : s.writable a)
    (h1 : s.writeRaises (a + 1)) :
    ∃ m c, s.writeWord a v = .raised ((s.stored m c).raise (.writeFault (a + 1))) ∧
      (s.stored m c).byteAt a = lowByte v ∧ (∀ x, x ≠ a → (s.stored m c).byteAt x = s.byteAt x) ∧
      (s.cfg.tiled → DropsExactly s (s.stored m c) fun x => x = a) := by
  obtain ⟨m, c, -, hb, hx, -, hraise, hd⟩ :=
    State.writeBytes_stores (a := a) (bytes := [lowByte v, highByte v]) (k := 1) ha (by simp) (by omega) (fun i hi => by
      obtain rfl : i = 0 := by omega
      simpa using h0)
  refine ⟨m, c, hraise (by simp) h1, by simpa using hb 0 (by omega), fun x hx0 => hx x fun i hi => ?_,
    fun ht => (hd ht (.inr h1)).congr fun x => ⟨?_, ?_⟩⟩
  · obtain rfl : i = 0 := by omega
    simpa using hx0
  · rintro rfl
    exact ⟨0, by omega, by simp⟩
  · rintro ⟨j, hj, rfl⟩
    obtain rfl : j = 0 := by omega
    simp

theorem State.writeWord_of_writeRaises {s : State} {a : Word} (v : Word) (h : s.writeRaises a) :
    s.writeWord a v = .raised (s.raise (.writeFault a)) := by
  have e := State.writeStringByte_of_writeRaises (s := s) (addr := a) (n := 2) (j := 0) (lowByte v) (by simpa using h)
  show State.writeFrom a 2 0 [lowByte v, highByte v] s = _
  rw [State.writeFrom, e]
  simp

/-- Everything the write of one byte of a string that raises nothing can do (20_memory.md R83 to R86, R105). -/
theorem State.writeStringByte_writesByte {s : State} {a : Word} {n j : Nat} (v : Byte)
    (h : ¬s.writeRaises (a + BitVec.ofNat 16 j)) :
    ∃ u, s.writeStringByte a n j v = .ok () u ∧ s.writesByte a n j v u := by
  cases hc : (s.segmentAt (a + BitVec.ofNat 16 j)).cap.canWrite
  · have hp : s.cfg.writeFaultPolicy = .ignore := by
      cases hp : s.cfg.writeFaultPolicy
      · rfl
      · exact absurd ⟨hc, hp⟩ h
    exact ⟨s, by rw [State.writeStringByte_eq]; simp [hc, hp], .inr (.inr (.inr ⟨hc, hp, rfl⟩))⟩
  · cases hk : (s.segmentAt (a + BitVec.ofNat 16 j)).kind.backed
    · rcases s.performWrite_cases (a + BitVec.ofNat 16 j) v with ⟨h1, -⟩ | ⟨h1, h2⟩ | ⟨h1, h2⟩
      · rw [hk] at h1; cases h1
      · refine ⟨_, ?_, .inr (.inl ⟨hc, h1, rfl⟩)⟩
        rw [State.writeStringByte_eq, if_pos hc, h2, State.notify, State.segmentAt_emit, h1]; rfl
      · refine ⟨_, ?_, .inr (.inr (.inl ⟨hc, h1, rfl⟩))⟩
        rw [State.writeStringByte_eq, if_pos hc, h2, State.notify, h1]; rfl
    · obtain ⟨m, c, e, h1, h2⟩ := State.writeStringByte_stores (s := s) (addr := a) (n := n) (j := j) v ⟨hc, hk⟩
      exact ⟨_, e, .inl ⟨⟨hc, hk⟩, rfl, by rw [h2]; simp, fun x hx => by rw [h2, if_neg hx], h1,
        fun ht => State.writeStringByte_drops ht hc e⟩⟩

/-- A byte write changes neither the configuration nor the agenda. -/
theorem State.writesByte.kept {s u : State} {a : Word} {n j : Nat} {v : Byte} (h : s.writesByte a n j v u) :
    u.cfg = s.cfg ∧ u.agenda = s.agenda := by
  rcases h with ⟨-, h, -⟩ | ⟨-, -, h⟩ | ⟨-, -, h⟩ | ⟨-, -, h⟩ <;> rw [h] <;> exact ⟨rfl, rfl⟩

/-- Everything the write of a word can do with no other agent between (20_memory.md R103, R109). -/
theorem State.writeWord_writes (s : State) (a v : Word) (k : State → State) :
    WritesWord s a v ((s.writeWord a v).bind fun _ t => .ok () (k t)).outcome k := by
  have e0 : a + BitVec.ofNat 16 0 = a := by simp
  have e1 : a + BitVec.ofNat 16 1 = a + 1 := rfl
  have hw : s.writeWord a v = (s.writeStringByte a 2 0 (v.extractLsb' 0 8)).bind fun _ t =>
      t.interleave.bind fun _ u => u.writeStringByte a 2 1 (v.extractLsb' 8 8) := rfl
  refine ⟨fun ha h0 h1 => ?_, fun h0 => ?_, fun ha h0 h1 => ?_⟩
  · obtain ⟨u, hu, ku⟩ := State.writeStringByte_writesByte (n := 2) (j := 0) (v.extractLsb' 0 8) (e0 ▸ h0)
    have h1' : ¬u.writeRaises (a + BitVec.ofNat 16 1) := by
      rw [e1]; unfold State.writeRaises State.segmentAt; rw [ku.kept.1]; exact h1
    obtain ⟨w, hw', kw⟩ := State.writeStringByte_writesByte (n := 2) (j := 1) (v.extractLsb' 8 8) h1'
    refine ⟨u, w, ku, kw, ?_⟩
    rw [hw, hu, Res.bind_ok, State.interleave_of_agenda_nil (ku.kept.2.trans ha), Res.bind_ok, hw']
    rfl
  · rw [State.writeWord_of_writeRaises v h0]; rfl
  · obtain ⟨u, hu, ku⟩ := State.writeStringByte_writesByte (n := 2) (j := 0) (v.extractLsb' 0 8) (e0 ▸ h0)
    have h1' : u.writeRaises (a + BitVec.ofNat 16 1) := by
      rw [e1]; unfold State.writeRaises State.segmentAt; rw [ku.kept.1]; exact h1
    refine ⟨u, ku, ?_⟩
    rw [hw, hu, Res.bind_ok, State.interleave_of_agenda_nil (ku.kept.2.trans ha), Res.bind_ok,
      State.writeStringByte_of_writeRaises _ h1']
    rfl

/-! ### The stack -/

/-- Push, with no other agent between (10_state.md R39). -/
theorem State.pushWord_stores {s : State} (v : Word) (ha : s.agenda = []) (h0 : s.writable (s.sp - 2))
    (h1 : s.writable (s.sp - 1)) :
    ∃ m c, s.pushWord v = .ok () ((s.setSp (s.sp - 2)).stored m c) ∧ c.Sublist s.cache ∧
      ((s.setSp (s.sp - 2)).stored m c).holdsWord (s.sp - 2) v ∧
      (∀ x, x ≠ s.sp - 2 → x ≠ s.sp - 1 → ((s.setSp (s.sp - 2)).stored m c).byteAt x = s.byteAt x) ∧
      (s.cfg.tiled → DropsExactly s ((s.setSp (s.sp - 2)).stored m c) fun x => x = s.sp - 2 ∨ x = s.sp - 1) := by
  have e : s.sp - 1 = s.sp - 2 + 1 := by bv_omega
  rw [e] at h1 ⊢
  exact State.writeWord_stores (s := s.setSp (s.sp - 2)) v ha h0 h1

theorem State.pushWord_of_writeRaises {s : State} (v : Word) (h : s.writeRaises (s.sp - 2)) :
    s.pushWord v = .raised ((s.setSp (s.sp - 2)).raise (.writeFault (s.sp - 2))) :=
  State.writeWord_of_writeRaises (s := s.setSp (s.sp - 2)) v h

/-- Pop, with no other agent between (10_state.md R39). -/
theorem State.popWord_of_readable {s : State} (ha : s.agenda = []) (h0 : s.readable s.sp) (h1 : s.readable (s.sp + 1)) :
    s.popWord = .ok (s.wordAt s.sp) (s.setSp (s.sp + 2)) := by
  rw [State.popWord, State.readWord_of_readable ha h0 h1]; rfl

theorem State.popWord_of_readRaises {s : State} (h : s.readRaises s.sp) :
    s.popWord = .raised (s.raise (.readFault s.sp)) := by
  rw [State.popWord, State.readWord_of_readRaises h]; rfl

theorem State.popWord_of_readRaises_second {s : State} (ha : s.agenda = []) (h0 : s.readable s.sp)
    (h1 : s.readRaises (s.sp + 1)) : s.popWord = .raised (s.raise (.readFault (s.sp + 1))) := by
  rw [State.popWord, State.readWord_of_readRaises_second ha h0 h1]; rfl

end Sys2Proof.Machine
end

