-- ==== Sys2Proof/Laws/Fetch.lean ====
section
/-! SUPPORT. What the decoders and `getOrCompile` can do (00_scope.md R10, 30_encoding.md R170 to R175, 20_memory.md R135,
R136). -/

namespace Sys2Proof

theorem FatalError.ofDecoder.unsupported (p : Word) : (FatalError.unsupportedInstruction p).ofDecoder := .inl ⟨p, rfl⟩

theorem FatalError.ofDecoder.readFault (p : Word) : (FatalError.readFault p).ofDecoder := .inr ⟨p, rfl⟩

theorem checkOperands_ok {i j : Instr} (h : checkOperands i = .ok j) : j = i ∧ j.wf = true := by
  unfold checkOperands at h
  split at h
  · next hw => cases h; exact ⟨rfl, hw⟩
  · split at h <;> cases h

/-- A word that decodes gives a well-formed micro-operation (30_encoding.md R169). -/
theorem decodeWord_wf {w : UopWord} {i : Instr} (h : decodeWord w = .ok i) : i.wf = true := by
  unfold decodeWord at h
  split at h
  · exact (checkOperands_ok h).2
  · cases h

theorem decodeBytes_wf {l rest : List Byte} {i : Instr} (h : decodeBytes l = .ok (i, rest)) : i.wf = true := by
  unfold decodeBytes at h
  split at h
  · split at h
    · next hw => cases h; exact decodeWord_wf hw
    · cases h
  · cases h

theorem decodeBytes_four {l rest : List Byte} {i : Instr} (hl : l.length = 4) (h : decodeBytes l = .ok (i, rest)) :
    rest = [] := by
  match l, hl with
  | [a, b, c, d], _ =>
    unfold decodeBytes at h
    simp only at h
    split at h
    · cases h; rfl
    · cases h

theorem wfBody_cons (i : Instr) (l : List Instr) :
    wfBody (i :: l) = true ↔ i.wf = true ∧ (l = [] ∨ i.isTerminator = false ∧ wfBody l = true) := by
  cases l with
  | nil => simp [wfBody]
  | cons j l => simp [wfBody, and_assoc]

/-- In a well-formed body every micro-operation is well formed and only the last is a terminator. -/
theorem wfBody_get : ∀ {l : List Instr} {k : Nat} {i : Instr}, wfBody l = true → l[k]? = some i →
    i.wf = true ∧ (i.isTerminator = true → k + 1 = l.length)
  | [], _, _, _, h => by simp at h
  | j :: l, 0, i, hw, h => by
    obtain rfl : j = i := by simpa using h
    obtain ⟨h1, h2⟩ := (wfBody_cons _ _).1 hw
    refine ⟨h1, fun ht => ?_⟩
    rcases h2 with rfl | ⟨h2, -⟩
    · rfl
    · rw [ht] at h2; cases h2
  | j :: l, k + 1, i, hw, h => by
    obtain ⟨-, h2⟩ := (wfBody_cons _ _).1 hw
    have h' : l[k]? = some i := by simpa using h
    rcases h2 with rfl | ⟨-, h2⟩
    · simp at h'
    · obtain ⟨h3, h4⟩ := wfBody_get h2 h'
      exact ⟨h3, fun ht => by simp [h4 ht]⟩

end Sys2Proof

namespace Sys2Proof.Machine

/-! ### Reads of the decoder -/

/-- The state with other answers and draws left. -/
def State.answered (s : State) (l : List Byte) (d : Nat) : State :=
  { s with inputs := l, draws := d }

@[simp] theorem State.answered_answered (s : State) (l l' : List Byte) (d d' : Nat) :
    (s.answered l d).answered l' d' = s.answered l' d' := rfl

@[simp] theorem State.answered_cfg (s : State) (l : List Byte) (d : Nat) : (s.answered l d).cfg = s.cfg := rfl

/-- A byte read uses up answers and draws, or raises; nothing else changes (20_memory.md R83 to R86). -/
theorem State.readByte_effect (s : State) (a : Word) :
    (∃ v l d, s.readByte a = .ok v (s.answered l d)) ∨ s.readByte a = .raised (s.raise (.readFault a)) := by
  rcases s.readByte_cases a with ⟨v, h⟩ | ⟨v, rest, _, h⟩ | h | h
  · exact .inl ⟨v, s.inputs, s.draws, h⟩
  · exact .inl ⟨v, rest, s.draws, h⟩
  · exact .inl ⟨_, s.inputs, s.draws + 1, h⟩
  · exact .inr h

theorem State.readAtomic_effect : ∀ (n : Nat) (a : Word) (s : State),
    (∃ bytes l d, State.readAtomic n a s = .ok bytes (s.answered l d) ∧ bytes.length = n) ∨
      ∃ e l d, e.ofDecoder ∧ State.readAtomic n a s = .raised ((s.answered l d).raise e)
  | 0, _, s => .inl ⟨[], s.inputs, s.draws, rfl, rfl⟩
  | n + 1, a, s => by
    rcases s.readByte_effect a with ⟨v, l, d, h⟩ | h
    · rcases State.readAtomic_effect n (a + 1) (s.answered l d) with ⟨bytes, l', d', h', hl⟩ | ⟨e, l', d', he, h'⟩
      · exact .inl ⟨v :: bytes, l', d', by rw [State.readAtomic, h, Res.bind_ok, h']; rfl, by simp [hl]⟩
      · exact .inr ⟨e, l', d', he, by rw [State.readAtomic, h, Res.bind_ok, h']; rfl⟩
    · exact .inr ⟨_, s.inputs, s.draws, .readFault a, by rw [State.readAtomic, h]; rfl⟩

theorem State.readAtomic_of_readable (s : State) :
    ∀ (n : Nat) (a : Word), s.readableRun a n → State.readAtomic n a s = .ok (s.run a n) s
  | 0, _, _ => rfl
  | n + 1, a, hr => by
    obtain ⟨h0, h1⟩ := State.readableRun_succ hr
    rw [State.readAtomic, State.readByte_of_readable h0, Res.bind_ok, State.readAtomic_of_readable s n (a + 1) h1,
      Res.bind_ok, State.run_succ]

theorem State.run_four (s : State) (p : Word) : s.run p 4 = s.fourBytes p := by
  simp [State.run, State.fourBytes, List.range_succ]

theorem State.readableRun_mono {s : State} {a : Word} {n m : Nat} (h : s.readableRun a m) (hn : n ≤ m) :
    s.readableRun a n :=
  fun j hj => h j (Nat.lt_of_lt_of_le hj hn)

theorem State.readableRun_drop {s : State} {a : Word} {n : Nat} (k : Nat) (h : s.readableRun a (k + n)) :
    s.readableRun (a + BitVec.ofNat 16 k) n := by
  intro j hj
  have := h (k + j) (by omega)
  rwa [BitVec.ofNat_add, ← BitVec.add_assoc] at this

/-! ### The reference decoder -/

/-- Everything forming a body can do (30_encoding.md R170, R171). -/
theorem State.decodeFrom_effect : ∀ (n : Nat) (p : Word) (s : State),
    (∃ body l d, State.decodeFrom n p s = .ok body (s.answered l d) ∧
      (n ≠ 0 → body ≠ []) ∧ body.length ≤ n ∧ wfBody body = true ∧
      (body.length = n ∨ ∃ i, body.getLast? = some i ∧ i.isTerminator = true)) ∨
      ∃ e l d, e.ofDecoder ∧ State.decodeFrom n p s = .raised ((s.answered l d).raise e)
  | 0, _, s => .inl ⟨[], s.inputs, s.draws, rfl, by simp, by simp, rfl, .inl rfl⟩
  | n + 1, p, s => by
    rcases State.readAtomic_effect 4 p s with ⟨bytes, l, d, h, -⟩ | ⟨e, l, d, he, h⟩
    · cases hd : decodeBytes bytes with
      | error e => exact .inr ⟨_, l, d, .unsupported p, by rw [State.decodeFrom, h, Res.bind_ok, hd]⟩
      | ok x =>
        obtain ⟨i, rest⟩ := x
        have hw := decodeBytes_wf hd
        cases ht : i.isTerminator with
        | true =>
          exact .inl ⟨[i], l, d, by rw [State.decodeFrom, h, Res.bind_ok, hd]; simp [ht], by simp, by simp,
            by simp [wfBody, hw], .inr ⟨i, by simp, ht⟩⟩
        | false =>
          rcases State.decodeFrom_effect n (p + 4) (s.answered l d) with
            ⟨body, l', d', h', -, hl, hb, hlast⟩ | ⟨e, l', d', he, h'⟩
          · refine .inl ⟨i :: body, l', d', ?_, by simp, by simp [hl], (wfBody_cons _ _).2 ⟨hw, .inr ⟨ht, hb⟩⟩, ?_⟩
            · rw [State.decodeFrom, h, Res.bind_ok, hd]
              simp only [ht, Bool.false_eq_true, if_false]
              rw [h']
              rfl
            · rcases hlast with hlast | ⟨j, hj, hjt⟩
              · exact .inl (by simp [hlast])
              · exact .inr ⟨j, by rw [List.getLast?_cons, hj]; rfl, hjt⟩
          · refine .inr ⟨e, l', d', he, ?_⟩
            rw [State.decodeFrom, h, Res.bind_ok, hd]
            simp only [ht, Bool.false_eq_true, if_false]
            rw [h']
            rfl
    · exact .inr ⟨e, l, d, he, by rw [State.decodeFrom, h]; rfl⟩

/-- Where the four bytes at `p` can be read, they decide how the body begins (30_encoding.md R170, R171). -/
theorem State.decodeFrom_succ {s : State} {p : Word} (n : Nat) (h : s.readableRun p 4) :
    State.decodeFrom (n + 1) p s =
      match decodeBytes (s.fourBytes p) with
      | .error _ => .raised (s.raise (.unsupportedInstruction p))
      | .ok (i, _) =>
        if i.isTerminator then .ok [i] s
        else (State.decodeFrom n (p + 4) s).bind fun rest s2 => .ok (i :: rest) s2 := by
  cases hd : decodeBytes (s.fourBytes p) <;>
    simp [State.decodeFrom, State.readAtomic_of_readable s 4 p h, State.run_four, hd]

theorem add_ofNat_four (p : Word) (k : Nat) : p + BitVec.ofNat 16 (4 * (k + 1)) = p + 4 + BitVec.ofNat 16 (4 * k) := by
  rw [Nat.mul_add, BitVec.ofNat_add, BitVec.add_comm (BitVec.ofNat 16 (4 * k)), ← BitVec.add_assoc]; rfl

/-- A body formed from readable bytes leaves the state and is what the bytes say. -/
theorem State.decodeFrom_bytes : ∀ (n : Nat) (p : Word) (s t : State) (body : List Instr),
    State.decodeFrom n p s = .ok body t → s.readableRun p (4 * body.length) →
      t = s ∧ ∀ k i, body[k]? = some i → decodeBytes (s.fourBytes (p + BitVec.ofNat 16 (4 * k))) = .ok (i, [])
  | 0, _, _, _, _, h, _ => by cases h; exact ⟨rfl, by simp⟩
  | n + 1, p, s, t, [], h, _ => by
    rcases State.decodeFrom_effect (n + 1) p s with ⟨body, l, d, h', hne, -⟩ | ⟨e, l, d, -, h'⟩
    · rw [h] at h'; cases h'; exact absurd rfl (hne (by simp))
    · rw [h] at h'; cases h'
  | n + 1, p, s, t, j :: body, h, hr => by
    have h4 : s.readableRun p 4 := State.readableRun_mono hr (by simp)
    rw [State.decodeFrom_succ n h4] at h
    cases hd : decodeBytes (s.fourBytes p) with
    | error e => rw [hd] at h; cases h
    | ok x =>
      obtain ⟨i, rest⟩ := x
      obtain rfl := decodeBytes_four rfl hd
      rw [hd] at h
      simp only at h
      split at h
      · cases h
        refine ⟨rfl, fun k i' hk => ?_⟩
        cases k with
        | zero =>
          have e : j = i' := by simpa using hk
          subst e
          simpa using hd
        | succ k => simp at hk
      · cases hb : State.decodeFrom n (p + 4) s with
        | raised u => rw [hb] at h; cases h
        | ok body' t' =>
          rw [hb] at h
          cases h
          have hr' : s.readableRun (p + 4) (4 * body.length) := by
            refine State.readableRun_drop 4 (n := 4 * body.length) (State.readableRun_mono hr (by simp; omega))
          obtain ⟨h1, h2⟩ := State.decodeFrom_bytes n (p + 4) s t body hb hr'
          refine ⟨h1, fun k i' hk => ?_⟩
          cases k with
          | zero =>
            have e : j = i' := by simpa using hk
            subst e
            simpa using hd
          | succ k =>
            rw [add_ofNat_four]
            exact h2 k i' (by simpa using hk)

/-- Everything `RD0` can do: a well-formed block, or a raised error; only answers and draws are used up. -/
theorem State.decodeBlock_effect (s : State) (p : Word) :
    (∃ body l d, s.decodeBlock p = .ok (blockOf p body) (s.answered l d) ∧
      State.decodeFrom (max 1 s.cfg.maxBlockUops) p s = .ok body (s.answered l d) ∧ body ≠ [] ∧
      body.length ≤ max 1 s.cfg.maxBlockUops ∧ wfBody body = true ∧
      (body.length = max 1 s.cfg.maxBlockUops ∨ ∃ i, body.getLast? = some i ∧ i.isTerminator = true)) ∨
      ∃ e l d, e.ofDecoder ∧ s.decodeBlock p = .raised ((s.answered l d).raise e) := by
  rcases State.decodeFrom_effect (max 1 s.cfg.maxBlockUops) p s with ⟨body, l, d, h, h1, h2, h3, h4⟩ | ⟨e, l, d, he, h⟩
  · exact .inl ⟨body, l, d, by rw [State.decodeBlock, h]; rfl, h, h1 (by omega), h2, h3, h4⟩
  · exact .inr ⟨e, l, d, he, by rw [State.decodeBlock, h]; rfl⟩

/-! ### Every decoder, and the caller's own compile function -/

theorem State.decodePlatform_effect (n : Nat) (p : Word) : ∀ (fuel : Nat) (got : List Byte) (s : State),
    (∃ b l d, State.decodePlatform n p fuel got s = .ok b (s.answered l d) ∧ b.address = p) ∨
      ∃ e l d, e.ofDecoder ∧ State.decodePlatform n p fuel got s = .raised ((s.answered l d).raise e)
  | fuel, got, s => by
    unfold State.decodePlatform
    cases Config.decoderMove n p got with
    | block b => exact .inl ⟨_, s.inputs, s.draws, rfl, rfl⟩
    | unsupported q => exact .inr ⟨_, s.inputs, s.draws, .unsupported q, rfl⟩
    | read a =>
      cases fuel with
      | zero => exact .inr ⟨_, s.inputs, s.draws, .unsupported p, rfl⟩
      | succ k =>
        rcases s.readByte_effect a with ⟨v, l, d, h⟩ | h
        · rcases State.decodePlatform_effect n p k (got ++ [v]) (s.answered l d) with
            ⟨b, l', d', h', hb⟩ | ⟨e, l', d', he, h'⟩
          · exact .inl ⟨b, l', d', by simp only [h, Res.bind_ok, h', State.answered_answered], hb⟩
          · exact .inr ⟨e, l', d', he, by simp only [h, Res.bind_ok, h', State.answered_answered]⟩
        · exact .inr ⟨_, s.inputs, s.draws, .readFault a, by simp only [h, Res.bind_raised]; rfl⟩

/-- Everything a compile function can do: a block of the address asked for, or an error of a decoder; only answers and draws
are used up (20_memory.md R135). -/
theorem State.compile_effect (s : State) (f : CompileFn) (p : Word) :
    (∃ b l d, s.compile f p = .ok b (s.answered l d) ∧ b.address = p) ∨
      ∃ e l d, e.ofDecoder ∧ s.compile f p = .raised ((s.answered l d).raise e) := by
  cases f with
  | answers b => exact .inl ⟨_, s.inputs, s.draws, rfl, rfl⟩
  | raises q => exact .inr ⟨_, s.inputs, s.draws, .unsupported q, rfl⟩
  | decoder d =>
    cases d with
    | platform n => exact State.decodePlatform_effect n p _ [] s
    | rd0 =>
      rcases s.decodeBlock_effect p with ⟨body, l, d, h, -⟩ | h
      · exact .inl ⟨_, l, d, h, rfl⟩
      · exact .inr h

theorem Block.admitted_iff {c : Config} {b : Block} : b.admitted (max 1 c.maxBlockUops) = true ↔ b.wf c := by
  simp [Block.admitted, Block.wf, and_assoc]

/-- Everything `getOrCompile` can do (20_memory.md R135, R136). -/
theorem State.getOrCompile_effect (s : State) (f : CompileFn) (a : Word) :
    (∃ e, s.cache.find a = some e ∧ s.getOrCompile f a = .ok e.block { s with cache := s.cache.touch a }) ∨
      (s.cache.find a = none ∧ ∃ b l d, s.compile f a = .ok b (s.answered l d) ∧ b.address = a ∧ b.wf s.cfg ∧
        s.getOrCompile f a = .ok b { s.answered l d with cache := s.cache.insert (entryOf b) }) ∨
      (s.cache.find a = none ∧ ∃ e l d, e.ofDecoder ∧ s.getOrCompile f a = .raised ((s.answered l d).raise e)) := by
  unfold State.getOrCompile
  cases s.cache.find a with
  | some e => exact .inl ⟨e, rfl, rfl⟩
  | none =>
    refine .inr ?_
    rcases s.compile_effect f a with ⟨b, l, d, h, hb⟩ | ⟨e, l, d, he, h⟩ <;> rw [h]
    · by_cases hw : b.wf s.cfg
      · exact .inl ⟨rfl, b, l, d, rfl, hb, hw, if_pos (Block.admitted_iff.2 hw)⟩
      · exact .inr ⟨rfl, _, l, d, .unsupported a, if_neg fun h' => hw (Block.admitted_iff.1 h')⟩
    · exact .inr ⟨rfl, e, l, d, he, rfl⟩

end Sys2Proof.Machine
end

