-- ==== Sys2Proof/Laws/Flags.lean ====
section
/-! SUPPORT. The flags of F one by one, and what writing an ALU result does (10_state.md R36, 40_alu8.md R200, 42_alu16.md
R270). -/

namespace Sys2Proof.Machine

section Pack

variable (s z f5 h f3 pv n c : Bool)

@[simp] theorem flagOf_packFlags_s : flagOf (packFlags s z f5 h f3 pv n c) .s = s := by
  revert s z f5 h f3 pv n c; decide

@[simp] theorem flagOf_packFlags_z : flagOf (packFlags s z f5 h f3 pv n c) .z = z := by
  revert s z f5 h f3 pv n c; decide

@[simp] theorem flagOf_packFlags_f5 : flagOf (packFlags s z f5 h f3 pv n c) .f5 = f5 := by
  revert s z f5 h f3 pv n c; decide

@[simp] theorem flagOf_packFlags_h : flagOf (packFlags s z f5 h f3 pv n c) .h = h := by
  revert s z f5 h f3 pv n c; decide

@[simp] theorem flagOf_packFlags_f3 : flagOf (packFlags s z f5 h f3 pv n c) .f3 = f3 := by
  revert s z f5 h f3 pv n c; decide

@[simp] theorem flagOf_packFlags_pv : flagOf (packFlags s z f5 h f3 pv n c) .pv = pv := by
  revert s z f5 h f3 pv n c; decide

@[simp] theorem flagOf_packFlags_n : flagOf (packFlags s z f5 h f3 pv n c) .n = n := by
  revert s z f5 h f3 pv n c; decide

@[simp] theorem flagOf_packFlags_c : flagOf (packFlags s z f5 h f3 pv n c) .c = c := by
  revert s z f5 h f3 pv n c; decide

end Pack

/-- The flags of a state in which F was just written from a pack of flags. -/
theorem State.flagsAre_set8 (t : State) (s z f5 h f3 pv n c : Bool) :
    (t.set8 .f (packFlags s z f5 h f3 pv n c)).flagsAre s z f5 h f3 pv n c := by
  simp [State.flagsAre, State.flag]

/-- What writing an 8-bit ALU result to a destination other than F does. -/
theorem State.writeAlu8_effect (s : State) {rd : Reg8} (h : rd ≠ .f) (r : Byte) (hc pv n c : Bool) :
    Alu8Effect s (s.writeAlu8 rd ⟨r, resultFlags r hc pv n c⟩) rd r hc pv n c := by
  refine ⟨?_, State.flagsAre_set8 _ _ _ _ _ _ _ _ _, ?_, OnlyRegisters.of_regs s _⟩
  · exact (State.get8_set8_of_ne _ _ h).trans (State.get8_set8_self _ _ _)
  · exact (Regs.set8_kept s.regs rd r).trans (Regs.set8_kept _ .f _)

/-- What writing a 16-bit ALU result to a destination other than AF does. -/
theorem State.writeAlu16_effect (s : State) {rd : Reg16} (h : rd ≠ .af) (r : Word) (hc pv n c : Bool) :
    Alu16Effect s (s.writeAlu16 rd ⟨r, resultFlags r hc pv n c⟩) rd r hc pv n c := by
  refine ⟨?_, State.flagsAre_set8 _ _ _ _ _ _ _ _ _, ?_, OnlyRegisters.of_regs s _⟩
  · show (Regs.set8 (Regs.set16 s.regs rd r) .f _).get16 rd = r
    refine Eq.trans ?_ (Regs.get16_set16_self s.regs rd r)
    cases rd <;> first | exact absurd rfl h | simp [Regs.set8, Regs.get16]
  · exact ((Regs.set16_kept s.regs rd r).trans (Regs.set8_kept _ .f _)).mono (by simp; tauto) (by simp)

/-- The parity of the model is the number of 1 bits being even (00_scope.md R17). -/
theorem parityEven_eq_evenOnes (r : Byte) : parityEven r = evenOnes r := by
  revert r; decide

end Sys2Proof.Machine
end

