-- ==== Sys2Proof/Laws/Step.lean ====
section
/-! SUPPORT. Which turn a step takes (00_scope.md R14, R18, 60_exceptions.md R401; log 5). -/

namespace Sys2Proof.Machine

theorem State.faulted_iff (s : State) : s.faulted = true ↔ ∃ e, s.phase = .faulted e := by
  unfold State.faulted Phase.isFaulted
  cases s.phase <;> simp

/-- A Faulted engine has no step (60_exceptions.md R401). -/
theorem step_of_faulted {s : State} {e : FatalError} (h : s.phase = .faulted e) :
    step s = .fault (.engineFaulted e) := by
  simp [step, State.advance, h]

/-- The agenda's next turn is taken. -/
theorem step_of_agenda {s : State} {t : Turn} {rest : List Turn} (hf : s.faulted = false) (h : s.agenda = t :: rest) :
    step s = State.takeTurn { s with agenda := rest } t := by
  unfold step State.advance
  unfold State.faulted Phase.isFaulted at hf
  cases hp : s.phase <;> simp_all

/-- Where the agenda names none, the default turn is taken. -/
theorem step_of_agenda_nil {s : State} (hf : s.faulted = false) (h : s.agenda = []) :
    step s = s.takeTurn s.defaultTurn := by
  unfold step State.advance
  unfold State.faulted Phase.isFaulted at hf
  cases hp : s.phase <;> simp_all

theorem State.not_faulted_of_enabled {s : State} (h : s.cpuEnabled = true) : s.faulted = false := by
  unfold State.cpuEnabled at h
  unfold State.faulted Phase.isFaulted
  cases hp : s.phase <;> simp_all

/-- A CPU with an enabled step takes the default turn. -/
theorem step_of_cpu {s : State} (hs : s.started = true) (h : s.agenda = []) (he : s.cpuEnabled = true) :
    step s = s.cpuStep := by
  rw [step_of_agenda_nil (State.not_faulted_of_enabled he) h]
  simp [State.defaultTurn, hs, he, State.takeTurn]

/-- A turn of a CPU with an enabled step, named by the agenda or by default. -/
theorem step_of_cpuTurn {s : State} {rest : List Turn} (hs : s.started = true) (he : s.cpuEnabled = true)
    (h : s.cpuTurn rest) : step s = State.cpuStep { s with agenda := rest } := by
  rcases h with h | ⟨h, rfl⟩
  · exact step_of_agenda (State.not_faulted_of_enabled he) h
  · rw [step_of_cpu hs h he, ← h]

/-- A turn of another agent is its step. -/
theorem step_of_other {s : State} {m : Move} {rest : List Turn} (hf : s.faulted = false)
    (h : s.agenda = .other m :: rest) : step s = .next (State.moveStep { s with agenda := rest } m) := by
  rw [step_of_agenda hf h]; rfl

theorem State.moveStep_of_faulted {s : State} (m : Move) (h : s.faulted = true) : s.moveStep m = s := by
  simp [State.moveStep, h]

/-- A CPU turn in phase Execute runs one micro-operation (60_exceptions.md R442). -/
theorem State.cpuStep_execute {s : State} {b : Block} {k : Nat} (hs : s.started = true) (h : s.phase = .execute b k) :
    s.cpuStep = s.cpuExec b k := by
  simp [State.cpuStep, hs, h]

theorem State.cpuStep_fetch {s : State} (hs : s.started = true) (h : s.phase = .fetch) : s.cpuStep = .next s.cpuFetch := by
  simp [State.cpuStep, hs, h]

theorem State.cpuStep_post {s : State} {b : Block} (hs : s.started = true) (h : s.phase = .post b) :
    s.cpuStep = .next (s.cpuPost b) := by
  simp [State.cpuStep, hs, h]

theorem State.cpuStep_wake {s : State} {v : Word} (hs : s.started = true) (h : s.phase = .awaitVector)
    (hv : s.ic.vectorSlot = some v) : s.cpuStep = (s.takeInterrupt v).outcome := by
  simp [State.cpuStep, State.cpuAwait, State.cpuWake, Res.outcome, hs, h, hv]

end Sys2Proof.Machine
end

