-- ==== Sys2Proof/Laws/Invariant.lean ====
section
/-! SUPPORT. That the shared operations keep the invariant of the engine: while a micro-operation runs, and while another
agent acts between its byte accesses, the phase and the controller's hand-over bits stand still. -/

namespace Sys2Proof.Machine

/-- What the operations of a running micro-operation keep besides the invariant: the phase and the vector slot. -/
def State.KeptFrom (s t : State) : Prop :=
  t.Inv ∧ t.phase = s.phase ∧ t.ic.vectorSlot = s.ic.vectorSlot ∧ t.cfg = s.cfg

/-- An operation that answers keeps the invariant, the phase and the slot; one that raises keeps the invariant and leaves
the engine Faulted. -/
def Res.Keeps {α : Type} (s : State) : Res α → Prop
  | .ok _ t => s.KeptFrom t
  | .raised t => t.Inv ∧ t.faulted = true

theorem State.KeptFrom.refl {s : State} (h : s.Inv) : s.KeptFrom s := ⟨h, rfl, rfl, rfl⟩

theorem State.KeptFrom.trans {s t u : State} (h : s.KeptFrom t) (h' : t.KeptFrom u) : s.KeptFrom u :=
  ⟨h'.1, h'.2.1.trans h.2.1, h'.2.2.1.trans h.2.2.1, h'.2.2.2.trans h.2.2.2⟩

theorem Res.Keeps.bind {α β : Type} {s : State} {x : Res α} {k : α → State → Res β} (hx : x.Keeps s)
    (hk : ∀ v t, s.KeptFrom t → (k v t).Keeps t) : (x.bind k).Keeps s := by
  cases x with
  | raised t => exact hx
  | ok v t =>
    have h := hk v t hx
    show (k v t).Keeps s
    cases hkv : k v t with
    | ok w u => rw [hkv] at h; exact State.KeptFrom.trans hx h
    | raised u => rw [hkv] at h; exact h

theorem Res.Keeps.state {α : Type} {s : State} {x : Res α} (hx : x.Keeps s) : x.state.Inv := by
  cases x with
  | ok v t => exact hx.1
  | raised t => exact hx.1

/-! ### Updates of single fields -/

/-- The invariant names the registers only by IM, IFF1 and IFF2. -/
theorem State.Inv.withRegs {s : State} (h : s.Inv) (g : Regs) (hm : g.im ≠ 3) (he : g.iff1 = true → g.iff2 = true) :
    State.Inv { s with regs := g } :=
  { h with mode := hm, enable := he }

theorem State.Inv.set8 {s : State} (h : s.Inv) (x : Reg8) (v : Byte) : (s.set8 x v).Inv := by
  have k := Regs.set8_kept s.regs x v
  exact h.withRegs _ (by rw [k.im]; exact h.mode) (by rw [k.iff1, k.iff2]; exact h.enable)

theorem State.Inv.set16 {s : State} (h : s.Inv) (x : Reg16) (v : Word) : (s.set16 x v).Inv := by
  have k := Regs.set16_kept s.regs x v
  exact h.withRegs _ (by rw [k.im]; exact h.mode) (by rw [k.iff1, k.iff2]; exact h.enable)

theorem State.Inv.setSp {s : State} (h : s.Inv) (v : Word) : (s.setSp v).Inv := h.set16 .sp v

theorem State.Inv.setPc {s : State} (h : s.Inv) (v : Word) : (s.setPc v).Inv := h.set16 .pc v

theorem State.Inv.answered {s : State} (h : s.Inv) (l : List Byte) (d : Nat) : (s.answered l d).Inv :=
  { h with }

theorem State.Inv.agenda {s : State} (h : s.Inv) (l : List Turn) : State.Inv { s with agenda := l } :=
  { h with }

theorem State.Inv.emit {s : State} (h : s.Inv) (hf : s.faulted = false) (e : Event) : (s.emit e).Inv :=
  { h with
    failed := fun x hx => by
      have : s.faulted = true := s.faulted_iff.2 ⟨x, hx⟩
      rw [hf] at this
      cases this }

theorem State.Inv.raise {s : State} (h : s.Inv) (e : FatalError) : (s.raise e).Inv :=
  { h with
    running := trivial
    acknowledged := fun ha => ⟨(h.acknowledged ha).1, rfl⟩
    waiting := fun hw => by cases hw
    failed := fun x hx => by
      cases hx
      exact List.getLast?_concat }

theorem State.Inv.cacheSublist {s : State} (h : s.Inv) {c : Cache} (hc : c.Sublist s.cache) :
    State.Inv { s with cache := c } :=
  { h with
    keys := h.keys.sublist hc
    entries := fun e he => h.entries e (hc.subset he) }

theorem State.Inv.invalidate {s : State} (h : s.Inv) (a : Word) (n : Nat) : (s.invalidate a n).Inv :=
  h.cacheSublist List.filter_sublist

theorem State.faulted_of_phase {s t : State} (h : t.phase = s.phase) : t.faulted = s.faulted := by
  unfold State.faulted; rw [h]

theorem State.KeptFrom.raised {s : State} {α : Type} (h : s.Inv) (e : FatalError) :
    (Res.raised (s.raise e) : Res α).Keeps s :=
  ⟨h.raise e, rfl⟩

/-! ### Byte accesses -/

theorem State.Inv.readByte {s : State} (h : s.Inv) (a : Word) : (s.readByte a).Keeps s := by
  rcases s.readByte_effect a with ⟨v, l, d, e⟩ | e <;> rw [e]
  · exact ⟨h.answered l d, rfl, rfl, rfl⟩
  · exact State.KeptFrom.raised h _

theorem State.Inv.performWrite {s : State} (h : s.Inv) (hf : s.faulted = false) (a : Word) (v : Byte) :
    s.KeptFrom (s.performWrite a v) := by
  rcases s.performWrite_cases a v with ⟨hb, e⟩ | ⟨_, e⟩ | ⟨_, e⟩ <;> rw [e]
  · exact ⟨{ h with memory := Memory.write_wf s.cfg a v hb h.memory }, rfl, rfl, rfl⟩
  · exact ⟨h.emit hf _, rfl, rfl, rfl⟩
  · exact .refl h

theorem State.Inv.writeStringByte {s : State} (h : s.Inv) (hf : s.faulted = false) (a : Word) (n j : Nat) (v : Byte) :
    (s.writeStringByte a n j v).Keeps s := by
  rw [State.writeStringByte_eq]
  split
  · have k := h.performWrite hf (a + BitVec.ofNat 16 j) v
    obtain ⟨c, hc, e⟩ := (s.performWrite (a + BitVec.ofNat 16 j) v).notify_eq (a + BitVec.ofNat 16 j) n j
    rw [e]
    exact ⟨k.1.cacheSublist hc, k.2.1, k.2.2.1, k.2.2.2⟩
  · split
    · exact .refl h
    · exact State.KeptFrom.raised h _

theorem State.Inv.portRead {s : State} (h : s.Inv) (hf : s.faulted = false) (p : Word) : (s.portRead p).Keeps s := by
  unfold State.portRead State.answer State.draw
  cases s.inputs with
  | nil => exact ⟨(h.answered [] (s.draws + 1)).emit hf _, rfl, rfl, rfl⟩
  | cons v rest => exact ⟨(h.answered rest s.draws).emit hf _, rfl, rfl, rfl⟩

/-! ### The cache -/

theorem State.Inv.touch {s : State} (h : s.Inv) (a : Word) : State.Inv { s with cache := s.cache.touch a } :=
  { h with
    keys := Cache.sorted_touch a h.keys
    entries := fun e he => by
      rcases Cache.mem_touch he with he | ⟨x, hx, rfl⟩
      · exact h.entries e he
      · exact h.entries x hx }

/-- `getOrCompile` keeps the invariant and answers a block the cache takes. -/
theorem State.Inv.getOrCompile {s : State} (h : s.Inv) (f : CompileFn) (a : Word) :
    (s.getOrCompile f a).Keeps s ∧ ∀ b t, s.getOrCompile f a = .ok b t → b.wf s.cfg := by
  rcases s.getOrCompile_effect f a with ⟨e, he, hg⟩ | ⟨-, b, l, d, -, -, hw, hg⟩ | ⟨-, e, l, d, -, hg⟩ <;> rw [hg]
  · refine ⟨⟨h.touch a, rfl, rfl, rfl⟩, fun b t hbt => ?_⟩
    cases hbt
    exact (h.entries e (Cache.find_some he).1).1
  · refine ⟨⟨?_, rfl, rfl, rfl⟩, fun b' t' hbt => ?_⟩
    · exact
        { h with
          keys := Cache.sorted_insert (c := s.cache) h.keys
          entries := fun e he => by
            rcases Cache.mem_insert he with rfl | he
            · exact ⟨hw, rfl⟩
            · exact h.entries e he }
    · cases hbt
      exact hw
  · exact ⟨⟨(h.answered l d).raise e, rfl⟩, by intro b t hbt; cases hbt⟩

/-! ### The agents other than the CPU -/

theorem State.Inv.dmaStep {s : State} (h : s.Inv) (hf : s.faulted = false) : s.dmaStep.Inv := by
  have hp := h.pump
  unfold State.dmaStep
  cases hc : s.dma.current with
  | none =>
    cases hq : s.dma.queue with
    | nil => exact h
    | cons op rest =>
      refine { h with pump := ?_ }
      have hw : ∀ x ∈ op :: rest, x.wf = true := hq ▸ hp.1
      show Dma.wf { s.dma with queue := rest, current := some op, locked := op.lockedRanges, buffer := [], i := 0, j := 0 }
      exact ⟨fun x hx => hw x (List.mem_cons_of_mem _ hx), hw op List.mem_cons_self, Nat.zero_le _, Nat.zero_le _, rfl, rfl,
        .inl rfl⟩
  | some op =>
    unfold Dma.wf at hp
    rw [hc] at hp
    obtain ⟨hq, hw, h1, h2, h3, h4, h5⟩ := hp
    simp only
    split
    · next hi =>
      have hj : s.dma.j = 0 := by omega
      unfold State.dmaRead
      rcases s.readByte_effect (op.source + BitVec.ofNat 16 s.dma.i) with ⟨v, l, d, e⟩ | e <;> rw [e]
      · refine { (h.answered l d) with pump := ?_ }
        show Dma.wf { s.dma with buffer := s.dma.buffer ++ [v], i := s.dma.i + 1 }
        unfold Dma.wf
        rw [hc]
        exact ⟨hq, hw, hi, h2, by simp [h3], h4, .inl hj⟩
      · exact h.raise _
    · next hi =>
      have hi : s.dma.i = op.length := by omega
      split
      · next hj =>
        unfold State.dmaWrite
        have k := h.writeStringByte hf op.destination op.length s.dma.j (s.dma.buffer.getD s.dma.j 0)
        rcases s.writeStringByte_effect op.destination op.length s.dma.j (s.dma.buffer.getD s.dma.j 0) with
          ⟨m, c, l, e⟩ | e <;> rw [e] at k ⊢
        · refine { k.1 with pump := ?_ }
          show Dma.wf { s.dma with j := s.dma.j + 1 }
          unfold Dma.wf
          rw [hc]
          exact ⟨hq, hw, h1, hj, h3, h4, .inr hi⟩
        · exact h.raise _
      · exact { h with pump := ⟨hq, rfl, rfl⟩ }

theorem State.Inv.beginJob {s : State} (h : s.Inv) {x : EnvJob} (hx : x.inRange = true → x.wf) : (s.beginJob x).Inv := by
  unfold State.beginJob
  split
  · exact h
  · next hb => exact { h with job := hx (by simp at hb; exact hb.2) }

theorem EnvJob.inRange_iff {x : EnvJob} : x.inRange = true ↔ x.readLength ≤ spaceSize ∧ x.writeLength ≤ spaceSize := by
  simp [EnvJob.inRange]

theorem State.Inv.jobStep {s : State} (h : s.Inv) (hf : s.faulted = false) : s.jobStep.Inv := by
  obtain ⟨hn, hm, h1, h2, h3⟩ := h.job
  unfold State.jobStep
  split
  · next hr =>
    unfold State.jobRead
    rcases s.readByte_effect (s.envJob.readFrom + BitVec.ofNat 16 s.envJob.readCount) with ⟨v, l, d, e⟩ | e <;> rw [e]
    · refine { (h.answered l d) with job := ⟨hn, hm, hr, h2, ?_⟩ }
      show s.envJob.writeLength ≤ (s.envJob.buffer ++ [v]).length + (s.envJob.readLength - (s.envJob.readCount + 1))
      simp only [List.length_append, List.length_singleton]
      omega
    · exact h.raise _
  · split
    · next hw =>
      unfold State.jobWrite
      have k := h.writeStringByte hf s.envJob.writeTo s.envJob.writeLength s.envJob.writeCount
        (s.envJob.buffer.getD s.envJob.writeCount 0)
      rcases s.writeStringByte_effect s.envJob.writeTo s.envJob.writeLength s.envJob.writeCount
        (s.envJob.buffer.getD s.envJob.writeCount 0) with ⟨m, c, l, e⟩ | e <;> rw [e] at k ⊢
      · exact { k.1 with job := ⟨hn, hm, h1, hw, h3⟩ }
      · exact h.raise _
    · exact h

theorem State.Inv.envStep {s : State} (h : s.Inv) (hf : s.faulted = false) (m : EnvMove) : (s.envStep m).Inv := by
  cases m with
  | run => exact { h with }
  | cancel => exact { h with }
  | interrupt v =>
    simp only [State.envStep]
    split
    · exact { h with }
    · exact h
  | halt => exact { h with acknowledged := fun ha => ⟨rfl, (h.acknowledged ha).2⟩ }
  | enqueue op =>
    simp only [State.envStep]
    split
    · exact h
    · next hc =>
      refine { h with pump := ⟨fun x hx => ?_, h.pump.2⟩ }
      rcases List.mem_append.1 hx with hx | hx
      · exact h.pump.1 x hx
      · obtain rfl := List.mem_singleton.1 hx
        simp at hc
        exact hc.2
  | readBytes a n =>
    exact h.beginJob fun hr => ⟨(EnvJob.inRange_iff.1 hr).1, Nat.zero_le _, Nat.zero_le _, Nat.le_refl _, Nat.zero_le _⟩
  | writeBytes a bytes =>
    exact h.beginJob fun hr => ⟨Nat.zero_le _, (EnvJob.inRange_iff.1 hr).2, Nat.le_refl _, Nat.zero_le _, Nat.le_add_right _ _⟩
  | transferBytes x y n =>
    exact h.beginJob fun hr =>
      ⟨(EnvJob.inRange_iff.1 hr).1, (EnvJob.inRange_iff.1 hr).2, Nat.zero_le _, Nat.zero_le _, by
        show n ≤ 0 + (n - 0); omega⟩
  | stringByte => exact h.jobStep hf
  | getOrCompile a f => exact (h.getOrCompile f a).1.state
  | invalidate a n => exact h.invalidate a n
  | disposeDma => exact { h with pump := h.pump }
  | dmaDrainTimeout =>
    simp only [State.envStep]
    split
    · exact h.raise _
    · exact h
  | disposeIc => exact { h with }
  | interruptDrainTimeout =>
    simp only [State.envStep]
    split
    · exact h.raise _
    · exact h

theorem State.Inv.sweepStep {s : State} (h : s.Inv) : s.sweepStep.Inv := by
  unfold State.sweepStep
  split
  · refine { h with keys := Cache.sorted_sweep h.keys, entries := fun e he => ?_ }
    obtain ⟨x, hx, -, rfl⟩ := Cache.mem_sweep.1 he
    exact h.entries x hx
  · exact h

theorem State.runResumeTasks_eq (l : List ResumeTask) : ∀ s : State, State.runResumeTasks l s =
    { s with
      log := s.log ++ l.map fun _ => Event.signalResume
      periphHalted := if l = [] then s.periphHalted else false } := by
  induction l with
  | nil => intro s; simp [State.runResumeTasks]
  | cons t l ih =>
    intro s
    cases t
    rw [State.runResumeTasks, ih]
    simp [State.runResumeTask, State.emit]

theorem State.Inv.icStep {s : State} (h : s.Inv) (hf : s.faulted = false) : s.icStep.Inv := by
  have hn : ∀ e, s.phase ≠ .faulted e := fun e he => by
    have := s.faulted_iff.2 ⟨e, he⟩
    rw [hf] at this
    cases this
  unfold State.icStep
  split
  · split
    · next ha =>
      unfold State.icHandoff
      rw [State.runResumeTasks_eq]
      refine { h with
        vector := rfl
        slot := fun _ => (by simp at ha; exact ha.1)
        peripherals := fun hp => ?_
        failed := fun e he => absurd he (hn e) }
      have hp' : (if s.ic.resumeTasks = [] then s.periphHalted else false) = true := hp
      split at hp'
      · next hr => exact absurd hr (h.peripherals hp')
      · cases hp'
    · exact h
  · next hi =>
    cases hq : s.ic.reqQueue with
    | nil => exact h
    | cons v rest =>
      simp only
      unfold State.icAccept
      split
      · exact { h with
          mode := h.mode
          enable := fun he => by cases he
          vector := rfl
          acknowledged := fun ha => ⟨rfl, (h.acknowledged ha).2⟩ }
      · exact { h with }

/-- The step of another agent keeps the invariant. -/
theorem State.Inv.moveStep {s : State} (h : s.Inv) (m : Move) : (s.moveStep m).Inv := by
  unfold State.moveStep
  split
  · exact h
  · next hf =>
    have hf : s.faulted = false := by simpa using hf
    cases m with
    | dma => exact h.dmaStep hf
    | ic => exact h.icStep hf
    | sweep => exact h.sweepStep
    | env e => exact h.envStep hf e

end Sys2Proof.Machine
end

