-- ==== Sys2Proof/Laws/Interleave.lean ====
section
/-! SUPPORT. What the other agents leave alone, and that the operations with interleaving points keep the invariant
(20_memory.md R112, 60_exceptions.md R407; log 6). -/

namespace Sys2Proof.Machine

/-- What a step of an agent other than the CPU and the interrupt controller leaves alone: the registers, the configuration
and the vector slot; the phase too, unless it raised. -/
structure State.LeavesCpu (s t : State) : Prop where
  phase : t.phase = s.phase ∨ t.faulted = true
  slot  : t.ic.vectorSlot = s.ic.vectorSlot
  cfg   : t.cfg = s.cfg
  regs  : t.regs = s.regs

theorem State.dmaStep_leaves (s : State) : s.LeavesCpu s.dmaStep := by
  unfold State.dmaStep
  cases s.dma.current with
  | none => cases s.dma.queue <;> exact ⟨.inl rfl, rfl, rfl, rfl⟩
  | some op =>
    simp only
    split
    · unfold State.dmaRead
      rcases s.readByte_effect (op.source + BitVec.ofNat 16 s.dma.i) with ⟨v, l, d, e⟩ | e <;> rw [e]
      · exact ⟨.inl rfl, rfl, rfl, rfl⟩
      · exact ⟨.inr rfl, rfl, rfl, rfl⟩
    · split
      · unfold State.dmaWrite
        rcases s.writeStringByte_effect op.destination op.length s.dma.j (s.dma.buffer.getD s.dma.j 0) with
          ⟨m, c, l, e⟩ | e <;> rw [e]
        · exact ⟨.inl rfl, rfl, rfl, rfl⟩
        · exact ⟨.inr rfl, rfl, rfl, rfl⟩
      · exact ⟨.inl rfl, rfl, rfl, rfl⟩

theorem State.getOrCompile_leaves (s : State) (f : CompileFn) (a : Word) : s.LeavesCpu (s.getOrCompile f a).state := by
  rcases s.getOrCompile_effect f a with ⟨e, -, hg⟩ | ⟨-, b, l, d, -, -, -, hg⟩ | ⟨-, e, l, d, -, hg⟩ <;> rw [hg]
  · exact ⟨.inl rfl, rfl, rfl, rfl⟩
  · exact ⟨.inl rfl, rfl, rfl, rfl⟩
  · exact ⟨.inr rfl, rfl, rfl, rfl⟩

theorem State.jobStep_leaves (s : State) : s.LeavesCpu s.jobStep := by
  unfold State.jobStep
  split
  · unfold State.jobRead
    rcases s.readByte_effect (s.envJob.readFrom + BitVec.ofNat 16 s.envJob.readCount) with ⟨v, l, d, e⟩ | e <;> rw [e]
    · exact ⟨.inl rfl, rfl, rfl, rfl⟩
    · exact ⟨.inr rfl, rfl, rfl, rfl⟩
  · split
    · unfold State.jobWrite
      rcases s.writeStringByte_effect s.envJob.writeTo s.envJob.writeLength s.envJob.writeCount
        (s.envJob.buffer.getD s.envJob.writeCount 0) with ⟨m, c, l, e⟩ | e <;> rw [e]
      · exact ⟨.inl rfl, rfl, rfl, rfl⟩
      · exact ⟨.inr rfl, rfl, rfl, rfl⟩
    · exact ⟨.inl rfl, rfl, rfl, rfl⟩

theorem State.envStep_leaves (s : State) (m : EnvMove) : s.LeavesCpu (s.envStep m) := by
  cases m with
  | stringByte => exact s.jobStep_leaves
  | getOrCompile a f => exact s.getOrCompile_leaves f a
  | readBytes | writeBytes | transferBytes =>
    simp only [State.envStep, State.beginJob]
    split <;> exact ⟨.inl rfl, rfl, rfl, rfl⟩
  | interrupt | enqueue =>
    simp only [State.envStep]
    split <;> exact ⟨.inl rfl, rfl, rfl, rfl⟩
  | dmaDrainTimeout | interruptDrainTimeout =>
    simp only [State.envStep]
    split
    · exact ⟨.inr rfl, rfl, rfl, rfl⟩
    · exact ⟨.inl rfl, rfl, rfl, rfl⟩
  | _ => exact ⟨.inl rfl, rfl, rfl, rfl⟩

/-- The agents whose steps may fall inside a micro-operation leave the CPU's part of the state. -/
theorem State.moveStep_leaves (s : State) {m : Move} (hm : m ≠ .ic) : s.LeavesCpu (s.moveStep m) := by
  unfold State.moveStep
  split
  · exact ⟨.inl rfl, rfl, rfl, rfl⟩
  · cases m with
    | dma => exact s.dmaStep_leaves
    | ic => exact absurd rfl hm
    | sweep =>
      simp only [State.sweepStep]
      split <;> exact ⟨.inl rfl, rfl, rfl, rfl⟩
    | env e => exact s.envStep_leaves e

theorem State.LeavesCpu.trans {s t u : State} (h : s.LeavesCpu t) (k : t.LeavesCpu u) : s.LeavesCpu u where
  phase := by
    rcases k.phase with k | k
    · exact h.phase.imp k.trans (State.faulted_of_phase k).trans
    · exact .inr k
  slot := k.slot.trans h.slot
  cfg := k.cfg.trans h.cfg
  regs := k.regs.trans h.regs

/-- The memory accesses of other agents between two byte accesses leave the CPU's part of the state. -/
theorem State.takeTurns_leaves : ∀ (l : List Turn) (s : State), s.LeavesCpu (State.takeTurns l s).state
  | [], _ => ⟨.inl rfl, rfl, rfl, rfl⟩
  | .cpu :: _, _ => ⟨.inl rfl, rfl, rfl, rfl⟩
  | .cpuCancel :: _, _ => ⟨.inl rfl, rfl, rfl, rfl⟩
  | .other m :: rest, s => by
    rw [State.takeTurns]
    split
    · next h =>
      have hm : m ≠ .ic := by rintro rfl; cases h
      obtain ⟨hp, hs, hc, hr⟩ := State.moveStep_leaves { s with agenda := rest } hm
      simp only
      split
      · exact ⟨hp, hs, hc, hr⟩
      · exact State.LeavesCpu.trans ⟨hp, hs, hc, hr⟩ (State.takeTurns_leaves rest _)
    · exact ⟨.inl rfl, rfl, rfl, rfl⟩

theorem State.interleave_leaves (s : State) : s.LeavesCpu s.interleave.state :=
  State.takeTurns_leaves _ _

/-! ### What the point between two byte accesses does -/

theorem State.fallsInside_iff (s : State) (m : Move) : s.fallsInside m = true ↔ s.isAccess m := by
  cases m with
  | dma =>
    cases h : s.dma.current <;> simp [State.fallsInside, State.isAccess, Dma.accesses, h]
  | ic => simp [State.fallsInside, State.isAccess]
  | sweep => simp [State.fallsInside, State.isAccess]
  | env e => cases e <;> simp [State.fallsInside, State.isAccess, EnvMove.accesses]

theorem State.dmaStep_agenda (s : State) : s.dmaStep.agenda = s.agenda := by
  unfold State.dmaStep
  cases s.dma.current with
  | none => cases s.dma.queue <;> rfl
  | some op =>
    simp only
    split
    · unfold State.dmaRead
      rcases s.readByte_effect (op.source + BitVec.ofNat 16 s.dma.i) with ⟨v, l, d, e⟩ | e <;> simp only [e] <;> rfl
    · split
      · unfold State.dmaWrite
        rcases s.writeStringByte_effect op.destination op.length s.dma.j (s.dma.buffer.getD s.dma.j 0) with
          ⟨m, c, l, e⟩ | e <;> simp only [e]
        rfl
      · rfl

theorem State.jobStep_agenda (s : State) : s.jobStep.agenda = s.agenda := by
  unfold State.jobStep
  split
  · unfold State.jobRead
    rcases s.readByte_effect (s.envJob.readFrom + BitVec.ofNat 16 s.envJob.readCount) with ⟨v, l, d, e⟩ | e <;>
      simp only [e] <;> rfl
  · split
    · unfold State.jobWrite
      rcases s.writeStringByte_effect s.envJob.writeTo s.envJob.writeLength s.envJob.writeCount
        (s.envJob.buffer.getD s.envJob.writeCount 0) with ⟨m, c, l, e⟩ | e <;> simp only [e]
      rfl
    · rfl

/-- A memory access of another agent names no turns. -/
theorem State.isAccess.agenda {s : State} {m : Move} (h : s.isAccess m) : (s.moveStep m).agenda = s.agenda := by
  unfold State.moveStep
  split
  · rfl
  · rcases h with ⟨rfl, -⟩ | rfl | ⟨a, n, rfl⟩ | ⟨a, n, rfl⟩ | ⟨a, b, n, rfl⟩
    · exact s.dmaStep_agenda
    · exact s.jobStep_agenda
    all_goals
      simp only [State.envStep, State.beginJob]
      split <;> rfl

theorem State.interleave_of_cpu {s : State} {rest : List Turn} (h : s.agenda = .cpu :: rest) :
    s.interleave = .ok () { s with agenda := rest } := by
  rw [State.interleave, h, State.takeTurns]

theorem State.interleave_of_cpuCancel {s : State} {rest : List Turn} (h : s.agenda = .cpuCancel :: rest) :
    s.interleave = .ok () s := by
  rw [State.interleave, h, State.takeTurns]

/-- A step of another agent that is no memory access waits for the end of the CPU's step (00_scope.md R18). -/
theorem State.interleave_of_step {s : State} {m : Move} {rest : List Turn} (h : s.agenda = .other m :: rest)
    (hm : ¬s.isAccess m) : s.interleave = .ok () s := by
  rw [State.interleave, h, State.takeTurns, if_neg fun k => hm ((s.fallsInside_iff m).1 k)]

/-- A memory access of another agent is taken as that agent's step is; then what follows on the agenda. -/
theorem State.interleave_of_access {s : State} {m : Move} {rest : List Turn} (h : s.agenda = .other m :: rest)
    (hm : s.isAccess m) {t : State} (ht : t = State.moveStep { s with agenda := rest } m) :
    (t.faulted = false → s.interleave = t.interleave) ∧ (t.faulted = true → s.interleave = .raised t) := by
  have ha : t.agenda = rest := ht ▸ State.isAccess.agenda (s := { s with agenda := rest }) hm
  have hi : s.interleave = if t.faulted then .raised t else State.takeTurns rest t := by
    rw [State.interleave, h, State.takeTurns, if_pos ((s.fallsInside_iff m).2 hm), ht]
  constructor <;> intro hf
  · rw [hi, if_neg (by simp [hf]), State.interleave, ha]
  · rw [hi, if_pos hf]

/-- Step DMA-WRITE of the byte `v` to a writable RAM or ROM byte (20_memory.md R124). -/
theorem State.moveStep_dmaWrite {s : State} {op : DmaOp} {v : Byte} (hf : s.faulted = false)
    (hc : s.dma.current = some op) (hi : s.dma.i = op.length) (hj : s.dma.j < op.length)
    (hb : s.dma.buffer[s.dma.j]? = some v) (hw : s.writable (op.destination + BitVec.ofNat 16 s.dma.j)) :
    ∃ m c, s.moveStep .dma = { s with mem := m, cache := c, dma := { s.dma with j := s.dma.j + 1 } } ∧
      ∀ x, State.byteAt { s with mem := m, cache := c } x =
        if x = op.destination + BitVec.ofNat 16 s.dma.j then v else s.byteAt x := by
  obtain ⟨m, c, e, -, hx⟩ := State.writeStringByte_stores (n := op.length) v hw
  refine ⟨m, c, ?_, hx⟩
  have hg : s.dma.buffer.getD s.dma.j 0 = v := by simp [hb]
  simp only [State.moveStep, hf, Bool.false_eq_true, if_false, State.dmaStep, hc, hi, Nat.lt_irrefl, hj, if_true,
    State.dmaWrite, hg, e]

/-- The same between two byte accesses of the CPU, whose turn follows (20_memory.md R113). -/
theorem State.dmaWritesNext.interleave {s : State} {a : Word} {v : Byte} {rest : List Turn} (h : s.dmaWritesNext a v rest)
    (hw : s.writable a) : ∃ m c,
    s.interleave = .ok () { s with agenda := rest, mem := m, cache := c, dma := { s.dma with j := s.dma.j + 1 } } ∧
      ∀ x, State.byteAt { s with mem := m, cache := c } x = if x = a then v else s.byteAt x := by
  obtain ⟨hf, ha, op, hc, hi, hj, hb, rfl⟩ := h
  obtain ⟨m, c, ht, hx⟩ := State.moveStep_dmaWrite (s := { s with agenda := .cpu :: rest }) hf hc hi hj hb hw
  refine ⟨m, c, ?_, hx⟩
  rw [(State.interleave_of_access ha (.inl ⟨rfl, op, hc, .inr hj⟩) ht.symm).1 hf, State.interleave_of_cpu rfl]

/-! ### The invariant at the interleaving points -/

theorem Res.Keeps.base {α : Type} {s t : State} {x : Res α} (h : x.Keeps t) (ht : s.KeptFrom t) : x.Keeps s := by
  cases x with
  | ok v u => exact ht.trans h
  | raised u => exact h

theorem State.Inv.takeTurns : ∀ (l : List Turn) {s : State}, s.Inv → (State.takeTurns l s).Keeps s
  | [], _, h => .refl h
  | .cpu :: _, _, h => ⟨h.agenda _, rfl, rfl, rfl⟩
  | .cpuCancel :: _, _, h => .refl h
  | .other m :: rest, s, h => by
    rw [State.takeTurns]
    split
    · next hi =>
      have hm : m ≠ .ic := by rintro rfl; cases hi
      obtain ⟨hp, hs, hc, -⟩ := State.moveStep_leaves { s with agenda := rest } hm
      have k := (h.agenda rest).moveStep m
      simp only
      split
      · next hx => exact ⟨k, hx⟩
      · next hx => exact Res.Keeps.base (State.Inv.takeTurns rest k) ⟨k, hp.resolve_right hx, hs, hc⟩
    · exact .refl h

theorem State.Inv.interleave {s : State} (h : s.Inv) : s.interleave.Keeps s :=
  State.Inv.takeTurns _ h

theorem State.KeptFrom.notFaulted {s t : State} (h : s.KeptFrom t) (hf : s.faulted = false) : t.faulted = false :=
  (State.faulted_of_phase h.2.1).trans hf

/-! ### Operations of more than one access -/

theorem State.Inv.readWord {s : State} (h : s.Inv) (a : Word) : (s.readWord a).Keeps s :=
  (h.readByte a).bind fun _ _ ht => ht.1.interleave.bind fun _ _ hu => (hu.1.readByte _).bind fun _ _ hx => .refl hx.1

theorem State.Inv.readBytes : ∀ (n : Nat) (a : Word) {s : State}, s.Inv → (State.readBytes n a s).Keeps s
  | 0, _, _, h => .refl h
  | 1, a, _, h => (h.readByte a).bind fun _ _ ht => .refl ht.1
  | n + 2, a, _, h =>
    (h.readByte a).bind fun _ _ ht => ht.1.interleave.bind fun _ _ hu =>
      (State.Inv.readBytes (n + 1) (a + 1) hu.1).bind fun _ _ hx => .refl hx.1

theorem State.Inv.writeFrom (addr : Word) (n : Nat) : ∀ (bytes : List Byte) (j : Nat) {s : State}, s.Inv →
    s.faulted = false → (State.writeFrom addr n j bytes s).Keeps s
  | [], _, _, h, _ => .refl h
  | [_], _, _, h, hf => h.writeStringByte hf _ _ _ _
  | _ :: w :: rest, j, _, h, hf =>
    (h.writeStringByte hf _ _ _ _).bind fun _ _ ht => ht.1.interleave.bind fun _ _ hu =>
      State.Inv.writeFrom addr n (w :: rest) (j + 1) hu.1 (hu.notFaulted (ht.notFaulted hf))

theorem State.Inv.writeWord {s : State} (h : s.Inv) (hf : s.faulted = false) (a v : Word) : (s.writeWord a v).Keeps s :=
  State.Inv.writeFrom _ _ _ _ h hf

theorem State.Inv.writeByte {s : State} (h : s.Inv) (hf : s.faulted = false) (a : Word) (v : Byte) :
    (s.writeByte a v).Keeps s :=
  h.writeStringByte hf _ _ _ _

theorem State.Inv.pushWord {s : State} (h : s.Inv) (hf : s.faulted = false) (v : Word) : (s.pushWord v).Keeps s :=
  Res.Keeps.base (State.Inv.writeWord (s := s.setSp (s.sp - 2)) (h.setSp _) hf (s.sp - 2) v) ⟨h.setSp _, rfl, rfl, rfl⟩

theorem State.Inv.popWord {s : State} (h : s.Inv) : s.popWord.Keeps s :=
  (h.readWord _).bind fun _ _ ht => ⟨ht.1.setSp _, rfl, rfl, rfl⟩

end Sys2Proof.Machine
end

