-- ==== Sys2Proof/Laws/PerInstr.lean ====
section
/-! SUPPORT. The family TableRow: the word of a micro-operation has, under its row's mask, its row's match of
spec/opcode_table.json (30_encoding.md R164, R176). -/

namespace Sys2Proof.Laws.TableRow

theorem byte_masked (v : Byte) : v.setWidth 16 &&& 0xFF00#16 = 0#16 := by
  revert v; decide

theorem two_bits_masked (n : BitVec 2) : n.setWidth 16 &&& 0xFFFC#16 = 0#16 := by
  revert n; decide

theorem three_bits_masked (n : BitVec 3) : n.setWidth 16 &&& 0xFFF8#16 = 0#16 := by
  revert n; decide

/-- The `mask` of the instruction's row of spec/opcode_table.json. -/
def mask : Instr → UopWord
  | .nop => 0xFFFFFFFF
  | .endBlock => 0xFFFFFFFF
  | .halt => 0xFFFFFFFF
  | .haltp => 0xFFFFFFFF
  | .ei => 0xFFFFFFFF
  | .di => 0xFFFFFFFF
  | .im _ => 0xFFFFFFFC
  | .exaf => 0xFFFFFFFF
  | .exx => 0xFFFFFFFF
  | .ldi8 _ _ => 0xFF0FFF00
  | .ldi16 _ _ => 0xFF0F0000
  | .mov8 _ _ => 0xFF00FFFF
  | .mov16 _ _ => 0xFF00FFFF
  | .ldr8 _ _ => 0xFF00FFFF
  | .str8 _ _ => 0xFF00FFFF
  | .ldr16 _ _ => 0xFF00FFFF
  | .str16 _ _ => 0xFF00FFFF
  | .lda8 _ _ => 0xFF0F0000
  | .sta8 _ _ => 0xFFF00000
  | .lda16 _ _ => 0xFF0F0000
  | .sta16 _ _ => 0xFFF00000
  | .push _ => 0xFFF0FFFF
  | .pop _ => 0xFF0FFFFF
  | .xfer _ _ => 0xFF00FFFF
  | .xfern _ _ _ => 0xFF000000
  | .inp _ _ => 0xFF00FFFF
  | .out _ _ => 0xFF00FFFF
  | .add _ _ => 0xFF00FFFF
  | .adc _ _ => 0xFF00FFFF
  | .sub _ _ => 0xFF00FFFF
  | .sbc _ _ => 0xFF00FFFF
  | .and _ _ => 0xFF00FFFF
  | .or _ _ => 0xFF00FFFF
  | .xor _ _ => 0xFF00FFFF
  | .inc _ => 0xFF0FFFFF
  | .dec _ => 0xFF0FFFFF
  | .rl _ => 0xFF0FFFFF
  | .rr _ => 0xFF0FFFFF
  | .rlc _ => 0xFF0FFFFF
  | .rrc _ => 0xFF0FFFFF
  | .sla _ => 0xFF0FFFFF
  | .sra _ => 0xFF0FFFFF
  | .srl _ => 0xFF0FFFFF
  | .daa _ => 0xFF0FFFFF
  | .bit _ _ => 0xFFF0FFF8
  | .add16 _ _ => 0xFF00FFFF
  | .adc16 _ _ => 0xFF00FFFF
  | .sub16 _ _ => 0xFF00FFFF
  | .sbc16 _ _ => 0xFF00FFFF
  | .addi _ _ => 0xFF0FFF00
  | .adci _ _ => 0xFF0FFF00
  | .subi _ _ => 0xFF0FFF00
  | .sbci _ _ => 0xFF0FFF00
  | .andi _ _ => 0xFF0FFF00
  | .ori _ _ => 0xFF0FFF00
  | .xori _ _ => 0xFF0FFF00
  | .jp _ => 0xFFFF0000
  | .jpc _ _ => 0xFF0F0000
  | .jpr _ => 0xFFF0FFFF
  | .call _ => 0xFFFF0000
  | .ret => 0xFFFFFFFF
  | .retn => 0xFFFFFFFF

/-- The `match` of the instruction's row of spec/opcode_table.json. -/
def pattern : Instr → UopWord
  | .nop => 0x00000000
  | .endBlock => 0x01000000
  | .halt => 0x02000000
  | .haltp => 0x03000000
  | .ei => 0x04000000
  | .di => 0x05000000
  | .im _ => 0x06000000
  | .exaf => 0x07000000
  | .exx => 0x08000000
  | .ldi8 _ _ => 0x10000000
  | .ldi16 _ _ => 0x11000000
  | .mov8 _ _ => 0x12000000
  | .mov16 _ _ => 0x13000000
  | .ldr8 _ _ => 0x14000000
  | .str8 _ _ => 0x15000000
  | .ldr16 _ _ => 0x16000000
  | .str16 _ _ => 0x17000000
  | .lda8 _ _ => 0x18000000
  | .sta8 _ _ => 0x19000000
  | .lda16 _ _ => 0x1A000000
  | .sta16 _ _ => 0x1B000000
  | .push _ => 0x1C000000
  | .pop _ => 0x1D000000
  | .xfer _ _ => 0x1E000000
  | .xfern _ _ _ => 0x1F000000
  | .inp _ _ => 0x20000000
  | .out _ _ => 0x21000000
  | .add _ _ => 0x40000000
  | .adc _ _ => 0x41000000
  | .sub _ _ => 0x42000000
  | .sbc _ _ => 0x43000000
  | .and _ _ => 0x44000000
  | .or _ _ => 0x45000000
  | .xor _ _ => 0x46000000
  | .inc _ => 0x48000000
  | .dec _ => 0x49000000
  | .rl _ => 0x4A000000
  | .rr _ => 0x4B000000
  | .rlc _ => 0x4C000000
  | .rrc _ => 0x4D000000
  | .sla _ => 0x4E000000
  | .sra _ => 0x4F000000
  | .srl _ => 0x50000000
  | .daa _ => 0x51000000
  | .bit _ _ => 0x52000000
  | .add16 _ _ => 0x58000000
  | .adc16 _ _ => 0x59000000
  | .sub16 _ _ => 0x5A000000
  | .sbc16 _ _ => 0x5B000000
  | .addi _ _ => 0x60000000
  | .adci _ _ => 0x61000000
  | .subi _ _ => 0x62000000
  | .sbci _ _ => 0x63000000
  | .andi _ _ => 0x64000000
  | .ori _ _ => 0x65000000
  | .xori _ _ => 0x66000000
  | .jp _ => 0x80000000
  | .jpc _ _ => 0x81000000
  | .jpr _ => 0x82000000
  | .call _ => 0x83000000
  | .ret => 0x84000000
  | .retn => 0x85000000

/-- The fixed bits of the instruction's word are those of its row. -/
def Statement (i : Instr) : Prop :=
  encode i &&& mask i = pattern i

theorem nop : Statement .nop := by
  show _ &&& _ = _
  decide

theorem endBlock : Statement .endBlock := by
  show _ &&& _ = _
  decide

theorem halt : Statement .halt := by
  show _ &&& _ = _
  decide

theorem haltp : Statement .haltp := by
  show _ &&& _ = _
  decide

theorem ei : Statement .ei := by
  show _ &&& _ = _
  decide

theorem di : Statement .di := by
  show _ &&& _ = _
  decide

theorem im (n : BitVec 2) : Statement (.im n) := by
  refine (assemble_and_mask _ _ _ _ 0xFF 0xF 0xF 0xFFFC).trans ?_
  simp only [BitVec.ofNat_eq_ofNat, two_bits_masked]; rfl

theorem exaf : Statement .exaf := by
  show _ &&& _ = _
  decide

theorem exx : Statement .exx := by
  show _ &&& _ = _
  decide

theorem ldi8 (rd : Reg8) (imm : Byte) : Statement (.ldi8 rd imm) := by
  refine (assemble_and_mask _ _ _ _ 0xFF 0x0 0xF 0xFF00).trans ?_
  simp only [BitVec.ofNat_eq_ofNat, BitVec.and_zero, byte_masked]; rfl

theorem ldi16 (rd : Reg16) (imm : Word) : Statement (.ldi16 rd imm) := by
  refine (assemble_and_mask _ _ _ _ 0xFF 0x0 0xF 0x0000).trans ?_
  simp only [BitVec.ofNat_eq_ofNat, BitVec.and_zero]; rfl

theorem mov8 (rd rs : Reg8) : Statement (.mov8 rd rs) := by
  refine (assemble_and_mask _ _ _ _ 0xFF 0x0 0x0 0xFFFF).trans ?_
  simp only [BitVec.ofNat_eq_ofNat, BitVec.and_zero]; rfl

theorem mov16 (rd rs : Reg16) : Statement (.mov16 rd rs) := by
  refine (assemble_and_mask _ _ _ _ 0xFF 0x0 0x0 0xFFFF).trans ?_
  simp only [BitVec.ofNat_eq_ofNat, BitVec.and_zero]; rfl

theorem ldr8 (rd : Reg8) (rs : Reg16) : Statement (.ldr8 rd rs) := by
  refine (assemble_and_mask _ _ _ _ 0xFF 0x0 0x0 0xFFFF).trans ?_
  simp only [BitVec.ofNat_eq_ofNat, BitVec.and_zero]; rfl

theorem str8 (rd : Reg16) (rs : Reg8) : Statement (.str8 rd rs) := by
  refine (assemble_and_mask _ _ _ _ 0xFF 0x0 0x0 0xFFFF).trans ?_
  simp only [BitVec.ofNat_eq_ofNat, BitVec.and_zero]; rfl

theorem ldr16 (rd rs : Reg16) : Statement (.ldr16 rd rs) := by
  refine (assemble_and_mask _ _ _ _ 0xFF 0x0 0x0 0xFFFF).trans ?_
  simp only [BitVec.ofNat_eq_ofNat, BitVec.and_zero]; rfl

theorem str16 (rd rs : Reg16) : Statement (.str16 rd rs) := by
  refine (assemble_and_mask _ _ _ _ 0xFF 0x0 0x0 0xFFFF).trans ?_
  simp only [BitVec.ofNat_eq_ofNat, BitVec.and_zero]; rfl

theorem lda8 (rd : Reg8) (addr : Word) : Statement (.lda8 rd addr) := by
  refine (assemble_and_mask _ _ _ _ 0xFF 0x0 0xF 0x0000).trans ?_
  simp only [BitVec.ofNat_eq_ofNat, BitVec.and_zero]; rfl

theorem sta8 (addr : Word) (rs : Reg8) : Statement (.sta8 addr rs) := by
  refine (assemble_and_mask _ _ _ _ 0xFF 0xF 0x0 0x0000).trans ?_
  simp only [BitVec.ofNat_eq_ofNat, BitVec.and_zero]; rfl

theorem lda16 (rd : Reg16) (addr : Word) : Statement (.lda16 rd addr) := by
  refine (assemble_and_mask _ _ _ _ 0xFF 0x0 0xF 0x0000).trans ?_
  simp only [BitVec.ofNat_eq_ofNat, BitVec.and_zero]; rfl

theorem sta16 (addr : Word) (rs : Reg16) : Statement (.sta16 addr rs) := by
  refine (assemble_and_mask _ _ _ _ 0xFF 0xF 0x0 0x0000).trans ?_
  simp only [BitVec.ofNat_eq_ofNat, BitVec.and_zero]; rfl

theorem push (rs : Reg16) : Statement (.push rs) := by
  refine (assemble_and_mask _ _ _ _ 0xFF 0xF 0x0 0xFFFF).trans ?_
  simp only [BitVec.ofNat_eq_ofNat, BitVec.and_zero]; rfl

theorem pop (rd : Reg16) : Statement (.pop rd) := by
  refine (assemble_and_mask _ _ _ _ 0xFF 0x0 0xF 0xFFFF).trans ?_
  simp only [BitVec.ofNat_eq_ofNat, BitVec.and_zero]; rfl

theorem xfer (rd rs : Reg16) : Statement (.xfer rd rs) := by
  refine (assemble_and_mask _ _ _ _ 0xFF 0x0 0x0 0xFFFF).trans ?_
  simp only [BitVec.ofNat_eq_ofNat, BitVec.and_zero]; rfl

theorem xfern (rd rs : Reg16) (len : Word) : Statement (.xfern rd rs len) := by
  refine (assemble_and_mask _ _ _ _ 0xFF 0x0 0x0 0x0000).trans ?_
  simp only [BitVec.ofNat_eq_ofNat, BitVec.and_zero]; rfl

theorem inp (rd : Reg8) (rs : Reg16) : Statement (.inp rd rs) := by
  refine (assemble_and_mask _ _ _ _ 0xFF 0x0 0x0 0xFFFF).trans ?_
  simp only [BitVec.ofNat_eq_ofNat, BitVec.and_zero]; rfl

theorem out (rd : Reg16) (rs : Reg8) : Statement (.out rd rs) := by
  refine (assemble_and_mask _ _ _ _ 0xFF 0x0 0x0 0xFFFF).trans ?_
  simp only [BitVec.ofNat_eq_ofNat, BitVec.and_zero]; rfl

theorem add (rd rs : Reg8) : Statement (.add rd rs) := by
  refine (assemble_and_mask _ _ _ _ 0xFF 0x0 0x0 0xFFFF).trans ?_
  simp only [BitVec.ofNat_eq_ofNat, BitVec.and_zero]; rfl

theorem adc (rd rs : Reg8) : Statement (.adc rd rs) := by
  refine (assemble_and_mask _ _ _ _ 0xFF 0x0 0x0 0xFFFF).trans ?_
  simp only [BitVec.ofNat_eq_ofNat, BitVec.and_zero]; rfl

theorem sub (rd rs : Reg8) : Statement (.sub rd rs) := by
  refine (assemble_and_mask _ _ _ _ 0xFF 0x0 0x0 0xFFFF).trans ?_
  simp only [BitVec.ofNat_eq_ofNat, BitVec.and_zero]; rfl

theorem sbc (rd rs : Reg8) : Statement (.sbc rd rs) := by
  refine (assemble_and_mask _ _ _ _ 0xFF 0x0 0x0 0xFFFF).trans ?_
  simp only [BitVec.ofNat_eq_ofNat, BitVec.and_zero]; rfl

theorem and (rd rs : Reg8) : Statement (.and rd rs) := by
  refine (assemble_and_mask _ _ _ _ 0xFF 0x0 0x0 0xFFFF).trans ?_
  simp only [BitVec.ofNat_eq_ofNat, BitVec.and_zero]; rfl

theorem or (rd rs : Reg8) : Statement (.or rd rs) := by
  refine (assemble_and_mask _ _ _ _ 0xFF 0x0 0x0 0xFFFF).trans ?_
  simp only [BitVec.ofNat_eq_ofNat, BitVec.and_zero]; rfl

theorem xor (rd rs : Reg8) : Statement (.xor rd rs) := by
  refine (assemble_and_mask _ _ _ _ 0xFF 0x0 0x0 0xFFFF).trans ?_
  simp only [BitVec.ofNat_eq_ofNat, BitVec.and_zero]; rfl

theorem inc (rd : Reg8) : Statement (.inc rd) := by
  refine (assemble_and_mask _ _ _ _ 0xFF 0x0 0xF 0xFFFF).trans ?_
  simp only [BitVec.ofNat_eq_ofNat, BitVec.and_zero]; rfl

theorem dec (rd : Reg8) : Statement (.dec rd) := by
  refine (assemble_and_mask _ _ _ _ 0xFF 0x0 0xF 0xFFFF).trans ?_
  simp only [BitVec.ofNat_eq_ofNat, BitVec.and_zero]; rfl

theorem rl (rd : Reg8) : Statement (.rl rd) := by
  refine (assemble_and_mask _ _ _ _ 0xFF 0x0 0xF 0xFFFF).trans ?_
  simp only [BitVec.ofNat_eq_ofNat, BitVec.and_zero]; rfl

theorem rr (rd : Reg8) : Statement (.rr rd) := by
  refine (assemble_and_mask _ _ _ _ 0xFF 0x0 0xF 0xFFFF).trans ?_
  simp only [BitVec.ofNat_eq_ofNat, BitVec.and_zero]; rfl

theorem rlc (rd : Reg8) : Statement (.rlc rd) := by
  refine (assemble_and_mask _ _ _ _ 0xFF 0x0 0xF 0xFFFF).trans ?_
  simp only [BitVec.ofNat_eq_ofNat, BitVec.and_zero]; rfl

theorem rrc (rd : Reg8) : Statement (.rrc rd) := by
  refine (assemble_and_mask _ _ _ _ 0xFF 0x0 0xF 0xFFFF).trans ?_
  simp only [BitVec.ofNat_eq_ofNat, BitVec.and_zero]; rfl

theorem sla (rd : Reg8) : Statement (.sla rd) := by
  refine (assemble_and_mask _ _ _ _ 0xFF 0x0 0xF 0xFFFF).trans ?_
  simp only [BitVec.ofNat_eq_ofNat, BitVec.and_zero]; rfl

theorem sra (rd : Reg8) : Statement (.sra rd) := by
  refine (assemble_and_mask _ _ _ _ 0xFF 0x0 0xF 0xFFFF).trans ?_
  simp only [BitVec.ofNat_eq_ofNat, BitVec.and_zero]; rfl

theorem srl (rd : Reg8) : Statement (.srl rd) := by
  refine (assemble_and_mask _ _ _ _ 0xFF 0x0 0xF 0xFFFF).trans ?_
  simp only [BitVec.ofNat_eq_ofNat, BitVec.and_zero]; rfl

theorem daa (rd : Reg8) : Statement (.daa rd) := by
  refine (assemble_and_mask _ _ _ _ 0xFF 0x0 0xF 0xFFFF).trans ?_
  simp only [BitVec.ofNat_eq_ofNat, BitVec.and_zero]; rfl

theorem bit (n : BitVec 3) (rs : Reg8) : Statement (.bit n rs) := by
  refine (assemble_and_mask _ _ _ _ 0xFF 0xF 0x0 0xFFF8).trans ?_
  simp only [BitVec.ofNat_eq_ofNat, BitVec.and_zero, three_bits_masked]; rfl

theorem add16 (rd rs : Reg16) : Statement (.add16 rd rs) := by
  refine (assemble_and_mask _ _ _ _ 0xFF 0x0 0x0 0xFFFF).trans ?_
  simp only [BitVec.ofNat_eq_ofNat, BitVec.and_zero]; rfl

theorem adc16 (rd rs : Reg16) : Statement (.adc16 rd rs) := by
  refine (assemble_and_mask _ _ _ _ 0xFF 0x0 0x0 0xFFFF).trans ?_
  simp only [BitVec.ofNat_eq_ofNat, BitVec.and_zero]; rfl

theorem sub16 (rd rs : Reg16) : Statement (.sub16 rd rs) := by
  refine (assemble_and_mask _ _ _ _ 0xFF 0x0 0x0 0xFFFF).trans ?_
  simp only [BitVec.ofNat_eq_ofNat, BitVec.and_zero]; rfl

theorem sbc16 (rd rs : Reg16) : Statement (.sbc16 rd rs) := by
  refine (assemble_and_mask _ _ _ _ 0xFF 0x0 0x0 0xFFFF).trans ?_
  simp only [BitVec.ofNat_eq_ofNat, BitVec.and_zero]; rfl

theorem addi (rd : Reg8) (imm : Byte) : Statement (.addi rd imm) := by
  refine (assemble_and_mask _ _ _ _ 0xFF 0x0 0xF 0xFF00).trans ?_
  simp only [BitVec.ofNat_eq_ofNat, BitVec.and_zero, byte_masked]; rfl

theorem adci (rd : Reg8) (imm : Byte) : Statement (.adci rd imm) := by
  refine (assemble_and_mask _ _ _ _ 0xFF 0x0 0xF 0xFF00).trans ?_
  simp only [BitVec.ofNat_eq_ofNat, BitVec.and_zero, byte_masked]; rfl

theorem subi (rd : Reg8) (imm : Byte) : Statement (.subi rd imm) := by
  refine (assemble_and_mask _ _ _ _ 0xFF 0x0 0xF 0xFF00).trans ?_
  simp only [BitVec.ofNat_eq_ofNat, BitVec.and_zero, byte_masked]; rfl

theorem sbci (rd : Reg8) (imm : Byte) : Statement (.sbci rd imm) := by
  refine (assemble_and_mask _ _ _ _ 0xFF 0x0 0xF 0xFF00).trans ?_
  simp only [BitVec.ofNat_eq_ofNat, BitVec.and_zero, byte_masked]; rfl

theorem andi (rd : Reg8) (imm : Byte) : Statement (.andi rd imm) := by
  refine (assemble_and_mask _ _ _ _ 0xFF 0x0 0xF 0xFF00).trans ?_
  simp only [BitVec.ofNat_eq_ofNat, BitVec.and_zero, byte_masked]; rfl

theorem ori (rd : Reg8) (imm : Byte) : Statement (.ori rd imm) := by
  refine (assemble_and_mask _ _ _ _ 0xFF 0x0 0xF 0xFF00).trans ?_
  simp only [BitVec.ofNat_eq_ofNat, BitVec.and_zero, byte_masked]; rfl

theorem xori (rd : Reg8) (imm : Byte) : Statement (.xori rd imm) := by
  refine (assemble_and_mask _ _ _ _ 0xFF 0x0 0xF 0xFF00).trans ?_
  simp only [BitVec.ofNat_eq_ofNat, BitVec.and_zero, byte_masked]; rfl

theorem jp (addr : Word) : Statement (.jp addr) := by
  refine (assemble_and_mask _ _ _ _ 0xFF 0xF 0xF 0x0000).trans ?_
  simp only [BitVec.ofNat_eq_ofNat, BitVec.and_zero]; rfl

theorem jpc (cc : BitVec 4) (addr : Word) : Statement (.jpc cc addr) := by
  refine (assemble_and_mask _ _ _ _ 0xFF 0x0 0xF 0x0000).trans ?_
  simp only [BitVec.ofNat_eq_ofNat, BitVec.and_zero]; rfl

theorem jpr (rs : Reg16) : Statement (.jpr rs) := by
  refine (assemble_and_mask _ _ _ _ 0xFF 0xF 0x0 0xFFFF).trans ?_
  simp only [BitVec.ofNat_eq_ofNat, BitVec.and_zero]; rfl

theorem call (addr : Word) : Statement (.call addr) := by
  refine (assemble_and_mask _ _ _ _ 0xFF 0xF 0xF 0x0000).trans ?_
  simp only [BitVec.ofNat_eq_ofNat, BitVec.and_zero]; rfl

theorem ret : Statement .ret := by
  show _ &&& _ = _
  decide

theorem retn : Statement .retn := by
  show _ &&& _ = _
  decide

end Sys2Proof.Laws.TableRow
end

