-- ==== Sys2Proof/Tests/Slice0.lean ====
section
/-! SUPPORT. The model's own tests: the checks of WellFormed, words decoded, one step of each micro-operation on values of
95_test_vectors.md, and for each statement with hypotheses a state and operands that meet them. -/

open Sys2Proof Sys2Proof.Machine

namespace Sys2Proof.Tests

/-! ### WellFormed refuses (30_encoding.md R168, R169; words of 95_test_vectors.md 2.1) -/

theorem test_refuses_alu_register_to_f : Instr.wf (.add .f .a) = false := by decide
theorem test_refuses_alu_unary_to_f : Instr.wf (.inc .f) = false := by decide
theorem test_refuses_alu_immediate_to_f : Instr.wf (.addi .f 0) = false := by decide
theorem test_refuses_rotate_to_f : Instr.wf (.rl .f) = false := by decide
theorem test_refuses_daa_to_f : Instr.wf (.daa .f) = false := by decide
theorem test_refuses_alu16_to_af : Instr.wf (.add16 .af .hl) = false := by decide
theorem test_refuses_alu16_to_pc : Instr.wf (.sbc16 .pc .hl) = false := by decide
theorem test_refuses_ldi16_to_pc : Instr.wf (.ldi16 .pc 0) = false := by decide
theorem test_refuses_mov16_to_pc : Instr.wf (.mov16 .pc .hl) = false := by decide
theorem test_refuses_ldr16_to_pc : Instr.wf (.ldr16 .pc .hl) = false := by decide
theorem test_refuses_lda16_to_pc : Instr.wf (.lda16 .pc 0) = false := by decide
theorem test_refuses_pop_to_pc : Instr.wf (.pop .pc) = false := by decide
theorem test_refuses_im_3 : Instr.wf (.im 3) = false := by decide

theorem test_allows_odd_operands : (Instr.mov8 .f .f).wf = true ∧ (Instr.ldi16 .af 0).wf = true ∧
    (Instr.add16 .hl .pc).wf = true ∧ (Instr.push .pc).wf = true ∧ (Instr.jpr .pc).wf = true ∧
    (Instr.xfern .pc .pc 0xFFFF).wf = true := by decide

/-! ### Words that are not micro-operations (95_test_vectors.md 2.1) -/

theorem test_illegal_unassigned :
    decodeWord 0x09000000 = .error .unassignedOp ∧
    decodeWord 0x47000000 = .error .unassignedOp ∧
    decodeWord 0x86000000 = .error .unassignedOp ∧
    decodeWord 0xFF000000 = .error .unassignedOp := by decide

theorem test_illegal_must_be_zero :
    decodeWord 0x00000001 = .error .mustBeZero ∧
    decodeWord 0x01000100 = .error .mustBeZero ∧
    decodeWord 0x10760012 = .error .mustBeZero ∧
    decodeWord 0x10700100 = .error .mustBeZero ∧
    decodeWord 0x40700001 = .error .mustBeZero ∧
    decodeWord 0x1C100000 = .error .mustBeZero ∧
    decodeWord 0x80100000 = .error .mustBeZero ∧
    decodeWord 0x81610000 = .error .mustBeZero ∧
    decodeWord 0x52070008 = .error .mustBeZero ∧
    decodeWord 0x06000004 = .error .mustBeZero := by decide

theorem test_illegal_register :
    decodeWord 0x10A00000 = .error .noSuchRegister ∧
    decodeWord 0x127A0000 = .error .noSuchRegister ∧
    decodeWord 0x20780000 = .error .noSuchRegister := by decide

theorem test_illegal_mode :
    decodeWord 0x06000003 = .error .modeThree := by decide

theorem test_illegal_destination :
    decodeWord 0x40670000 = .error .forbiddenDestination ∧
    decodeWord 0x48600000 = .error .forbiddenDestination ∧
    decodeWord 0x60600000 = .error .forbiddenDestination ∧
    decodeWord 0x58420000 = .error .forbiddenDestination ∧
    decodeWord 0x58720000 = .error .forbiddenDestination ∧
    decodeWord 0x11700000 = .error .forbiddenDestination ∧
    decodeWord 0x13720000 = .error .forbiddenDestination ∧
    decodeWord 0x1D700000 = .error .forbiddenDestination := by decide

/-! ### A word of each micro-operation, from 30_encoding.md R164 and R176 -/

theorem test_decode_system :
    decodeWord 0x00000000 = .ok .nop ∧
    decodeWord 0x01000000 = .ok .endBlock ∧
    decodeWord 0x02000000 = .ok .halt ∧
    decodeWord 0x03000000 = .ok .haltp ∧
    decodeWord 0x04000000 = .ok .ei ∧
    decodeWord 0x05000000 = .ok .di ∧
    decodeWord 0x06000002 = .ok (.im 2) ∧
    decodeWord 0x07000000 = .ok .exaf ∧
    decodeWord 0x08000000 = .ok .exx := by decide

theorem test_decode_moves :
    decodeWord 0x1070007F = .ok (.ldi8 .a 0x7F) ∧
    decodeWord 0x11208000 = .ok (.ldi16 .hl 0x8000) ∧
    decodeWord 0x12070000 = .ok (.mov8 .b .a) ∧
    decodeWord 0x13270000 = .ok (.mov16 .hl .pc) := by decide

theorem test_decode_loads_and_stores :
    decodeWord 0x14720000 = .ok (.ldr8 .a .hl) ∧
    decodeWord 0x15270000 = .ok (.str8 .hl .a) ∧
    decodeWord 0x16210000 = .ok (.ldr16 .hl .de) ∧
    decodeWord 0x17210000 = .ok (.str16 .hl .de) ∧
    decodeWord 0x18708000 = .ok (.lda8 .a 0x8000) ∧
    decodeWord 0x19078000 = .ok (.sta8 0x8000 .a) ∧
    decodeWord 0x1A00FFFF = .ok (.lda16 .bc 0xFFFF) ∧
    decodeWord 0x1B02FFFF = .ok (.sta16 0xFFFF .hl) := by decide

theorem test_decode_stack_transfer_ports :
    decodeWord 0x1C000000 = .ok (.push .bc) ∧
    decodeWord 0x1D400000 = .ok (.pop .af) ∧
    decodeWord 0x1E120000 = .ok (.xfer .de .hl) ∧
    decodeWord 0x1F120004 = .ok (.xfern .de .hl 4) ∧
    decodeWord 0x20700000 = .ok (.inp .a .bc) ∧
    decodeWord 0x21070000 = .ok (.out .bc .a) := by decide

theorem test_decode_alu8 :
    decodeWord 0x40700000 = .ok (.add .a .b) ∧
    decodeWord 0x41710000 = .ok (.adc .a .c) ∧
    decodeWord 0x42720000 = .ok (.sub .a .d) ∧
    decodeWord 0x43730000 = .ok (.sbc .a .e) ∧
    decodeWord 0x44740000 = .ok (.and .a .h) ∧
    decodeWord 0x45750000 = .ok (.or .a .l) ∧
    decodeWord 0x46760000 = .ok (.xor .a .f) ∧
    decodeWord 0x48000000 = .ok (.inc .b) ∧
    decodeWord 0x49000000 = .ok (.dec .b) := by decide

theorem test_decode_rotates :
    decodeWord 0x4A100000 = .ok (.rl .c) ∧
    decodeWord 0x4B200000 = .ok (.rr .d) ∧
    decodeWord 0x4C300000 = .ok (.rlc .e) ∧
    decodeWord 0x4D400000 = .ok (.rrc .h) ∧
    decodeWord 0x4E500000 = .ok (.sla .l) ∧
    decodeWord 0x4F700000 = .ok (.sra .a) ∧
    decodeWord 0x50800000 = .ok (.srl .i) ∧
    decodeWord 0x51700000 = .ok (.daa .a) ∧
    decodeWord 0x52070007 = .ok (.bit 7 .a) := by decide

theorem test_decode_alu16 :
    decodeWord 0x58530000 = .ok (.add16 .ix .sp) ∧
    decodeWord 0x59210000 = .ok (.adc16 .hl .de) ∧
    decodeWord 0x5A600000 = .ok (.sub16 .iy .bc) ∧
    decodeWord 0x5B270000 = .ok (.sbc16 .hl .pc) := by decide

theorem test_decode_alu_immediate :
    decodeWord 0x60700001 = .ok (.addi .a 1) ∧
    decodeWord 0x61200000 = .ok (.adci .d 0) ∧
    decodeWord 0x62700015 = .ok (.subi .a 0x15) ∧
    decodeWord 0x63900080 = .ok (.sbci .r 0x80) ∧
    decodeWord 0x6470000F = .ok (.andi .a 0x0F) ∧
    decodeWord 0x657000F0 = .ok (.ori .a 0xF0) ∧
    decodeWord 0x661000FF = .ok (.xori .c 0xFF) := by decide

theorem test_decode_control :
    decodeWord 0x80001234 = .ok (.jp 0x1234) ∧
    decodeWord 0x8160000C = .ok (.jpc 6 0x000C) ∧
    decodeWord 0x82020000 = .ok (.jpr .hl) ∧
    decodeWord 0x83000100 = .ok (.call 0x0100) ∧
    decodeWord 0x84000000 = .ok .ret ∧
    decodeWord 0x85000000 = .ok .retn := by decide

theorem test_decode_memory_image : decodeBytes [0x1B, 0x02, 0xFF, 0xFF, 0x01] = .ok (.sta16 0xFFFF .hl, [0x01]) ∧
    decodeTableWord 32 0x81600008 = some (.jpc 6 0x0008) ∧ decodeTableWord 32 0x47000000 = none := by decide

/-! ### One step of each micro-operation -/

/-- The machine after reset with other registers. -/
def withRegs (f : Regs → Regs) : State :=
  { State.reset with regs := f State.reset.regs }

/-- The machine after reset with A, B and F set. -/
def abf (a b f : Byte) : State :=
  ((State.reset.set8 .a a).set8 .b b).set8 .f f

/-- The machine after reset with HL, DE and F set. -/
def wordsF (hl de : Word) (f : Byte) : State :=
  ((State.reset.set16 .hl hl).set16 .de de).set8 .f f

/-- What a look at the next state shows. -/
def after {α : Type} (o : Host.Outcome State Fault Refusal) (look : State → α) : Option α :=
  match o with
  | .next t => some (look t)
  | _ => none

/-- A and F. -/
def lookAf (t : State) : Byte × Byte :=
  (t.get8 .a, t.get8 .f)

/-- HL and F. -/
def lookHlf (t : State) : Word × Byte :=
  (t.get16 .hl, t.get8 .f)

theorem test_add :
    after (exec (.add .a .b) (abf 0x7F 0x01 0xFF)) lookAf = some (0x80, 0x94) := by decide

theorem test_add_carry :
    after (exec (.add .a .b) (abf 0xFF 0xFF 0x00)) lookAf = some (0xFE, 0xB9) := by decide

theorem test_addi :
    after (exec (.addi .a 0x10) (abf 0x28 0x00 0x00)) lookAf = some (0x38, 0x28) := by decide

theorem test_adc :
    after (exec (.adc .a .b) (abf 0xFF 0xFF 0x01)) lookAf = some (0xFF, 0xB9) := by decide

theorem test_adci :
    after (exec (.adci .a 0x01) (abf 0x7F 0 0xFE)) lookAf = some (0x80, 0x94) := by decide

theorem test_sub :
    after (exec (.sub .a .b) (abf 0x00 0x80 0xFF)) lookAf = some (0x80, 0x87) := by decide

theorem test_subi :
    after (exec (.subi .a 0x15) (abf 0x42 0 0x00)) lookAf = some (0x2D, 0x3A) := by decide

theorem test_sbc :
    after (exec (.sbc .a .b) (abf 0x7F 0x7F 0x01)) lookAf = some (0xFF, 0xBB) := by decide

theorem test_sbci :
    after (exec (.sbci .a 0xFF) (abf 0x00 0 0x01)) lookAf = some (0x00, 0x53) := by decide

theorem test_and :
    after (exec (.and .a .b) (abf 0xA5 0xFF 0x00)) lookAf = some (0xA5, 0xB4) := by decide

theorem test_andi :
    after (exec (.andi .a 0x0F) (abf 0x0F 0 0xFF)) lookAf = some (0x0F, 0x1C) := by decide

theorem test_or :
    after (exec (.or .a .b) (abf 0x0F 0xF0 0x00)) lookAf = some (0xFF, 0xAC) := by decide

theorem test_ori :
    after (exec (.ori .a 0x80) (abf 0x80 0 0xFF)) lookAf = some (0x80, 0x80) := by decide

theorem test_xor :
    after (exec (.xor .a .b) (abf 0x80 0x01 0x00)) lookAf = some (0x81, 0x84) := by decide

theorem test_xori :
    after (exec (.xori .a 0x55) (abf 0xAA 0 0x00)) lookAf = some (0xFF, 0xAC) := by decide

theorem test_inc :
    after (exec (.inc .a) (abf 0x7F 0 0x01)) lookAf = some (0x80, 0x95) := by decide

theorem test_dec :
    after (exec (.dec .a) (abf 0x80 0 0xFE)) lookAf = some (0x7F, 0x3E) := by decide

theorem test_rl :
    after (exec (.rl .a) (abf 0x80 0 0x01)) lookAf = some (0x01, 0x01) := by decide

theorem test_rr :
    after (exec (.rr .a) (abf 0x01 0 0x01)) lookAf = some (0x80, 0x81) := by decide

theorem test_rlc :
    after (exec (.rlc .a) (abf 0xA5 0 0x00)) lookAf = some (0x4B, 0x0D) := by decide

theorem test_rrc :
    after (exec (.rrc .a) (abf 0xA5 0 0x00)) lookAf = some (0xD2, 0x85) := by decide

theorem test_sla :
    after (exec (.sla .a) (abf 0xA5 0 0x01)) lookAf = some (0x4A, 0x09) := by decide

theorem test_sra :
    after (exec (.sra .a) (abf 0xA5 0 0x00)) lookAf = some (0xD2, 0x85) := by decide

theorem test_srl :
    after (exec (.srl .a) (abf 0xA5 0 0x00)) lookAf = some (0x52, 0x01) := by decide

theorem test_daa_add :
    after (exec (.daa .a) (abf 0x9A 0 0x88)) lookAf = some (0x00, 0x55) := by decide

theorem test_daa_subtract :
    after (exec (.daa .a) (abf 0x00 0 0x13)) lookAf = some (0x9A, 0x9F) := by decide

theorem test_bit :
    after (exec (.bit 7 .a) (abf 0x00 0 0x01)) lookAf = some (0x00, 0xD5) := by decide

theorem test_bit_conventional :
    after (exec (.bit 7 .a) { abf 0x80 0 0 with cfg := { Config.default with bitTestSign := .conventional } })
    lookAf = some (0x80, 0x90) := by decide

theorem test_add16 :
    after (exec (.add16 .hl .de) (wordsF 0x7FFF 0x0001 0xFF)) lookHlf = some (0x8000, 0x94) := by decide

theorem test_adc16 :
    after (exec (.adc16 .hl .de) (wordsF 0xFFFF 0xFFFF 0x01)) lookHlf = some (0xFFFF, 0xB9) := by decide

theorem test_sub16 :
    after (exec (.sub16 .hl .de) (wordsF 0x7FFF 0xFFFF 0x00)) lookHlf = some (0x8000, 0x87) := by decide

theorem test_sbc16 :
    after (exec (.sbc16 .hl .de) (wordsF 0x1000 0x0FFF 0x01)) lookHlf = some (0x0000, 0x52) := by decide

theorem test_ldi8_writes_f :
    after (exec (.ldi8 .f 0xFF) (abf 0 0 0)) (fun t => t.get8 .f) = some 0xFF := by decide

theorem test_ldi16_writes_f :
    after (exec (.ldi16 .af 0x12D7) (abf 0 0 0)) lookAf = some (0x12, 0xD7) := by decide

theorem test_mov8_changes_the_pair :
    after (exec (.mov8 .h .l) (wordsF 0x1234 0 0)) (fun t => t.get16 .hl) = some 0x3434 := by decide

theorem test_mov16_reads_pc :
    after (exec (.mov16 .hl .pc) (withRegs fun g => { g with pc := 0x0014 })) (fun t => t.get16 .hl) = some 0x0014 := by decide

theorem test_ldr8 :
    after (exec (.ldr8 .h .hl) (State.poke [0x90] 0x8000 (wordsF 0x8000 0 0))) (fun t => t.get16 .hl) = some 0x9000 := by decide

theorem test_lda8 :
    after (exec (.lda8 .b 0x8000) (State.poke [0x41] 0x8000 State.reset)) (fun t => t.get8 .b) = some 0x41 := by decide

theorem test_ldr16 :
    after (exec (.ldr16 .hl .hl) (State.poke [0x34, 0x12] 0x8000 (wordsF 0x8000 0 0))) (fun t => t.get16 .hl) = some 0x1234 := by decide

theorem test_lda16_wraps :
    after (exec (.lda16 .bc 0xFFFF) (State.poke [0x34, 0x12] 0xFFFF State.reset)) (fun t => t.get16 .bc) = some 0x1234 := by decide

theorem test_str8 :
    after (exec (.str8 .hl .a) ((wordsF 0x8000 0 0).set8 .a 0x5A)) (fun t => t.byteAt 0x8000) = some 0x5A := by decide

theorem test_sta8 :
    after (exec (.sta8 0xFFFF .a) (abf 0x5A 0 0)) (fun t => t.byteAt 0xFFFF) = some 0x5A := by decide

theorem test_str16 :
    after (exec (.str16 .hl .de) (wordsF 0x3FFF 0xBEEF 0)) (fun t => (t.byteAt 0x3FFF, t.byteAt 0x4000)) = some (0xEF, 0xBE) := by decide

theorem test_sta16_wraps :
    after (exec (.sta16 0xFFFF .hl) (wordsF 0xA1B2 0 0)) (fun t => (t.byteAt 0xFFFF, t.byteAt 0)) = some (0xB2, 0xA1) := by decide

theorem test_push_wraps :
    after (exec (.push .bc) ((State.reset.set16 .bc 0x1234).setSp 0x0001))
    (fun t => (t.sp, t.byteAt 0xFFFF, t.byteAt 0)) = some (0xFFFF, 0x34, 0x12) := by decide

theorem test_push_sp :
    after (exec (.push .sp) (State.reset.setSp 0x9000))
    (fun t => (t.sp, t.byteAt 0x8FFE, t.byteAt 0x8FFF)) = some (0x8FFE, 0x00, 0x90) := by decide

theorem test_pop_sp :
    after (exec (.pop .sp) (State.poke [0x34, 0x12] 0x8FFE (State.reset.setSp 0x8FFE))) State.sp = some 0x1234 := by decide

theorem test_pop_af_wraps :
    after (exec (.pop .af) (State.poke [0xCD, 0xAB] 0xFFFF (State.reset.setSp 0xFFFF)))
    (fun t => (lookAf t, t.sp)) = some ((0xAB, 0xCD), 0x0001) := by decide

theorem test_xfer :
    after (exec (.xfer .de .hl) (State.poke [0x77] 0x8000 (wordsF 0x8000 0x9000 0))) (fun t => t.byteAt 0x9000) = some 0x77 := by decide

theorem test_xfern_overlaps :
    after (exec (.xfern .de .hl 3) (State.poke [1, 2, 3] 0x8000 (wordsF 0x8000 0x8001 0)))
    (fun t => [t.byteAt 0x8000, t.byteAt 0x8001, t.byteAt 0x8002, t.byteAt 0x8003]) = some [1, 1, 2, 3] := by decide

theorem test_xfern_wraps :
    after (exec (.xfern .de .hl 4) (State.poke [0xAA, 0xBB, 0xCC, 0xDD] 0xFFFE (wordsF 0xFFFE 0x8010 0)))
    (fun t => [t.byteAt 0x8010, t.byteAt 0x8011, t.byteAt 0x8012, t.byteAt 0x8013]) = some [0xAA, 0xBB, 0xCC, 0xDD] := by decide

theorem test_inp :
    after (exec (.inp .a .bc) { State.reset.set16 .bc 0x00FE with inputs := [0x1F] })
    (fun t => (t.get8 .a, t.log)) = some (0x1F, [.readPort 0x00FE 0x1F]) := by decide

theorem test_out :
    after (exec (.out .bc .a) ((State.reset.set16 .bc 0x00FE).set8 .a 0x07)) State.log = some [.writePort 0x00FE 0x07] := by decide

theorem test_nop :
    after (exec .nop (abf 1 2 3)) lookAf = some (1, 3) := by decide

theorem test_end_block :
    after (exec .endBlock (abf 1 2 3)) lookAf = some (1, 3) := by decide

theorem test_halt_does_nothing_at_execution :
    after (exec .halt State.reset) (fun t => t.ic.halted) = some false := by decide

theorem test_haltp_does_nothing_at_execution :
    after (exec .haltp State.reset) (fun t => (t.periphHalted, t.log)) = some (false, []) := by decide

theorem test_ei :
    after (exec .ei State.reset) (fun t => (t.regs.iff1, t.regs.iff2)) = some (true, true) := by decide

theorem test_di :
    after (exec .di (State.reset.setIff false true)) (fun t => (t.regs.iff1, t.regs.iff2)) = some (false, false) := by decide

theorem test_im :
    after (exec (.im 2) State.reset) (fun t => t.regs.im) = some 2 := by decide

theorem test_exaf :
    after (exec .exaf (withRegs fun g => { g with af0 := ⟨0x11, 0x01⟩, af1 := ⟨0x22, 0x80⟩ })) lookAf = some (0x22, 0x80) := by decide

theorem test_exx :
    after (exec .exx (withRegs fun g => { g with gp1 := ⟨0, 0, 0, 0, 0x90, 0x00⟩ })) (fun t => t.get16 .hl) = some 0x9000 := by decide

theorem test_jp :
    after (exec (.jp 0x1234) State.reset) State.pc = some 0x1234 := by decide

theorem test_jpc_taken :
    after (exec (.jpc 6 0x000C) (abf 0 0 0x00)) State.pc = some 0x000C := by decide

theorem test_jpc_not_taken :
    after (exec (.jpc 7 0x0100) ((abf 0 0 0x80).setPc 0x0018)) State.pc = some 0x0018 := by decide

theorem test_jpr_pc :
    after (exec (.jpr .pc) (State.reset.setPc 0x0014)) State.pc = some 0x0014 := by decide

theorem test_call :
    after (exec (.call 0x0100) ((State.reset.setPc 0x0014).setSp 0x9000))
    (fun t => (t.pc, t.sp, t.byteAt 0x8FFE, t.byteAt 0x8FFF)) = some (0x0100, 0x8FFE, 0x14, 0x00) := by decide

theorem test_ret :
    after (exec .ret (State.poke [0x14, 0x00] 0x8FFE (State.reset.setSp 0x8FFE))) (fun t => (t.pc, t.sp)) =
    some (0x0014, 0x9000) := by decide

theorem test_retn_restores_iff1 :
    after (exec .retn (State.poke [0x08, 0x00] 0x8FFE ((State.reset.setSp 0x8FFE).setIff false true)))
    (fun t => (t.pc, t.sp, t.regs.iff1)) = some (0x0008, 0x9000, true) := by decide

theorem test_retn_keeps_iff1_clear :
    after (exec .retn (State.poke [0x08, 0x00] 0x8FFE ((State.reset.setSp 0x8FFE).setIff false false)))
    (fun t => t.regs.iff1) = some false := by decide

/-! ### Steps of the loop, of the controller and of a fault (95_test_vectors.md 2.8 to 2.10) -/

/-- A platform with a segment of every kind: ROM without Write at 0x0000, RAM at 0x4000, RAM without Read at 0x8000, a
Peripheral at 0x9000, Unused at 0xA000, RAM at 0xB000. -/
def mixedConfig (p : FaultPolicy) : Config :=
  { Config.default with
    segments := [⟨.rom, 0x0000, 0x4000, .read, none⟩, ⟨.ram, 0x4000, 0x4000, .both, none⟩,
      ⟨.ram, 0x8000, 0x1000, .write, none⟩, ⟨.peripheral, 0x9000, 0x1000, .both, none⟩,
      ⟨.unused, 0xA000, 0x1000, .both, none⟩, ⟨.ram, 0xB000, 0x5000, .both, none⟩]
    writeFaultPolicy := p
    readFaultPolicy := p }

/-- The mixed platform, running, with HL, DE and SP set. -/
def mixed (p : FaultPolicy) (hl de sp : Word) : State :=
  ((({ State.resetWith (mixedConfig p) PowerOn.zero with started := true } : State).set16 .hl hl).set16 .de de).setSp sp

/-- The machine after reset, running, with the bytes at 0. -/
def loaded (bytes : List Byte) : State :=
  { State.poke bytes 0 State.reset with started := true }

/-- The phase as a number, for the tests. -/
def phaseNumber : Phase → Nat
  | .fetch => 0
  | .execute _ k => 10 + k
  | .post _ => 1
  | .awaitVector => 2
  | .stopped => 3
  | .faulted e => 100 + e.code

theorem test_mixed_platform_is_valid : configError (mixedConfig .raise).segments = none := by decide

theorem test_store_faults_in_rom : after (exec (.str16 .hl .de) (mixed .raise 0x3FFF 0xBEEF 0)) State.phase =
    some (.faulted (.writeFault 0x3FFF)) := by decide

theorem test_ignored_store_writes_the_rest : after (exec (.str16 .hl .de) (mixed .ignore 0x3FFF 0xBEEF 0))
    (fun t => (t.mem, phaseNumber t.phase)) = some ([(0x4000, 0xBE)], 0) := by decide

theorem test_push_fault_leaves_sp_decremented : after (exec (.push .bc) (mixed .raise 0 0 0x4001))
    (fun t => (t.sp, t.phase, t.mem)) = some (0x3FFF, .faulted (.writeFault 0x3FFF), []) := by decide

theorem test_fetch_forms_a_block : after (step (loaded [0x04, 0, 0, 0, 0x03, 0, 0, 0]))
    (fun t => (t.pc, t.phase)) = some (8, .execute (blockOf 0 [.ei, .haltp]) 0) ∧
    after (step (loaded [0x04, 0, 0, 0, 0x03, 0, 0, 0])) (fun t => t.cache.map CacheEntry.ranges) = some [[⟨0, 7⟩]] := by
  decide

theorem test_illegal_word_stops_the_fetch : after (step (loaded [0x10, 0x70, 0x01, 0x00, 0x09, 0, 0, 0]))
    (fun t => (t.phase, t.pc, t.cache.length, t.log)) = some (.faulted (.unsupportedInstruction 4), 0, 0,
      [.fatal (.unsupportedInstruction 4)]) := by decide

theorem test_request_is_accepted : after (step { State.reset.setIff true true with
      agenda := [.other .ic], ic := { Ic.reset with reqQueue := [0x0038, 0x0040] } })
    (fun t => (t.regs.iff1, t.regs.iff2, t.ic)) = some (false, true, { Ic.reset with
      reqQueue := [0x0040], interrupting := true, halted := true, icVector := some 0x0038 }) := by decide

theorem test_request_is_discarded : after (step { State.reset with
      agenda := [.other .ic], ic := { Ic.reset with reqQueue := [0x0038] } }) State.ic = some Ic.reset := by decide

/-- A vector handed over and not yet taken, and a second one accepted (60_exceptions.md R424). -/
theorem test_handoff_waits_for_an_empty_slot : after (step { State.reset with
      agenda := [.other .ic], ic := { Ic.reset with
        halted := true, interrupting := true, haltAck := true, icVector := some 0x40, vectorSlot := some 0x38 } })
    (fun t => (t.ic.vectorSlot, t.ic.icVector)) = some (some 0x38, some 0x40) := by decide

/-- A store over 0xFFFF drops the block at 0x0000 and keeps the one at 0x0004 (20_memory.md R105, R137). -/
theorem test_wrapping_store_drops_a_block :
    after (exec (.sta16 0xFFFF .hl) { State.reset with
      cache := [entryOf (blockOf 0x0000 [.endBlock]), entryOf (blockOf 0x0004 [.endBlock])] })
    (fun t => t.cache.map fun e => e.block.address) = some [0x0004] := by decide

/-- A call of `getOrCompile` with the caller's own compile function, which answers a block of another address
(20_memory.md R135; log 14). -/
theorem test_compile_function_of_the_caller : after (step { State.reset with
      agenda := [.other (.env (.getOrCompile 0x1000 (.answers (blockOf 0 [.di, .ret]))))] })
    (fun t => t.cache.map fun e => (e.block.address, e.ranges, e.block.body)) =
      some [(0x1000, [⟨0x1000, 0x1007⟩], [.di, .ret])] := by decide

theorem test_compile_function_of_the_caller_raises : after (step { State.reset with
      agenda := [.other (.env (.getOrCompile 0x1000 (.raises 0x1004)))] })
    State.phase = some (.faulted (.unsupportedInstruction 0x1004)) := by decide

/-- Operations that 10_state.md R47 does not admit are not queued (log 25). -/
theorem test_operations_out_of_range :
    after (step { State.reset with agenda := [.other (.env (.enqueue ⟨0, 0, 0x10001, 0, []⟩))] })
      (fun t => t.dma.queue.length) = some 0 ∧
    after (step { State.reset with agenda := [.other (.env (.enqueue ⟨0, 0, 1, 0, [⟨2, 1⟩]⟩))] })
      (fun t => t.dma.queue.length) = some 0 ∧
    after (step { State.reset with agenda := [.other (.env (.enqueue ⟨0, 0, 0x10000, 0, [⟨0, 0xFFFF⟩]⟩))] })
      (fun t => t.dma.queue.length) = some 1 := by decide

theorem test_ranges : rangesOf 0xFFFF 2 = [⟨0xFFFF, 0xFFFF⟩, ⟨0, 0⟩] ∧ rangesOf 0 0x10000 = [⟨0, 0xFFFF⟩] ∧
    rangesOf 0x8000 0 = [] := by decide

theorem test_configuration_errors :
    configError [⟨.ram, 0, 0x8000, .both, none⟩, ⟨.ram, 0x7000, 0x9000, .both, none⟩] =
      some (.addressOverlap 0x7000 0x8000) ∧
    configError [⟨.ram, 0, 0x8000, .both, none⟩, ⟨.ram, 0x8000, 0, .both, none⟩, ⟨.ram, 0x8000, 0x8000, .both, none⟩] =
      some (.invalidSegmentLength 0x8000) ∧
    configError [⟨.ram, 0, 0x10000, .both, some [0]⟩] = some (.initialContentsLength 0) := by decide

/-! ### States and operands that meet the hypotheses of the statements -/

section Witnesses

variable {s : State} {a : Word} {n : Nat}

/-- The check of a readable address. -/
theorem isReadable (h : ((s.segmentAt a).cap.canRead && (s.segmentAt a).kind.backed) = true) : s.readable a := by
  simpa [State.readable] using h

/-- The check of a writable address. -/
theorem isWritable (h : ((s.segmentAt a).cap.canWrite && (s.segmentAt a).kind.backed) = true) : s.writable a := by
  simpa [State.writable] using h

/-- The check of a readable run. -/
theorem isReadableRun (h : (List.range n).all (fun j =>
    (s.segmentAt (a + BitVec.ofNat 16 j)).cap.canRead && (s.segmentAt (a + BitVec.ofNat 16 j)).kind.backed) = true) :
    s.readableRun a n := fun j hj => isReadable (List.all_eq_true.1 h j (List.mem_range.2 hj))

/-- The check of a writable run. -/
theorem isWritableRun (h : (List.range n).all (fun j =>
    (s.segmentAt (a + BitVec.ofNat 16 j)).cap.canWrite && (s.segmentAt (a + BitVec.ofNat 16 j)).kind.backed) = true) :
    s.writableRun a n := fun j hj => isWritable (List.all_eq_true.1 h j (List.mem_range.2 hj))

end Witnesses

theorem witness_DecodingAnEncodedMicroOp : (Instr.xfern .pc .pc 0xFFFF).wf = true := by decide

theorem witness_EncodingADecodedWord : decodeWord 0x81F0FFFF = .ok (.jpc 15 0xFFFF) := by decide

theorem witness_IllegalWordsAreRefused : decodeWord 0xFF000000 = .error .unassignedOp ∧
    (Instr.pop .pc).wf = false ∧ Instr.pop .pc ≠ .im 3 := by decide

theorem witness_PairsAreTheirTwoHalves : Reg16.hl.halves = [.h, .l] ∧ Reg16.af.halves = [.a, .f] := by decide

/-- For the statements about 8-bit results, whose one hypothesis is that the destination is not F. -/
theorem witness_destinations_of_bytes : Reg8.a ≠ .f ∧ Reg8.r ≠ .f := by decide

/-- For the statements about 16-bit results and about moves to 16-bit registers. -/
theorem witness_destinations_of_words : Reg16.hl ≠ .af ∧ Reg16.hl ≠ .pc ∧ Reg16.sp ≠ .af ∧ Reg16.sp ≠ .pc := by decide

theorem witness_OverflowIsSignedOverflow : Reg8.a ≠ .f ∧ Reg16.hl ≠ .af ∧ Reg16.hl ≠ .pc ∧
    (∀ i ∈ [Instr.add .a .b, .addi .a 1, .adc .a .b, .adci .a 1, .sub .a .b, .subi .a 1, .sbc .a .b, .sbci .a 1,
      .add16 .hl .de, .adc16 .hl .de, .sub16 .hl .de, .sbc16 .hl .de], ∃ t, exec i State.reset = .next t) ∧
    ∃ t u, exec (.addi .a 1) State.reset = .next t ∧ exec (.subi .a 1) t = .next u :=
  ⟨by decide, by decide, by decide, by simp only [List.forall_mem_cons]; exact
    ⟨⟨_, rfl⟩, ⟨_, rfl⟩, ⟨_, rfl⟩, ⟨_, rfl⟩, ⟨_, rfl⟩, ⟨_, rfl⟩, ⟨_, rfl⟩, ⟨_, rfl⟩, ⟨_, rfl⟩, ⟨_, rfl⟩, ⟨_, rfl⟩, ⟨_, rfl⟩,
      by simp⟩, ⟨_, _, rfl, rfl⟩⟩

/-- A state for each clause of LoadsByte, at the last or first address of a segment. -/
theorem witness_LoadsOfBytes :
    (mixed .raise 0x7FFF 0 0).readable ((mixed .raise 0x7FFF 0 0).get16 .hl) ∧
    (((mixed .raise 0x9000 0 0).segmentAt 0x9000).cap.canRead = true ∧
      ((mixed .raise 0x9000 0 0).segmentAt 0x9000).kind = .peripheral ∧ (mixed .raise 0x9000 0 0).inputs = []) ∧
    ({ mixed .raise 0x9000 0 0 with inputs := [1] } : State).inputs = 1 :: [] ∧
    (((mixed .raise 0xAFFF 0 0).segmentAt 0xAFFF).cap.canRead = true ∧
      ((mixed .raise 0xAFFF 0 0).segmentAt 0xAFFF).kind = .unused ∧ (mixed .raise 0xAFFF 0 0).cfg.unusedRead = none) ∧
    ({ mixed .raise 0xAFFF 0 0 with cfg := { mixedConfig .raise with unusedRead := some 7 } } : State).cfg.unusedRead =
      some 7 ∧
    (((mixed .ignore 0x8000 0 0).segmentAt 0x8000).cap.canRead = false ∧
      (mixed .ignore 0x8000 0 0).cfg.readFaultPolicy = .ignore) ∧
    (mixed .raise 0x8FFF 0 0).readRaises ((mixed .raise 0x8FFF 0 0).get16 .hl) :=
  ⟨isReadable (by decide), by decide, rfl, by decide, rfl, by decide, ⟨by decide, by decide⟩⟩

theorem witness_LoadsOfWords : Reg16.bc ≠ .pc ∧
    (mixed .raise 0xFFFF 0 0).agenda = [] ∧ (mixed .raise 0xFFFF 0 0).readable 0xFFFF ∧
    (mixed .raise 0xFFFF 0 0).readable (0xFFFF + 1) ∧ (mixed .raise 0x8000 0 0).readRaises 0x8000 ∧
    (mixed .raise 0x7FFF 0 0).agenda = [] ∧ (mixed .raise 0x7FFF 0 0).readable 0x7FFF ∧
    (mixed .raise 0x7FFF 0 0).readRaises (0x7FFF + 1) :=
  ⟨by decide, rfl, isReadable (by decide), isReadable (by decide), ⟨by decide, by decide⟩, rfl, isReadable (by decide),
    ⟨by decide, by decide⟩⟩

theorem witness_StoresOfBytes :
    (mixed .raise 0x4000 0 0).writable ((mixed .raise 0x4000 0 0).get16 .hl) ∧
    (((mixed .raise 0x9FFF 0 0).segmentAt 0x9FFF).cap.canWrite = true ∧
      ((mixed .raise 0x9FFF 0 0).segmentAt 0x9FFF).kind = .peripheral) ∧
    (((mixed .raise 0xA000 0 0).segmentAt 0xA000).cap.canWrite = true ∧
      ((mixed .raise 0xA000 0 0).segmentAt 0xA000).kind = .unused) ∧
    (((mixed .ignore 0x0000 0 0).segmentAt 0x0000).cap.canWrite = false ∧
      (mixed .ignore 0x0000 0 0).cfg.writeFaultPolicy = .ignore) ∧
    (mixed .raise 0x3FFF 0 0).writeRaises ((mixed .raise 0x3FFF 0 0).get16 .hl) :=
  ⟨isWritable (by decide), by decide, by decide, by decide, ⟨by decide, by decide⟩⟩

theorem witness_StoresOfWords : (mixed .raise 0x7FFF 0 0).agenda = [] ∧ (mixed .raise 0x7FFF 0 0).writable 0x7FFF ∧
    (mixed .raise 0x7FFF 0 0).writable (0x7FFF + 1) ∧ (mixed .raise 0x3FFF 0 0).writeRaises 0x3FFF ∧
    (mixed .raise 0xFFFF 0 0).writable 0xFFFF ∧ (mixed .raise 0xFFFF 0 0).writeRaises (0xFFFF + 1) :=
  ⟨rfl, isWritable (by decide), isWritable (by decide), ⟨by decide, by decide⟩, isWritable (by decide),
    ⟨by decide, by decide⟩⟩

/-- The clauses of `WritesWord`: two bytes across the end of a Peripheral and into an Unused segment, and into RAM and
a ROM that ignores the write; a first and a second byte that raise. -/
theorem witness_WritesWord :
    ((mixed .raise 0x9FFF 0 0).agenda = [] ∧ ¬(mixed .raise 0x9FFF 0 0).writeRaises 0x9FFF ∧
      ¬(mixed .raise 0x9FFF 0 0).writeRaises (0x9FFF + 1)) ∧
    ((mixed .ignore 0xFFFF 0 0).agenda = [] ∧ ¬(mixed .ignore 0xFFFF 0 0).writeRaises 0xFFFF ∧
      ¬(mixed .ignore 0xFFFF 0 0).writeRaises (0xFFFF + 1)) ∧
    (mixed .raise 0x0000 0 0).writeRaises 0x0000 ∧
    (mixed .raise 0xFFFF 0 0).agenda = [] ∧ ¬(mixed .raise 0xFFFF 0 0).writeRaises 0xFFFF ∧
      (mixed .raise 0xFFFF 0 0).writeRaises (0xFFFF + 1) :=
  ⟨⟨rfl, fun h => absurd h.1 (by decide), fun h => absurd h.1 (by decide)⟩,
    ⟨rfl, fun h => absurd h.2 (by decide), fun h => absurd h.2 (by decide)⟩,
    ⟨by decide, by decide⟩, rfl, fun h => absurd h.1 (by decide), ⟨by decide, by decide⟩⟩

/-- The same for the stack of PUSH and CALL, SP lowered by 2. -/
theorem witness_stack_pushes_kinds :
    let lowered := fun p sp => (mixed p 0 0 sp).setSp (sp - 2)
    ((lowered .raise 0xA001).agenda = [] ∧ ¬(lowered .raise 0xA001).writeRaises (0xA001 - 2) ∧
      ¬(lowered .raise 0xA001).writeRaises (0xA001 - 2 + 1)) ∧
    ((lowered .ignore 0x0001).agenda = [] ∧ ¬(lowered .ignore 0x0001).writeRaises (0x0001 - 2) ∧
      ¬(lowered .ignore 0x0001).writeRaises (0x0001 - 2 + 1)) ∧
    (lowered .raise 0x4001).writeRaises (0x4001 - 2) ∧
    (lowered .raise 0x0001).agenda = [] ∧ ¬(lowered .raise 0x0001).writeRaises (0x0001 - 2) ∧
      (lowered .raise 0x0001).writeRaises (0x0001 - 2 + 1) :=
  ⟨⟨rfl, fun h => absurd h.1 (by decide), fun h => absurd h.1 (by decide)⟩,
    ⟨rfl, fun h => absurd h.2 (by decide), fun h => absurd h.2 (by decide)⟩,
    ⟨by decide, by decide⟩, rfl, fun h => absurd h.1 (by decide), ⟨by decide, by decide⟩⟩

/-- For PUSH, CALL, and CALL then RET: SP at the bottom of memory, and a stack in ROM. -/
theorem witness_stack_pushes : Reg16.bc ≠ .pc ∧ (mixed .raise 0 0 0x0000).agenda = [] ∧
    (mixed .raise 0 0 0x0000).writable ((mixed .raise 0 0 0x0000).sp - 2) ∧
    (mixed .raise 0 0 0x0000).writable ((mixed .raise 0 0 0x0000).sp - 1) ∧
    (mixed .raise 0 0 0x0000).readable ((mixed .raise 0 0 0x0000).sp - 2) ∧
    (mixed .raise 0 0 0x0000).readable ((mixed .raise 0 0 0x0000).sp - 1) ∧
    (mixed .raise 0 0 0x4001).writeRaises ((mixed .raise 0 0 0x4001).sp - 2) :=
  ⟨by decide, rfl, isWritable (by decide), isWritable (by decide), isReadable (by decide), isReadable (by decide),
    ⟨by decide, by decide⟩⟩

/-- For POP, RET, RETN: SP at the top of memory, in RAM without Read, and one byte below it. -/
theorem witness_stack_pops : Reg16.sp ≠ .pc ∧ Reg16.bc ≠ .sp ∧ (mixed .raise 0 0 0xFFFF).agenda = [] ∧
    (mixed .raise 0 0 0xFFFF).readable (mixed .raise 0 0 0xFFFF).sp ∧
    (mixed .raise 0 0 0xFFFF).readable ((mixed .raise 0 0 0xFFFF).sp + 1) ∧
    (mixed .raise 0 0 0x8000).readRaises (mixed .raise 0 0 0x8000).sp ∧
    (mixed .raise 0 0 0x7FFF).readable (mixed .raise 0 0 0x7FFF).sp ∧
    (mixed .raise 0 0 0x7FFF).readRaises ((mixed .raise 0 0 0x7FFF).sp + 1) :=
  ⟨by decide, by decide, rfl, isReadable (by decide), isReadable (by decide), ⟨by decide, by decide⟩,
    isReadable (by decide), ⟨by decide, by decide⟩⟩

theorem witness_TransferOfAByte : (mixed .raise 0x0000 0xFFFF 0).agenda = [] ∧
    (mixed .raise 0x0000 0xFFFF 0).readable ((mixed .raise 0x0000 0xFFFF 0).get16 .hl) ∧
    (mixed .raise 0x0000 0xFFFF 0).writable ((mixed .raise 0x0000 0xFFFF 0).get16 .de) ∧
    (mixed .raise 0x8000 0x8000 0).readRaises ((mixed .raise 0x8000 0x8000 0).get16 .hl) ∧
    (mixed .raise 0x7FFF 0x0000 0).readable ((mixed .raise 0x7FFF 0x0000 0).get16 .hl) ∧
    (mixed .raise 0x7FFF 0x0000 0).writeRaises ((mixed .raise 0x7FFF 0x0000 0).get16 .de) :=
  ⟨rfl, isReadable (by decide), isWritable (by decide), ⟨by decide, by decide⟩, isReadable (by decide),
    ⟨by decide, by decide⟩⟩

/-- A run that wraps and one that overlaps its source; a fault at index 1 of the reads and at index 2 of the writes. -/
theorem witness_TransferOfABlock : (3 : Word) ≠ 0 ∧ (mixed .raise 0xFFFE 0x7FFE 0).agenda = [] ∧
    (mixed .raise 0xFFFE 0x7FFE 0).readableRun ((mixed .raise 0xFFFE 0x7FFE 0).get16 .hl) (3 : Word).toNat ∧
    (mixed .raise 0xFFFE 0x7FFE 0).writableRun ((mixed .raise 0xFFFE 0x7FFE 0).get16 .de) (3 : Word).toNat ∧
    (mixed .raise 0x4000 0x4001 0).readableRun ((mixed .raise 0x4000 0x4001 0).get16 .hl) (3 : Word).toNat ∧
    (mixed .raise 0x4000 0x4001 0).writableRun ((mixed .raise 0x4000 0x4001 0).get16 .de) (3 : Word).toNat ∧
    1 < (3 : Word).toNat ∧ (mixed .raise 0x7FFF 0xB000 0).readableRun ((mixed .raise 0x7FFF 0xB000 0).get16 .hl) 1 ∧
    (mixed .raise 0x7FFF 0xB000 0).readRaises ((mixed .raise 0x7FFF 0xB000 0).get16 .hl + BitVec.ofNat 16 1) ∧
    2 < (3 : Word).toNat ∧
    (mixed .raise 0x4000 0xFFFE 0).readableRun ((mixed .raise 0x4000 0xFFFE 0).get16 .hl) (3 : Word).toNat ∧
    (mixed .raise 0x4000 0xFFFE 0).writableRun ((mixed .raise 0x4000 0xFFFE 0).get16 .de) 2 ∧
    (mixed .raise 0x4000 0xFFFE 0).writeRaises ((mixed .raise 0x4000 0xFFFE 0).get16 .de + BitVec.ofNat 16 2) :=
  ⟨by decide, rfl, isReadableRun (by decide), isWritableRun (by decide), isReadableRun (by decide),
    isWritableRun (by decide), by decide, isReadableRun (by decide), ⟨by decide, by decide⟩, by decide,
    isReadableRun (by decide), isWritableRun (by decide), ⟨by decide, by decide⟩⟩

theorem witness_PortReadsAndWrites : ({ State.reset with inputs := [0x1F, 0x2F] } : State).inputs = 0x1F :: [0x2F] ∧
    State.reset.inputs = [] := ⟨rfl, rfl⟩

theorem witness_InterruptEnableAndMode : (2 : BitVec 2) ≠ 3 ∧ (0 : BitVec 2) ≠ 3 := by decide

/-- The conditions NC (cc 0) and M (cc 15), each where it holds and where it does not. -/
theorem witness_JumpsWriteThePc :
    ((abf 0 0 0x00).get8 .f).getLsbD ((0 : BitVec 4).toNat % 8) = decide ((0 : BitVec 4).toNat ≥ 8) ∧
    ((abf 0 0 0x01).get8 .f).getLsbD ((0 : BitVec 4).toNat % 8) ≠ decide ((0 : BitVec 4).toNat ≥ 8) ∧
    ((abf 0 0 0x80).get8 .f).getLsbD ((15 : BitVec 4).toNat % 8) = decide ((15 : BitVec 4).toNat ≥ 8) ∧
    ((abf 0 0 0x00).get8 .f).getLsbD ((15 : BitVec 4).toNat % 8) ≠ decide ((15 : BitVec 4).toNat ≥ 8) := by decide

/-- A block of two micro-operations. -/
def twoUops : Block :=
  blockOf 0 [.nop, .endBlock]

/-- The machine after reset, running, in a phase. -/
def inPhase (p : Phase) : State :=
  { State.reset with started := true, phase := p }

theorem witness_StepRunsTheNextMicroOp : (inPhase (.execute twoUops 0)).started = true ∧
    (inPhase (.execute twoUops 0)).phase = .execute twoUops 0 ∧ twoUops.body[0]? = some .nop ∧
    (inPhase (.execute twoUops 0)).agenda = [] ∧
    ({ inPhase (.execute twoUops 0) with agenda := [.cpu] } : State).agenda = .cpu :: [] ∧
    (inPhase (.execute twoUops 0)).faulted = false ∧ 0 + 1 < twoUops.body.length ∧ ¬1 + 1 < twoUops.body.length ∧
    (inPhase (.faulted .dmaDrainTimeout)).faulted = true := by decide

/-- A CPU turn taken by default and one the agenda names: the agenda, and the turns after it. -/
def cpuTurns : List (List Turn × List Turn) :=
  [([], []), ([.cpu, .cpu], [.cpu])]

theorem mem_cpuTurns {x : List Turn × List Turn} (h : x ∈ cpuTurns) : x = ([], []) ∨ x = ([.cpu, .cpu], [.cpu]) := by
  simpa [cpuTurns] using h

theorem cpuTurn_of_mem {s : State} {x : List Turn × List Turn} (h : x ∈ cpuTurns) :
    State.cpuTurn { s with agenda := x.1 } x.2 := by
  obtain rfl | rfl := mem_cpuTurns h
  · exact .inr ⟨rfl, rfl⟩
  · exact .inl rfl

theorem decodes_of_turns {s : State} {a : Word} {r : Except DecodeError (Instr × List Byte)} (l : List Turn)
    (h : decodeBytes (s.fourBytes a) = r) : decodeBytes (State.fourBytes { s with agenda := l } a) = r := h

theorem readableRun_of_turns {s : State} {a : Word} {n : Nat} (l : List Turn) (h : s.readableRun a n) :
    State.readableRun { s with agenda := l } a n := h

theorem next_of_after {α : Type} {o : Host.Outcome State Fault Refusal} {f : State → α} {v : α}
    (h : after o f = some v) : ∃ t, o = .next t ∧ f t = v := by
  cases o with
  | next t => exact ⟨t, rfl, Option.some.inj h⟩
  | fault e => cases h
  | refused e => cases h

/-- END at 0, and a word that is no terminator before it; the turn after the fetch is the CPU's too. -/
theorem witness_BytesAtThePcAreRun : ∀ x ∈ cpuTurns,
    (let s : State := { loaded [0x01, 0, 0, 0] with agenda := x.1 };
      s.cfg.decoder = .rd0 ∧ s.started = true ∧ s.cpuTurn x.2 ∧ s.phase = .fetch ∧ s.cancel = false ∧
      s.cache.find s.pc = none ∧ s.readableRun s.pc 4 ∧ decodeBytes (s.fourBytes s.pc) = .ok (.endBlock, []) ∧
      Instr.endBlock.isTerminator = true) ∧
    (let s : State := { loaded [0x04, 0, 0, 0, 0x01, 0, 0, 0] with agenda := x.1 };
      s.cpuTurn x.2 ∧ s.readableRun s.pc 4 ∧ decodeBytes (s.fourBytes s.pc) = .ok (.ei, []) ∧
      ∃ t, step s = .next t ∧ (t.faulted, t.agenda) = (false, x.2)) := by
  intro x hx
  refine ⟨⟨rfl, rfl, cpuTurn_of_mem hx, rfl, rfl, rfl, readableRun_of_turns x.1 (s := loaded [0x01, 0, 0, 0]) (a := 0)
      (isReadableRun (by decide)), decodes_of_turns x.1 (s := loaded [0x01, 0, 0, 0]) (a := 0) (by decide), rfl⟩,
    cpuTurn_of_mem hx, readableRun_of_turns x.1 (s := loaded [0x04, 0, 0, 0, 0x01, 0, 0, 0]) (a := 0) (isReadableRun (by decide)),
    decodes_of_turns x.1 (s := loaded [0x04, 0, 0, 0, 0x01, 0, 0, 0]) (a := 0) (by decide), ?_⟩
  obtain rfl | rfl := mem_cpuTurns hx
  · exact next_of_after (f := fun t => (t.faulted, t.agenda)) (by decide)
  · exact next_of_after (f := fun t => (t.faulted, t.agenda)) (by decide)

theorem witness_FetchTakesABlock : ∀ x ∈ cpuTurns,
    (∃ s : State, s.started = true ∧ s.cpuTurn x.2 ∧ s.phase = .fetch ∧ s.cancel = true) ∧
    (∃ s : State, s.started = true ∧ s.cpuTurn x.2 ∧ s.phase = .fetch ∧ s.cancel = false ∧
      s.cache.find s.pc = some (entryOf twoUops)) ∧
    (∃ s : State, s.started = true ∧ s.cpuTurn x.2 ∧ s.phase = .fetch ∧ s.cancel = false ∧ s.cache.find s.pc = none ∧
      ∃ b t, State.decode { s with agenda := x.2 } s.cfg.decoder s.pc = .ok b t ∧ b.wf s.cfg) ∧
    ∃ s : State, s.started = true ∧ s.cpuTurn x.2 ∧ s.phase = .fetch ∧ s.cancel = false ∧ s.cache.find s.pc = none ∧
      ∃ t, State.decode { s with agenda := x.2 } s.cfg.decoder s.pc = .raised t :=
  fun x hx => ⟨⟨{ { loaded [] with cancel := true } with agenda := x.1 }, rfl, cpuTurn_of_mem hx, rfl, rfl⟩,
    ⟨{ { loaded [] with cache := [entryOf twoUops] } with agenda := x.1 }, rfl, cpuTurn_of_mem hx, rfl, rfl, rfl⟩,
    ⟨{ loaded [0x01, 0, 0, 0] with agenda := x.1 }, rfl, cpuTurn_of_mem hx, rfl, rfl, rfl, by
      obtain rfl | rfl := mem_cpuTurns hx
      · exact ⟨blockOf 0 [.endBlock], loaded [0x01, 0, 0, 0], rfl, by decide, by decide, by decide, by decide, by decide⟩
      · exact ⟨blockOf 0 [.endBlock], { loaded [0x01, 0, 0, 0] with agenda := [.cpu] }, rfl, by decide, by decide,
          by decide, by decide, by decide⟩⟩,
    ⟨{ loaded [0x09, 0, 0, 0] with agenda := x.1 }, rfl, cpuTurn_of_mem hx, rfl, rfl, rfl, by
      obtain rfl | rfl := mem_cpuTurns hx
      · exact ⟨(loaded [0x09, 0, 0, 0]).raise (.unsupportedInstruction 0), rfl⟩
      · exact ⟨State.raise { loaded [0x09, 0, 0, 0] with agenda := [.cpu] } (.unsupportedInstruction 0), rfl⟩⟩⟩

/-- NOP in the last four bytes before RAM that cannot be read, and PC two bytes before it. -/
theorem witness_FetchTakesABlock_unreadable : ∀ x ∈ cpuTurns,
    (let s : State := { (State.poke [0, 0, 0, 0] 0x7FFC (mixed .raise 0 0 0)).setPc 0x7FFC with agenda := x.1 };
      s.started = true ∧ s.cpuTurn x.2 ∧ s.phase = .fetch ∧ s.cancel = false ∧ s.cache.find s.pc = none ∧
      s.cfg.decoder = .rd0 ∧ 1 < max 1 s.cfg.maxBlockUops ∧ 0 < 4 ∧ s.readableRun s.pc (4 * 1 + 0) ∧
      (∀ m, m < 1 → ∃ i, decodeBytes (s.fourBytes (s.pc + BitVec.ofNat 16 (4 * m))) = .ok (i, []) ∧
        i.isTerminator = false) ∧ s.readRaises (s.pc + BitVec.ofNat 16 (4 * 1 + 0))) ∧
    (let s : State := { (mixed .raise 0 0 0).setPc 0x7FFE with agenda := x.1 };
      s.cpuTurn x.2 ∧ s.readableRun s.pc (4 * 0 + 2) ∧ s.readRaises (s.pc + BitVec.ofNat 16 (4 * 0 + 2))) := by
  intro x hx
  refine ⟨⟨rfl, cpuTurn_of_mem hx, rfl, rfl, rfl, rfl, ?_, by decide, isReadableRun (by rfl), fun m hm => ?_, rfl, rfl⟩,
    cpuTurn_of_mem hx, isReadableRun (by rfl), rfl, rfl⟩
  · show 1 < max 1 Config.default.maxBlockUops
    decide
  · obtain rfl : m = 0 := by omega
    exact ⟨.nop, decodes_of_turns x.1 (s := (State.poke [0, 0, 0, 0] 0x7FFC (mixed .raise 0 0 0)).setPc 0x7FFC) (a := 0x7FFC)
      (by decide), rfl⟩

/-- A RAM of NOPs and a limit above 0x4000 micro-operations (93_implementation_defined.md U16). -/
def nopsEverywhere (agenda : List Turn) : State :=
  { State.resetWith { Config.default with ramInit := some 0, maxBlockUops := 0x4001 } PowerOn.zero with
    started := true, agenda := agenda }

theorem decodeFrom_nops (agenda : List Turn) (n : Nat) : ∀ p : Word, State.decodeFrom n p (nopsEverywhere agenda) =
    .ok (List.replicate n .nop) (nopsEverywhere agenda) := by
  have hs : ∀ a, (nopsEverywhere agenda).segmentAt a = ⟨.ram, 0, 0x10000, .both, none⟩ := fun _ => rfl
  have hb : ∀ a, (nopsEverywhere agenda).byteAt a = 0 := fun _ => rfl
  induction n with
  | zero => intro p; rfl
  | succ n ih =>
    intro p
    rw [State.decodeFrom_succ n fun j _ => ⟨by rw [hs]; rfl, by rw [hs]; rfl⟩, State.fourBytes, hb, hb, hb, hb]
    show (if Instr.isTerminator .nop then _ else _) = _
    rw [if_neg (by decide), ih]
    rfl

/-- RD0 there gives a block of 0x10004 bytes, which is not admitted. -/
theorem witness_FetchTakesABlock_too_long : ∀ x ∈ cpuTurns,
    let s := nopsEverywhere x.1
    s.started = true ∧ s.cpuTurn x.2 ∧ s.phase = .fetch ∧ s.cancel = false ∧ s.cache.find s.pc = none ∧
      ∃ b t, State.decode { s with agenda := x.2 } s.cfg.decoder s.pc = .ok b t ∧ ¬b.wf s.cfg := by
  intro x hx
  refine ⟨rfl, cpuTurn_of_mem (s := nopsEverywhere []) hx, rfl, rfl, rfl, blockOf 0 (List.replicate 0x4001 .nop),
    nopsEverywhere x.2, ?_, fun h => ?_⟩
  · show State.decodeBlock (nopsEverywhere x.2) 0 = _
    rw [State.decodeBlock, show max 1 (nopsEverywhere x.2).cfg.maxBlockUops = 0x4001 from rfl, decodeFrom_nops]
    rfl
  · have := h.2.1
    rw [blockOf_length, List.length_replicate] at this
    exact absurd this (by decide)

theorem witness_ReferenceDecoderFormsBlocks :
    (∃ b t, (loaded [0x04, 0, 0, 0, 0x01, 0, 0, 0]).decodeBlock 0 = .ok b t ∧ b.body.length = 2) ∧
    (loaded [0x04, 0, 0, 0, 0x01, 0, 0, 0]).readableRun 0 8 :=
  ⟨⟨blockOf 0 [.ei, .endBlock], loaded [0x04, 0, 0, 0, 0x01, 0, 0, 0], rfl, rfl⟩, isReadableRun (by decide)⟩

/-- NOP, then a word with an unassigned operation code: the illegal word is the second one. -/
theorem witness_IllegalWordStopsTheFetch : ∀ x ∈ cpuTurns,
    let s : State := { loaded [0x00, 0, 0, 0, 0x09, 0, 0, 0] with agenda := x.1 }
    s.cfg.decoder = .rd0 ∧ s.started = true ∧ s.cpuTurn x.2 ∧ s.phase = .fetch ∧ s.cancel = false ∧
      s.cache.find s.pc = none ∧ 1 < max 1 s.cfg.maxBlockUops ∧ s.readableRun s.pc (4 * 1 + 4) ∧
      (∀ j, j < 1 → ∃ i, decodeBytes (s.fourBytes (s.pc + BitVec.ofNat 16 (4 * j))) = .ok (i, []) ∧
        i.isTerminator = false) ∧
      ∃ e, decodeBytes (s.fourBytes (s.pc + BitVec.ofNat 16 (4 * 1))) = .error e := by
  intro x hx
  refine ⟨rfl, rfl, cpuTurn_of_mem hx, rfl, rfl, rfl, ?_, readableRun_of_turns x.1
    (s := loaded [0x00, 0, 0, 0, 0x09, 0, 0, 0]) (a := 0) (isReadableRun (by decide)), fun j hj => ?_, .unassignedOp,
    decodes_of_turns x.1 (s := loaded [0x00, 0, 0, 0, 0x09, 0, 0, 0]) (a := 4) (by decide)⟩
  · show 1 < max 1 Config.default.maxBlockUops
    decide
  · obtain rfl : j = 0 := by omega
    exact ⟨.nop, decodes_of_turns x.1 (s := loaded [0x00, 0, 0, 0, 0x09, 0, 0, 0]) (a := 0) (by decide), rfl⟩

/-- The blocks of END, HALT and HALTP. -/
theorem witness_PostStepHaltsOrGoesOn : ∀ x ∈ cpuTurns,
    (∃ (s : State) (b : Block), s.started = true ∧ s.cpuTurn x.2 ∧ s.phase = .post b ∧ b.haltsCpu = false ∧
      s.ic.halted = false) ∧
    (∃ (s : State) (b : Block), s.started = true ∧ s.cpuTurn x.2 ∧ s.phase = .post b ∧ b.haltsCpu = false ∧
      s.ic.halted = true ∧ s.ic.interrupting = true) ∧
    (∃ (s : State) (b : Block), s.started = true ∧ s.cpuTurn x.2 ∧ s.phase = .post b ∧ b.haltsCpu = true ∧
      b.haltsPeripherals = false) ∧
    ∃ (s : State) (b : Block), s.started = true ∧ s.cpuTurn x.2 ∧ s.phase = .post b ∧ b.haltsCpu = true ∧
      b.haltsPeripherals = true :=
  fun x hx => ⟨⟨{ inPhase (.post twoUops) with agenda := x.1 }, twoUops, rfl, cpuTurn_of_mem hx, rfl, rfl, rfl⟩,
    ⟨{ { inPhase (.post twoUops) with ic := { Ic.reset with halted := true, interrupting := true } } with agenda := x.1 },
      twoUops, rfl, cpuTurn_of_mem hx, rfl, rfl, rfl, rfl⟩,
    ⟨{ inPhase (.post (blockOf 0 [.halt])) with agenda := x.1 }, blockOf 0 [.halt], rfl, cpuTurn_of_mem hx, rfl, rfl, rfl⟩,
    ⟨{ inPhase (.post (blockOf 0 [.haltp])) with agenda := x.1 }, blockOf 0 [.haltp], rfl, cpuTurn_of_mem hx, rfl, rfl,
      rfl⟩⟩

/-- A waiting CPU that has acknowledged, with requests queued. -/
def waiting (queue : List Word) (agenda : List Turn) : State :=
  { (inPhase .awaitVector).setIff true true with
    agenda := agenda
    ic := { Ic.reset with halted := true, haltAck := true, reqQueue := queue } }

theorem witness_RequestIsAcceptedOrDiscarded : (waiting [0x38] [.other .ic]).faulted = false ∧
    (waiting [0x38] [.other .ic]).agenda = .other .ic :: [] ∧ (waiting [0x38] [.other .ic]).ic.interrupting = false ∧
    (waiting [0x38] [.other .ic]).ic.reqQueue = 0x38 :: [] ∧ (waiting [0x38] [.other .ic]).regs.iff1 = true ∧
    ((waiting [0x38] [.other .ic]).setIff false false).regs.iff1 = false := by decide

theorem witness_HandoffDeliversTheVector :
    (∃ s : State, s.faulted = false ∧ s.agenda = .other .ic :: [] ∧ s.ic.interrupting = true ∧ s.ic.haltAck = false) ∧
    (∃ s : State, s.faulted = false ∧ s.agenda = .other .ic :: [] ∧ s.ic.interrupting = true ∧ s.ic.haltAck = true ∧
      s.ic.vectorSlot ≠ none) ∧
    ∃ s : State, s.faulted = false ∧ s.agenda = .other .ic :: [] ∧ s.ic.interrupting = true ∧ s.ic.haltAck = true ∧
      s.ic.vectorSlot = none ∧ s.ic.resumeTasks ≠ [] :=
  ⟨⟨{ inPhase .fetch with
      agenda := [.other .ic], ic := { Ic.reset with interrupting := true, icVector := some 0x38 } }, by decide⟩,
    ⟨{ waiting [] [.other .ic] with ic := { (waiting [] []).ic with
        interrupting := true, icVector := some 0x40, vectorSlot := some 0x38 } }, by decide⟩,
    ⟨{ waiting [] [.other .ic] with ic := { (waiting [] []).ic with
        interrupting := true, icVector := some 0x38, resumeTasks := [.signalResume] } }, by decide⟩⟩

/-- The mixed platform, waiting with a vector in the slot, with an agenda. -/
def waking (p : FaultPolicy) (sp : Word) (agenda : List Turn) : State :=
  { mixed p 0 0 sp with
    phase := .awaitVector, ic := { (waiting [] []).ic with vectorSlot := some 0x38 }, agenda := agenda }

theorem witness_InterruptEntryPushesThePc : ∀ sp p, ∀ x ∈ cpuTurns, (waking p sp x.1).started = true ∧
    (waking p sp x.1).cpuTurn x.2 ∧ (waking p sp x.1).phase = .awaitVector ∧
    (waking p sp x.1).ic.vectorSlot = some 0x38 ∧
    (waking .raise 0x0000 []).writable ((waking .raise 0x0000 []).sp - 2) ∧
    (waking .raise 0x0000 []).writable ((waking .raise 0x0000 []).sp - 1) :=
  fun p sp _ hx => ⟨rfl, cpuTurn_of_mem (s := waking sp p []) hx, rfl, rfl, isWritable (by decide), isWritable (by decide)⟩

/-- The push of the interrupt entry, as `WritesWord` has it. -/
theorem witness_InterruptEntryPushesThePc_writes :
    let entered := fun p sp (rest : List Turn) => State.setSp
      { waking p sp [] with agenda := rest, ic := { (waking p sp []).ic with vectorSlot := none } } (sp - 2)
    ((entered .raise 0x9002 []).agenda = [] ∧ ¬(entered .raise 0x9002 []).writeRaises (0x9002 - 2) ∧
      ¬(entered .raise 0x9002 []).writeRaises (0x9002 - 2 + 1)) ∧
    (∀ rest, (entered .raise 0x4001 rest).writeRaises (0x4001 - 2)) ∧
    (entered .raise 0x0001 []).agenda = [] ∧ ¬(entered .raise 0x0001 []).writeRaises (0x0001 - 2) ∧
      (entered .raise 0x0001 []).writeRaises (0x0001 - 2 + 1) :=
  ⟨⟨rfl, fun h => absurd h.1 (by decide), fun h => absurd h.1 (by decide)⟩,
    fun _ => ⟨rfl, rfl⟩, rfl, fun h => absurd h.1 (by decide), ⟨by decide, by decide⟩⟩

theorem witness_HaltAndInterruptRequests :
    (∃ x : Ic, x.halted = true) ∧ (∃ s : State, s.faulted = false ∧ s.agenda = .other (.env .halt) :: []) ∧
    (∀ x ∈ cpuTurns, ∃ (s t : State) (b : Block), s.started = true ∧ s.cpuTurn x.2 ∧ s.phase = .post b ∧
      b.haltsCpu = true ∧ step s = .next t) ∧
    (∃ s t : State, s.faulted = false ∧ s.agenda = .other .ic :: [] ∧ s.ic.interrupting = false ∧ s.ic.reqQueue ≠ [] ∧
      s.regs.iff1 = true ∧ step s = .next t) ∧
    (∃ s : State, s.faulted = false ∧ s.agenda = .other (.env (.interrupt 0x38)) :: [] ∧ s.ic.accepting = true) ∧
    ∃ s : State, s.faulted = false ∧ s.agenda = .other (.env (.interrupt 0x38)) :: [] ∧ s.ic.accepting = false :=
  ⟨⟨{ Ic.reset with halted := true }, rfl⟩, ⟨waiting [] [.other (.env .halt)], rfl, rfl⟩,
    fun x hx => ⟨{ inPhase (.post (blockOf 0 [.halt])) with agenda := x.1 },
      State.cpuPost { inPhase (.post (blockOf 0 [.halt])) with agenda := x.2 } (blockOf 0 [.halt]), blockOf 0 [.halt], rfl,
      cpuTurn_of_mem hx, rfl, rfl, by obtain rfl | rfl := mem_cpuTurns hx <;> rfl⟩,
    ⟨waiting [0x38] [.other .ic], _, rfl, rfl, rfl, by decide, rfl, rfl⟩,
    ⟨waiting [] [.other (.env (.interrupt 0x38))], rfl, rfl, rfl⟩,
    ⟨{ waiting [] [.other (.env (.interrupt 0x38))] with ic := { Ic.reset with accepting := false } }, rfl, rfl, rfl⟩⟩

theorem witness_InterruptIsServed :
    let s := waiting [0x38] [.other .ic, .other .ic, .cpu]
    s.started = true ∧ s.phase = .awaitVector ∧ s.regs.iff1 = true ∧ s.ic.interrupting = false ∧ s.ic.haltAck = true ∧
      s.ic.vectorSlot = none ∧ s.cancel = false ∧ s.ic.reqQueue = [0x38] ∧
      s.agenda = [.other .ic, .other .ic, .cpu] ∧ s.writable (s.sp - 2) ∧ s.writable (s.sp - 1) :=
  ⟨rfl, rfl, rfl, rfl, rfl, rfl, rfl, rfl, rfl, isWritable (by decide), isWritable (by decide)⟩

theorem witness_CancellationStopsTheCpu :
    (∃ s : State, s.faulted = false ∧ s.agenda = .other (.env .cancel) :: []) ∧
    (∃ s : State, s.phase = .awaitVector ∧ s.cancel = true ∧ s.agenda = .cpuCancel :: []) ∧
    (∃ s : State, s.started = true ∧ s.phase = .fetch ∧ s.cancel = true ∧ s.agenda = .cpu :: []) ∧
    (∃ s : State, s.started = true ∧ s.phase = .awaitVector ∧ s.cancel = true ∧ s.ic.vectorSlot = none ∧
      s.agenda = .cpu :: []) ∧
    (∃ s : State, s.started = true ∧ s.phase = .awaitVector ∧ s.cancel = false ∧ s.ic.vectorSlot = none ∧
      s.agenda = .cpu :: []) ∧
    ∃ s : State, s.phase = .stopped ∧ s.agenda = .cpu :: [] :=
  ⟨⟨waiting [] [.other (.env .cancel)], by decide⟩, ⟨{ waiting [] [.cpuCancel] with cancel := true }, by decide⟩,
    ⟨{ inPhase .fetch with cancel := true, agenda := [.cpu] }, by decide⟩,
    ⟨{ waiting [] [.cpu] with cancel := true }, by decide⟩, ⟨waiting [] [.cpu], by decide⟩,
    ⟨{ inPhase .stopped with agenda := [.cpu] }, by decide⟩⟩

theorem witness_FatalErrorStopsEveryAgent :
    (inPhase (.faulted (.readFault 0))).phase = .faulted (.readFault 0) ∧
    (inPhase (.faulted (.readFault 0))).faulted = true := by decide

/-- A DMA operation of two bytes, copied downwards by one. -/
def copyTwo : DmaOp :=
  { source := 0x0001, destination := 0x0000, length := 2, cycleCost := 10, lockedRanges := [⟨0, 1⟩] }

/-- The machine after reset with the operation queued. -/
def queued (agenda : List Turn) : State :=
  { State.reset with agenda := agenda, dma := { Dma.reset with queue := [copyTwo] } }

theorem witness_DmaTakesTheHead :
    (∃ s : State, s.faulted = false ∧ s.agenda = .other .dma :: [] ∧ s.dma.current = none ∧
      s.dma.queue = copyTwo :: []) ∧
    ∃ s : State, s.faulted = false ∧ s.agenda = .other .dma :: [] ∧ s.dma.current = none ∧ s.dma.queue = [] :=
  ⟨⟨queued [.other .dma], by decide⟩, ⟨{ State.reset with agenda := [.other .dma] }, by decide⟩⟩

/-- The operation in progress, with so many bytes read and written, on a platform; the source and the destination are its
HL and DE. -/
def pumping (s : State) (length i j : Nat) : State :=
  { s with
    agenda := [.other .dma]
    dma := { Dma.reset with
      current := some ⟨s.get16 .hl, s.get16 .de, length, 0, []⟩, buffer := List.replicate i 0x5A, i := i, j := j } }

theorem witness_DmaMovesOneByteAStep :
    let pumpAt := fun i j => pumping (mixed .raise 0x7FFF 0xFFFF 0) 2 i j
    (∀ i j, (pumpAt i j).faulted = false ∧ (pumpAt i j).agenda = .other .dma :: [] ∧
      (pumpAt i j).dma.current = some ⟨0x7FFF, 0xFFFF, 2, 0, []⟩) ∧
    ((pumpAt 0 0).dma.i < 2 ∧ ¬(pumpAt 0 0).readRaises (0x7FFF + BitVec.ofNat 16 0)) ∧
    ((pumpAt 1 0).dma.i < 2 ∧ (pumpAt 1 0).readRaises (0x7FFF + BitVec.ofNat 16 1)) ∧
    ((pumpAt 2 0).dma.i = 2 ∧ (pumpAt 2 0).dma.j < 2 ∧ (pumpAt 2 0).dma.buffer[0]? = some 0x5A ∧
      ¬(pumpAt 2 0).writeRaises (0xFFFF + BitVec.ofNat 16 0)) ∧
    ((pumpAt 2 1).dma.i = 2 ∧ (pumpAt 2 1).dma.j < 2 ∧ (pumpAt 2 1).writeRaises (0xFFFF + BitVec.ofNat 16 1)) ∧
    (pumpAt 2 2).dma.i = 2 ∧ (pumpAt 2 2).dma.j = 2 :=
  ⟨fun _ _ => ⟨rfl, rfl, rfl⟩, ⟨by decide, fun h => absurd h.1 (by decide)⟩, ⟨by decide, by decide, by decide⟩,
    ⟨rfl, by decide, rfl, fun h => absurd h.1 (by decide)⟩, ⟨rfl, by decide, by decide, by decide⟩, rfl, rfl⟩

/-- The pump at a Peripheral, at an Unused segment, and at RAM without Read and ROM without Write under `ignore`. -/
theorem witness_DmaMovesOneByteAStep_kinds :
    (let s := pumping (mixed .raise 0x9000 0xA000 0) 1 0 0;
      (s.segmentAt 0x9000).kind = .peripheral ∧ ¬s.readRaises (0x9000 + BitVec.ofNat 16 0)) ∧
    (let s := pumping (mixed .raise 0x9000 0xA000 0) 1 1 0;
      (s.segmentAt 0xA000).kind = .unused ∧ ¬s.writeRaises (0xA000 + BitVec.ofNat 16 0)) ∧
    (let s := pumping (mixed .ignore 0x8000 0x0000 0) 1 0 0;
      (s.segmentAt 0x8000).cap.canRead = false ∧ ¬s.readRaises (0x8000 + BitVec.ofNat 16 0)) ∧
    (let s := pumping (mixed .ignore 0x8000 0x0000 0) 1 1 0;
      (s.segmentAt 0x0000).cap.canWrite = false ∧ ¬s.writeRaises (0x0000 + BitVec.ofNat 16 0)) :=
  ⟨⟨rfl, fun h => absurd h.1 (by decide)⟩, ⟨rfl, fun h => absurd h.1 (by decide)⟩,
    ⟨rfl, fun h => absurd h.2 (by decide)⟩, ⟨rfl, fun h => absurd h.2 (by decide)⟩⟩

/-- The point between two byte accesses with each kind of turn next: steps that wait (the sweeper's, DMA-TAKE with an operation
queued, `halt`), an access that completes and one that raises. -/
theorem witness_LoadsOfWords_between :
    State.reset.agenda = [] ∧ ({ State.reset with agenda := [.cpu, .cpu] } : State).agenda = .cpu :: [.cpu] ∧
    ({ State.reset with agenda := [.cpuCancel] } : State).agenda = .cpuCancel :: [] ∧
    (∀ m ∈ [Move.sweep, .ic, .dma, .env .halt],
      (queued [.other m]).agenda = .other m :: [] ∧ ¬(queued [.other m]).isAccess m) ∧
    (let s := pumping (mixed .raise 0x7FFF 0xFFFF 0) 2 0 0;
      s.isAccess .dma ∧ ∃ t, step s = .next t ∧ t.faulted = false) ∧
    let s := pumping (mixed .raise 0x8000 0xFFFF 0) 2 0 0
    s.isAccess .dma ∧ ∃ t, step s = .next t ∧ t.faulted = true := by
  refine ⟨rfl, rfl, rfl, fun m hm => ⟨rfl, fun h => ?_⟩, ⟨.inl ⟨rfl, _, rfl, .inl (by decide)⟩,
    next_of_after (by decide)⟩, .inl ⟨rfl, _, rfl, .inl (by decide)⟩, next_of_after (by decide)⟩
  simp only [List.mem_cons, List.not_mem_nil, or_false] at hm
  rcases hm with rfl | rfl | rfl | rfl <;> simp [State.isAccess, queued, State.reset, State.resetWith, Dma.reset] at h

/-- DMA-WRITE between the two reads of the word at 0x7FFE, and between the two writes of the word at 0x7FFF. -/
theorem witness_words_with_dma_between :
    (let s : State := { pumping (mixed .raise 0x7FFE 0x7FFF 0) 1 1 0 with agenda := [.other .dma, .cpu] };
      s.dmaWritesNext (0x7FFE + 1) 0x5A [] ∧ s.readable 0x7FFE ∧ s.readable (0x7FFE + 1) ∧ s.writable (0x7FFE + 1)) ∧
    let s : State := { pumping (mixed .raise 0x7FFF 0x7FFF 0) 1 1 0 with agenda := [.other .dma, .cpu, .cpu] }
    s.dmaWritesNext 0x7FFF 0x5A [.cpu] ∧ s.writable 0x7FFF ∧ s.writable (0x7FFF + 1) :=
  ⟨⟨⟨rfl, rfl, _, rfl, rfl, by decide, rfl, rfl⟩, isReadable (by decide), isReadable (by decide), isWritable (by decide)⟩,
    ⟨rfl, rfl, _, rfl, rfl, by decide, rfl, rfl⟩, isWritable (by decide), isWritable (by decide)⟩

/-- 00_scope.md R18: DMA-TAKE waits for the end of the store, a DMA-WRITE falls between its bytes. -/
theorem test_steps_wait_and_accesses_fall_between :
    after (exec (.str16 .hl .de) { mixed .raise 0x7FFE 0xBEEF 0 with
      agenda := [.other .dma], dma := { Dma.reset with queue := [copyTwo] } }) (fun t => (t.dma.queue, t.agenda)) =
        some ([copyTwo], [.other .dma]) ∧
    after (exec (.str16 .hl .de) { pumping (mixed .raise 0x7FFE 0x7FFE 0) 1 1 0 with agenda := [.other .dma, .cpu] })
      (fun t => (t.byteAt 0x7FFE, t.byteAt 0x7FFF, t.dma.j, t.agenda)) = some (0x5A, 0x7F, 1, []) := by decide

theorem witness_DmaCopiesTheBlock :
    let s := queued (List.replicate (2 * copyTwo.length + 2) (.other .dma))
    s.faulted = false ∧ s.dma.current = none ∧ s.dma.queue = copyTwo :: [] ∧ copyTwo.length ≤ 0x10000 ∧
      s.readableRun copyTwo.source copyTwo.length ∧ s.writableRun copyTwo.destination copyTwo.length ∧
      s.agenda = List.replicate (2 * copyTwo.length + 2) (.other .dma) :=
  ⟨rfl, rfl, rfl, by decide, isReadableRun (by decide), isWritableRun (by decide), rfl⟩

/-- The environment's string operation in progress, as `pumping` has the pump's. -/
def transferring (s : State) (length i j : Nat) : State :=
  { s with
    agenda := [.other (.env .stringByte)]
    envJob := ⟨s.get16 .hl, length, i, s.get16 .de, length, j, List.replicate i 0x5A⟩ }

/-- The machine after reset with one turn. -/
def turn (t : Turn) : State :=
  { State.reset with agenda := [t] }

theorem witness_EnvironmentMovesTakeEffect :
    (∃ s : State, s.faulted = false ∧ s.agenda = .other (.env .run) :: []) ∧
    (∃ s : State, s.faulted = false ∧ s.agenda = .other (.env (.enqueue copyTwo)) :: [] ∧ s.dma.closed = false ∧
      copyTwo.wf = true) ∧
    (∃ s : State, s.faulted = false ∧ s.agenda = .other (.env (.enqueue copyTwo)) :: [] ∧ s.dma.closed = true) ∧
    (∃ s : State, s.faulted = false ∧ s.agenda = .other (.env (.enqueue ⟨0, 0, 0x10001, 0, []⟩)) :: [] ∧
      DmaOp.wf ⟨0, 0, 0x10001, 0, []⟩ = false) ∧
    (∃ s : State, s.faulted = false ∧ s.agenda = .other (.env .disposeDma) :: []) ∧
    (∃ s : State, s.faulted = false ∧ s.agenda = .other (.env .dmaDrainTimeout) :: [] ∧ s.dma.closed = true ∧
      s.dma.queue ≠ []) ∧
    (∃ s : State, s.faulted = false ∧ s.agenda = .other (.env .dmaDrainTimeout) :: [] ∧ s.dma.closed = false) ∧
    (∃ s : State, s.faulted = false ∧ s.agenda = .other (.env .disposeIc) :: []) ∧
    (∃ s : State, s.faulted = false ∧ s.agenda = .other (.env .interruptDrainTimeout) :: [] ∧ s.ic.accepting = false ∧
      s.ic.reqQueue ≠ []) ∧
    ∃ s : State, s.faulted = false ∧ s.agenda = .other (.env .interruptDrainTimeout) :: [] ∧ s.ic.reqQueue = [] :=
  ⟨⟨turn (.other (.env .run)), by decide⟩, ⟨turn (.other (.env (.enqueue copyTwo))), by decide⟩,
    ⟨{ turn (.other (.env (.enqueue copyTwo))) with dma := { Dma.reset with closed := true } }, by decide⟩,
    ⟨turn (.other (.env (.enqueue ⟨0, 0, 0x10001, 0, []⟩))), by decide⟩, ⟨turn (.other (.env .disposeDma)), by decide⟩,
    ⟨{ turn (.other (.env .dmaDrainTimeout)) with dma := { Dma.reset with closed := true, queue := [copyTwo] } },
      by decide⟩,
    ⟨queued [.other (.env .dmaDrainTimeout)], by decide⟩, ⟨turn (.other (.env .disposeIc)), by decide⟩,
    ⟨{ turn (.other (.env .interruptDrainTimeout)) with ic := { Ic.reset with accepting := false, reqQueue := [0x38] } },
      by decide⟩,
    ⟨turn (.other (.env .interruptDrainTimeout)), by decide⟩⟩

/-- Each kind of string, of the greatest length where the move names one, begun after one that has ended; a length above it;
and a move while a string is in progress. -/
theorem witness_EnvironmentMovesTakeEffect_begin :
    (let s := transferring (mixed .raise 0x7FFF 0xFFFF 0) 2 2 2;
      s.faulted = false ∧ s.envJob.busy = false ∧ s.envJob ≠ EnvJob.idle ∧ 0x10000 ≤ 0x10000) ∧
    (∀ m ∈ [EnvMove.readBytes 0xFFFF 0x10000, .writeBytes 0xFFFF [1, 2], .transferBytes 0xFFFF 0 0x10000,
        .readBytes 0 0x10001],
      ∃ s : State, s.faulted = false ∧ s.envJob.busy = false ∧ s.agenda = .other (.env m) :: []) ∧
    ∃ s : State, s.faulted = false ∧ s.envJob.busy = true ∧ s.agenda = .other (.env (.readBytes 0 1)) :: [] := by
  refine ⟨by decide, fun m _ => ⟨{ transferring (mixed .raise 0x7FFF 0xFFFF 0) 2 2 2 with
      agenda := [.other (.env m)] }, rfl, rfl, rfl⟩,
    ⟨{ transferring (mixed .raise 0x7FFF 0xFFFF 0) 2 1 0 with agenda := [.other (.env (.readBytes 0 1))] }, by decide⟩⟩

/-- The string operation of the environment: a byte it reads, a byte it cannot read, a byte it writes, a byte it cannot
write, and the end. -/
theorem witness_EnvironmentMovesTakeEffect_strings :
    let jobAt := fun i j => transferring (mixed .raise 0x7FFF 0xFFFF 0) 2 i j
    (∀ i j, (jobAt i j).faulted = false ∧ (jobAt i j).agenda = .other (.env .stringByte) :: []) ∧
    ((jobAt 0 0).envJob.readCount < (jobAt 0 0).envJob.readLength ∧
      ¬(jobAt 0 0).readRaises (0x7FFF + BitVec.ofNat 16 0)) ∧
    ((jobAt 1 0).envJob.readCount < (jobAt 1 0).envJob.readLength ∧ (jobAt 1 0).readRaises (0x7FFF + BitVec.ofNat 16 1)) ∧
    ((jobAt 2 0).envJob.readCount = (jobAt 2 0).envJob.readLength ∧
      (jobAt 2 0).envJob.writeCount < (jobAt 2 0).envJob.writeLength ∧ (jobAt 2 0).envJob.buffer[0]? = some 0x5A ∧
      ¬(jobAt 2 0).writeRaises (0xFFFF + BitVec.ofNat 16 0)) ∧
    ((jobAt 2 1).envJob.readCount = (jobAt 2 1).envJob.readLength ∧
      (jobAt 2 1).envJob.writeCount < (jobAt 2 1).envJob.writeLength ∧ (jobAt 2 1).writeRaises (0xFFFF + BitVec.ofNat 16 1)) ∧
    (jobAt 2 2).envJob.readCount = (jobAt 2 2).envJob.readLength ∧ (jobAt 2 2).envJob.writeCount = (jobAt 2 2).envJob.writeLength :=
  ⟨fun _ _ => ⟨rfl, rfl⟩, ⟨by decide, fun h => absurd h.1 (by decide)⟩, ⟨by decide, by decide, by decide⟩,
    ⟨by decide, by decide, rfl, fun h => absurd h.1 (by decide)⟩, ⟨by decide, by decide, by decide, by decide⟩, by decide,
    by decide⟩

theorem witness_InvalidateRemovesTheIntersecting :
    (turn (.other (.env (.invalidate 0x0005 1)))).faulted = false ∧
    (turn (.other (.env (.invalidate 0x0005 1)))).agenda = .other (.env (.invalidate 0x0005 1)) :: [] ∧
    (entryOf (blockOf 0xFFF0 (List.replicate 7 .nop ++ [.halt]))).ranges = rangesOf 0xFFF0 32 := by decide

/-- Three bytes over the end of one RAM segment and into the next, and three over the end of the space. -/
theorem witness_StoresInvalidateWhatTheyTouch :
    (let s := mixed .raise 0 0 0;
      s.cfg.tiled ∧ s.agenda = [] ∧ [1, 2, (3 : Byte)].length ≤ 0x10000 ∧
        s.writableRun 0x7FFE [1, 2, (3 : Byte)].length ∧ ∃ t, s.writeBytes 0x7FFE [1, 2, 3] = .ok () t) ∧
    (let s := State.reset;
      s.cfg.tiled ∧ s.agenda = [] ∧ s.writableRun 0xFFFE [1, 2, (3 : Byte)].length ∧
        ∃ t, s.writeBytes 0xFFFE [1, 2, 3] = .ok () t) :=
  ⟨⟨by show checkTiling 0 _ = none; decide, rfl, by decide, isWritableRun (by decide), ⟨_, rfl⟩⟩,
    ⟨by show checkTiling 0 _ = none; decide, rfl, isWritableRun (by decide), ⟨_, rfl⟩⟩⟩

theorem witness_RangesCoverTheRun : 1 ≤ 0x10000 ∧ 0x10000 ≤ 0x10000 ∧ 0xFFFF < 0x10000 ∧ 0x10000 < 0x10001 := by decide

/-- The environment's call for the block at 0, with a compile function. -/
def compiling (f : CompileFn) : State :=
  { loaded [0x01, 0, 0, 0] with agenda := [.other (.env (.getOrCompile 0 f))] }

theorem witness_CompiledBlockIsFoundAgain :
    (∃ b t, (loaded [0x01, 0, 0, 0]).getOrCompile (.decoder .rd0) 0 = .ok b t) ∧ (1 : Word) ≠ 0 ∧
    (∀ f, (compiling f).faulted = false ∧ (compiling f).agenda = .other (.env (.getOrCompile 0 f)) :: [] ∧
      (compiling f).cache.find 0 = none) ∧
    ({ compiling (.decoder .rd0) with cache := [entryOf twoUops] } : State).cache.find 0 = some (entryOf twoUops) ∧
    (∃ b t, ({ compiling (.decoder .rd0) with agenda := [] } : State).compile (.decoder .rd0) 0 = .ok b t ∧
      b.wf Config.default) ∧
    (∃ b t, ({ compiling (.answers (blockOf 0 [])) with agenda := [] } : State).compile (.answers (blockOf 0 [])) 0 =
      .ok b t ∧ ¬b.wf Config.default) ∧
    (∀ p, ∃ t, ({ compiling (.raises p) with agenda := [] } : State).compile (.raises p) 0 = .raised t) ∧
    (∃ t, (loaded [0x09, 0, 0, 0]).compile (.decoder .rd0) 0 = .raised t) ∧
    (turn (.other .sweep)).faulted = false ∧ (turn (.other .sweep)).agenda = .other .sweep :: [] ∧
    (turn (.other .sweep)).cfg.sweepEnabled = false ∧
    ({ turn (.other .sweep) with cfg := { Config.default with sweepEnabled := true } } : State).cfg.sweepEnabled = true :=
  ⟨⟨blockOf 0 [.endBlock], _, rfl⟩, by decide, fun _ => ⟨rfl, rfl, rfl⟩, rfl,
    ⟨blockOf 0 [.endBlock], _, rfl, by decide, by decide, by decide, by decide, by decide⟩,
    ⟨blockOf 0 [], _, rfl, fun h => absurd h.1 (by decide)⟩, fun _ => ⟨_, rfl⟩,
    ⟨(loaded [0x09, 0, 0, 0]).raise (.unsupportedInstruction 0), rfl⟩,
    rfl, rfl, rfl, rfl⟩

theorem witness_ConstructionAcceptsTilings : Tiles 0 (mixedConfig .raise).segments ∧
    configError (mixedConfig .raise).segments = none := ⟨by simp [mixedConfig, Tiles, spaceSize], by decide⟩

/-- A platform with initial contents in both segments, one with `RAM_INIT`, and one that does not validate. -/
theorem witness_ResetLeavesTheStatedValues :
    let c : Config := { Config.default with ramInit := some 0xFF, segments :=
      [⟨.rom, 0, 1, .read, some [0x5A]⟩, ⟨.ram, 1, 0xFFFF, .both, none⟩] }
    configError c.segments = none ∧
      ((State.resetWith c PowerOn.zero).segmentAt 0).init = some [0x5A] ∧
      ((State.resetWith c PowerOn.zero).segmentAt 0).kind.backed = true ∧
      ((State.resetWith c PowerOn.zero).segmentAt 1).init = none ∧ c.ramInit = some 0xFF ∧
      configError [] = some (.addressGap 0 0x10000) := by decide

/-- The machine about to run PUSH BC satisfies the invariant, and its step answers. -/
theorem witness_EveryStepKeepsTheInvariant :
    (inPhase (.execute (blockOf 0 [.push .bc, .endBlock]) 0)).Inv ∧
    ∃ t, step (inPhase (.execute (blockOf 0 [.push .bc, .endBlock]) 0)) = .next t := by
  refine ⟨⟨rfl, List.Pairwise.nil, (fun e he => nomatch he), ?_, by decide, by decide, rfl, by decide, by decide, by decide,
    by decide, ⟨(fun e he => nomatch he), rfl, rfl⟩, ?_, ?_⟩, ⟨_, rfl⟩⟩
  · exact ⟨⟨by decide, by decide, by decide, by decide, by decide⟩, by decide⟩
  · exact ⟨Nat.zero_le _, Nat.zero_le _, Nat.le_refl _, Nat.le_refl _, Nat.le_refl _⟩
  · intro e h
    cases h

theorem witness_OtherAgentsLeaveTheRegisters : ∃ t, step State.reset = .next t := ⟨_, rfl⟩

/-- A state with the invariant whose engine is Faulted. -/
theorem witness_OnlyAFatalErrorStops : (State.reset.raise .dmaDrainTimeout).Inv := by
  refine ⟨rfl, List.Pairwise.nil, (fun e he => nomatch he), trivial, by decide, by decide, rfl, by decide, by decide, by decide,
    by decide, ⟨(fun e he => nomatch he), rfl, rfl⟩, ?_, ?_⟩
  · exact ⟨Nat.zero_le _, Nat.zero_le _, Nat.le_refl _, Nat.le_refl _, Nat.le_refl _⟩
  · intro e h
    cases h
    rfl

end Sys2Proof.Tests
end

/-! SUPPORT. The configuration stands still in every operation of the CPU (00_scope.md R15; log 4). -/

namespace Sys2Proof.Machine

theorem Res.bind_cfg {α β : Type} {s : State} {x : Res α} {k : α → State → Res β} (hx : x.state.cfg = s.cfg)
    (hk : ∀ v t, (k v t).state.cfg = t.cfg) : (x.bind k).state.cfg = s.cfg :=
  Res.bind_state (P := fun t => t.cfg = s.cfg) hx fun v t ht => (hk v t).trans ht

theorem State.readByte_cfg (s : State) (a : Word) : (s.readByte a).state.cfg = s.cfg := by
  rcases s.readByte_effect a with ⟨v, l, d, e⟩ | e <;> rw [e] <;> rfl

theorem State.writeStringByte_cfg (s : State) (a : Word) (n j : Nat) (v : Byte) :
    (s.writeStringByte a n j v).state.cfg = s.cfg := by
  rcases s.writeStringByte_effect a n j v with ⟨m, c, l, e⟩ | e <;> rw [e] <;> rfl

theorem State.interleave_cfg (s : State) : s.interleave.state.cfg = s.cfg :=
  s.interleave_leaves.cfg

theorem State.portRead_cfg (s : State) (p : Word) : (s.portRead p).state.cfg = s.cfg := by
  unfold State.portRead State.answer State.draw
  cases s.inputs <;> rfl

theorem State.readWord_cfg (s : State) (a : Word) : (s.readWord a).state.cfg = s.cfg :=
  Res.bind_cfg (s.readByte_cfg a) fun _ t => Res.bind_cfg t.interleave_cfg fun _ u =>
    Res.bind_cfg (u.readByte_cfg _) fun _ _ => rfl

theorem State.readBytes_cfg : ∀ (n : Nat) (a : Word) (s : State), (State.readBytes n a s).state.cfg = s.cfg
  | 0, _, _ => rfl
  | 1, a, s => Res.bind_cfg (s.readByte_cfg a) fun _ _ => rfl
  | n + 2, a, s =>
    Res.bind_cfg (s.readByte_cfg a) fun _ t => Res.bind_cfg t.interleave_cfg fun _ u =>
      Res.bind_cfg (State.readBytes_cfg (n + 1) (a + 1) u) fun _ _ => rfl

theorem State.writeFrom_cfg (a : Word) (n : Nat) : ∀ (j : Nat) (bytes : List Byte) (s : State),
    (State.writeFrom a n j bytes s).state.cfg = s.cfg
  | _, [], _ => rfl
  | j, [v], s => s.writeStringByte_cfg a n j v
  | j, v :: w :: rest, s =>
    Res.bind_cfg (s.writeStringByte_cfg a n j v) fun _ t => Res.bind_cfg t.interleave_cfg fun _ u =>
      State.writeFrom_cfg a n (j + 1) (w :: rest) u

theorem State.pushWord_cfg (s : State) (v : Word) : (s.pushWord v).state.cfg = s.cfg :=
  State.writeFrom_cfg _ _ _ _ (s.setSp (s.sp - 2))

theorem State.popWord_cfg (s : State) : s.popWord.state.cfg = s.cfg :=
  Res.bind_cfg (s.readWord_cfg _) fun _ _ => rfl

theorem State.takeInterrupt_cfg (s : State) (v : Word) : (s.takeInterrupt v).state.cfg = s.cfg :=
  Res.bind_cfg (State.pushWord_cfg { s with ic := { s.ic with vectorSlot := none } } s.pc) fun _ _ => rfl

end Sys2Proof.Machine

/-! SUPPORT. What every micro-operation keeps: the configuration, and from a state with the invariant the invariant, the
phase and the vector slot, unless it raised (60_exceptions.md R442, R401). -/

namespace Sys2Proof.Machine

/-- The operation leaves the configuration, and keeps the invariant of an engine that is not Faulted. -/
def Res.Preserves {α : Type} (s : State) (x : Res α) : Prop :=
  x.state.cfg = s.cfg ∧ (s.Inv → s.faulted = false → x.Keeps s)

theorem Res.Preserves.bind {α β : Type} {s : State} {x : Res α} {k : α → State → Res β} (hx : x.Preserves s)
    (hk : ∀ v t, (k v t).Preserves t) : (x.bind k).Preserves s := by
  obtain ⟨hc, hi⟩ := hx
  refine ⟨Res.bind_cfg hc fun v t => (hk v t).1, fun h hf => ?_⟩
  exact (hi h hf).bind fun v t ht => (hk v t).2 ht.1 (ht.notFaulted hf)

section Operations

variable (s : State)

theorem Res.Preserves.refl : (Res.ok () s).Preserves s :=
  ⟨rfl, fun h _ => .refl h⟩

theorem Res.Preserves.regs (g : Regs) (hm : s.regs.im ≠ 3 → g.im ≠ 3)
    (he : (s.regs.iff1 = true → s.regs.iff2 = true) → g.iff1 = true → g.iff2 = true) :
    (Res.ok () { s with regs := g }).Preserves s :=
  ⟨rfl, fun h _ => ⟨h.withRegs g (hm h.mode) (he h.enable), rfl, rfl, rfl⟩⟩

theorem Res.Preserves.set8 (x : Reg8) (v : Byte) : (Res.ok () (s.set8 x v)).Preserves s :=
  ⟨rfl, fun h _ => ⟨h.set8 x v, rfl, rfl, rfl⟩⟩

theorem Res.Preserves.set16 (x : Reg16) (v : Word) : (Res.ok () (s.set16 x v)).Preserves s :=
  ⟨rfl, fun h _ => ⟨h.set16 x v, rfl, rfl, rfl⟩⟩

theorem Res.Preserves.setPc (v : Word) : (Res.ok () (s.setPc v)).Preserves s :=
  Res.Preserves.set16 s .pc v

theorem Res.Preserves.writeAlu8 (rd : Reg8) (x : AluResult 8) : (Res.ok () (s.writeAlu8 rd x)).Preserves s :=
  ⟨rfl, fun h _ => ⟨(h.set8 rd x.value).set8 .f x.flags, rfl, rfl, rfl⟩⟩

theorem Res.Preserves.writeAlu16 (rd : Reg16) (x : AluResult 16) : (Res.ok () (s.writeAlu16 rd x)).Preserves s :=
  ⟨rfl, fun h _ => ⟨(h.set16 rd x.value).set8 .f x.flags, rfl, rfl, rfl⟩⟩

theorem Res.Preserves.emit (e : Event) : (Res.ok () (s.emit e)).Preserves s :=
  ⟨rfl, fun h hf => ⟨h.emit hf e, rfl, rfl, rfl⟩⟩

theorem Res.Preserves.readByte (a : Word) : (s.readByte a).Preserves s :=
  ⟨s.readByte_cfg a, fun h _ => h.readByte a⟩

theorem Res.Preserves.interleave : s.interleave.Preserves s :=
  ⟨s.interleave_cfg, fun h _ => h.interleave⟩

theorem Res.Preserves.portRead (p : Word) : (s.portRead p).Preserves s :=
  ⟨s.portRead_cfg p, fun h hf => h.portRead hf p⟩

theorem Res.Preserves.readWord (a : Word) : (s.readWord a).Preserves s :=
  ⟨s.readWord_cfg a, fun h _ => h.readWord a⟩

theorem Res.Preserves.readBytes (n : Nat) (a : Word) : (State.readBytes n a s).Preserves s :=
  ⟨State.readBytes_cfg n a s, fun h _ => State.Inv.readBytes n a h⟩

theorem Res.Preserves.writeBytes (a : Word) (bytes : List Byte) : (s.writeBytes a bytes).Preserves s :=
  ⟨State.writeFrom_cfg _ _ _ _ s, fun h hf => State.Inv.writeFrom _ _ _ _ h hf⟩

theorem Res.Preserves.writeWord (a v : Word) : (s.writeWord a v).Preserves s :=
  Res.Preserves.writeBytes s a _

theorem Res.Preserves.writeByte (a : Word) (v : Byte) : (s.writeByte a v).Preserves s :=
  ⟨s.writeStringByte_cfg a 1 0 v, fun h hf => h.writeByte hf a v⟩

theorem Res.Preserves.pushWord (v : Word) : (s.pushWord v).Preserves s :=
  ⟨s.pushWord_cfg v, fun h hf => h.pushWord hf v⟩

theorem Res.Preserves.popWord : s.popWord.Preserves s :=
  ⟨s.popWord_cfg, fun h _ => h.popWord⟩

theorem Res.Preserves.loadByte (rd : Reg8) (a : Word) : (s.loadByte rd a).Preserves s :=
  (Res.Preserves.readByte s a).bind fun v t => Res.Preserves.set8 t rd v

theorem Res.Preserves.loadWord (rd : Reg16) (a : Word) : (s.loadWord rd a).Preserves s :=
  (Res.Preserves.readWord s a).bind fun v t => Res.Preserves.set16 t rd v

theorem Res.Preserves.returnToCaller : s.returnToCaller.Preserves s :=
  (Res.Preserves.popWord s).bind fun v t => Res.Preserves.setPc t v

theorem Res.Preserves.transferByte (source destination : Word) : (s.transferByte source destination).Preserves s :=
  (Res.Preserves.readByte s source).bind fun v t => (Res.Preserves.interleave t).bind fun _ u =>
    Res.Preserves.writeByte u destination v

theorem Res.Preserves.transferBytes (source destination : Word) (n : Nat) :
    (s.transferBytes source destination n).Preserves s := by
  unfold State.transferBytes
  split
  · exact .refl s
  · exact (Res.Preserves.readBytes s n source).bind fun bytes t => (Res.Preserves.interleave t).bind fun _ u =>
      Res.Preserves.writeBytes u destination bytes

end Operations

/-- The outcome of a micro-operation is the next state of an operation that keeps what `Res.Preserves` says. -/
def KeepsEngine (s : State) (o : Host.Outcome State Fault Refusal) : Prop :=
  ∃ x : Res Unit, o = x.outcome ∧ x.Preserves s

theorem Res.Preserves.outcome {s : State} {x : Res Unit} (h : x.Preserves s) : KeepsEngine s x.outcome :=
  ⟨x, rfl, h⟩

theorem Res.Preserves.done {s t : State} (h : (Res.ok () t).Preserves s) : KeepsEngine s (done t) :=
  ⟨_, rfl, h⟩

/-- Every micro-operation but the one that names mode 3 (44_control_system.md R336). -/
theorem exec_keepsEngine (s : State) {i : Instr} (hi : i ≠ .im 3) : KeepsEngine s (exec i s) := by
  cases i with
  | nop | endBlock | halt | haltp => exact (Res.Preserves.refl s).done
  | ei => exact (Res.Preserves.regs s { s.regs with iff1 := true, iff2 := true } id fun _ _ => rfl).done
  | di => exact (Res.Preserves.regs s { s.regs with iff1 := false, iff2 := false } id fun _ he => he).done
  | im n => exact (Res.Preserves.regs s { s.regs with im := n } (fun _ hn => hi (congrArg Instr.im hn)) id).done
  | exaf => exact (Res.Preserves.regs s { s.regs with afSel := !s.regs.afSel } id id).done
  | exx => exact (Res.Preserves.regs s { s.regs with gpSel := !s.regs.gpSel } id id).done
  | ldi8 | mov8 | bit => exact (Res.Preserves.set8 s _ _).done
  | ldi16 | mov16 => exact (Res.Preserves.set16 s _ _).done
  | ldr8 | lda8 => exact (Res.Preserves.loadByte s _ _).outcome
  | ldr16 | lda16 => exact (Res.Preserves.loadWord s _ _).outcome
  | str8 | sta8 => exact (Res.Preserves.writeByte s _ _).outcome
  | str16 | sta16 => exact (Res.Preserves.writeWord s _ _).outcome
  | push => exact (Res.Preserves.pushWord s _).outcome
  | pop rd => exact ((Res.Preserves.popWord s).bind fun v t => Res.Preserves.set16 t rd v).outcome
  | xfer => exact (Res.Preserves.transferByte s _ _).outcome
  | xfern => exact (Res.Preserves.transferBytes s _ _ _).outcome
  | inp rd rs => exact ((Res.Preserves.portRead s _).bind fun v t => Res.Preserves.set8 t rd v).outcome
  | out => exact (Res.Preserves.emit s _).done
  | add | adc | sub | sbc | and | or | xor | inc | dec | rl | rr | rlc | rrc | sla | sra | srl | daa | addi | adci | subi
  | sbci | andi | ori | xori => exact (Res.Preserves.writeAlu8 s _ _).done
  | add16 | adc16 | sub16 | sbc16 => exact (Res.Preserves.writeAlu16 s _ _).done
  | jp | jpr => exact (Res.Preserves.setPc s _).done
  | jpc cc addr =>
    refine Res.Preserves.done (t := if s.condition cc then s.setPc addr else s) ?_
    split
    · exact .setPc s addr
    · exact .refl s
  | call addr => exact ((Res.Preserves.pushWord s _).bind fun _ t => Res.Preserves.setPc t addr).outcome
  | ret => exact (Res.Preserves.returnToCaller s).outcome
  | retn =>
    exact ((Res.Preserves.returnToCaller s).bind fun _ t =>
      Res.Preserves.regs t { t.regs with iff1 := t.regs.iff2, iff2 := t.regs.iff2 } id fun _ he => he).outcome

theorem exec_cfg {s t : State} {i : Instr} (h : exec i s = .next t) : t.cfg = s.cfg := by
  by_cases hi : i = .im 3
  · subst hi
    cases h
    rfl
  · obtain ⟨x, hx, hc, -⟩ := exec_keepsEngine s hi
    rw [h] at hx
    cases hx
    exact hc

/-- A well-formed micro-operation keeps the invariant, and the phase unless it raised. -/
theorem exec_inv {s t : State} {i : Instr} (hw : i.wf = true) (hs : s.Inv) (hf : s.faulted = false)
    (h : exec i s = .next t) : t.Inv ∧ (t.faulted = true ∨ t.phase = s.phase) := by
  obtain ⟨x, hx, -, hk⟩ := exec_keepsEngine s (i := i) (by rintro rfl; cases hw)
  rw [h] at hx
  cases hx
  cases x with
  | ok v u =>
    obtain ⟨hu, hp, -, -⟩ := hk hs hf
    exact ⟨hu, .inr hp⟩
  | raised u =>
    obtain ⟨hu, hr⟩ := hk hs hf
    exact ⟨hu, .inl hr⟩

end Sys2Proof.Machine

/-! SUPPORT. What the steps of the CPU agent and of the engine keep (60_exceptions.md R440 to R450). -/

namespace Sys2Proof.Machine

/-! ### The configuration -/

theorem State.cpuFetch_cfg (s : State) : s.cpuFetch.cfg = s.cfg := by
  unfold State.cpuFetch
  split
  · rfl
  · have hc := (s.getOrCompile_leaves (.decoder s.cfg.decoder) s.pc).cfg
    cases hg : s.getOrCompile (.decoder s.cfg.decoder) s.pc <;> rw [hg] at hc <;> exact hc

/-- CPU-EXEC that answers ran a micro-operation of the body (60_exceptions.md R442). -/
theorem State.cpuExec_next {s t : State} {b : Block} {k : Nat} (h : s.cpuExec b k = .next t) :
    ∃ i u, b.body[k]? = some i ∧ exec i s = .next u ∧ t = u.afterUop b k := by
  unfold State.cpuExec at h
  cases hi : b.body[k]? with
  | none => simp [hi] at h
  | some i =>
    cases hu : exec i s with
    | next u => exact ⟨i, u, rfl, hu, by simpa [hi, hu] using h.symm⟩
    | fault r => simp [hi, hu] at h
    | refused r => simp [hi, hu] at h

theorem State.afterUop_cfg (s : State) (b : Block) (k : Nat) : (s.afterUop b k).cfg = s.cfg := by
  unfold State.afterUop
  split
  · rfl
  · split <;> rfl

theorem State.haltBlock_cfg (s : State) (b : Block) : (s.haltBlock b).cfg = s.cfg := by
  unfold State.haltBlock
  split
  · simp only
    split <;> rfl
  · rfl

theorem State.cpuPost_cfg (s : State) (b : Block) : (s.cpuPost b).cfg = s.cfg := by
  unfold State.cpuPost
  simp only
  split
  · split <;> exact s.haltBlock_cfg b
  · exact s.haltBlock_cfg b

theorem State.cpuCancel_cfg (s : State) : s.cpuCancel.cfg = s.cfg := by
  unfold State.cpuCancel
  split <;> rfl

theorem State.cpuAwait_cfg (s : State) : s.cpuAwait.cfg = s.cfg := by
  unfold State.cpuAwait
  split
  · exact s.takeInterrupt_cfg _
  · exact s.cpuCancel_cfg

theorem State.cpuStep_cfg {s t : State} (h : s.cpuStep = .next t) : t.cfg = s.cfg := by
  unfold State.cpuStep at h
  split at h
  · cases hp : s.phase <;> simp only [hp] at h
    case execute b k =>
      obtain ⟨i, u, -, hu, rfl⟩ := State.cpuExec_next h
      exact (u.afterUop_cfg b k).trans (exec_cfg hu)
    case faulted => cases h
    case fetch => cases h; exact s.cpuFetch_cfg
    case post b => cases h; exact s.cpuPost_cfg b
    case awaitVector => cases h; exact s.cpuAwait_cfg
    case stopped => cases h; rfl
  · cases h
    rfl

/-- The interrupt controller leaves the configuration, and changes no register but IFF1, which it clears where it was set
(60_exceptions.md R422). -/
theorem State.icStep_effect (s : State) : s.icStep.cfg = s.cfg ∧
    (s.icStep.regs = s.regs ∨ s.regs.iff1 = true ∧ s.icStep.regs = { s.regs with iff1 := false }) := by
  unfold State.icStep
  split
  · split
    · unfold State.icHandoff
      rw [State.runResumeTasks_eq]
      exact ⟨rfl, .inl rfl⟩
    · exact ⟨rfl, .inl rfl⟩
  · cases s.ic.reqQueue with
    | nil => exact ⟨rfl, .inl rfl⟩
    | cons v rest =>
      simp only [State.icAccept]
      split
      · next hi => exact ⟨rfl, .inr ⟨hi, rfl⟩⟩
      · exact ⟨rfl, .inl rfl⟩

theorem State.moveStep_cfg (s : State) (m : Move) : (s.moveStep m).cfg = s.cfg := by
  by_cases hm : m = .ic
  · subst hm
    unfold State.moveStep
    split
    · rfl
    · exact s.icStep_effect.1
  · exact (s.moveStep_leaves hm).cfg

theorem State.takeTurn_cfg {s t : State} {u : Turn} (h : s.takeTurn u = .next t) : t.cfg = s.cfg := by
  cases u with
  | cpu => exact State.cpuStep_cfg h
  | cpuCancel => cases h; exact s.cpuCancel_cfg
  | other m => cases h; exact s.moveStep_cfg m

/-- A step that answers is a turn of an engine that is not Faulted, with the agenda's next turn used up (log 5, 10). -/
theorem step_next {s t : State} (h : step s = .next t) :
    s.faulted = false ∧ ∃ l u, State.takeTurn { s with agenda := l } u = .next t := by
  have hf : s.faulted = false := by
    by_contra hf
    obtain ⟨e, he⟩ := s.faulted_iff.1 (by simpa using hf)
    rw [step_of_faulted he] at h
    cases h
  refine ⟨hf, ?_⟩
  cases ha : s.agenda with
  | nil => exact ⟨s.agenda, s.defaultTurn, by rwa [step_of_agenda_nil hf ha] at h⟩
  | cons u rest => exact ⟨rest, u, by rwa [step_of_agenda hf ha] at h⟩

/-! ### The invariant -/

/-- A CPU that runs has not acknowledged a halt (10_state.md R49). -/
theorem State.Inv.notAcknowledged {s : State} (h : s.Inv) (hp : s.phase.idle = false) : s.ic.haltAck = false := by
  by_contra ha
  obtain ⟨-, hi⟩ := h.acknowledged (by simpa using ha)
  rw [hp] at hi
  cases hi

/-- A CPU that has not acknowledged holds no vector (60_exceptions.md R424). -/
theorem State.Inv.slotEmpty {s : State} (h : s.Inv) (ha : s.ic.haltAck = false) : s.ic.vectorSlot = none := by
  by_contra hv
  have := h.slot (Option.isSome_iff_ne_none.2 hv)
  rw [ha] at this
  cases this

/-- The CPU may go on in any phase but Faulted that agrees with its acknowledgement. -/
theorem State.Inv.withPhase {s : State} (h : s.Inv) {p : Phase} (hw : p.wf s.cfg)
    (hi : s.ic.haltAck = true → p.idle = true) (ha : p ≠ .awaitVector) (hn : ∀ e, p ≠ .faulted e) :
    State.Inv { s with phase := p } :=
  { h with
    running := hw
    acknowledged := fun hk => ⟨(h.acknowledged hk).1, hi hk⟩
    waiting := fun hp => absurd hp ha
    failed := fun e he => absurd he (hn e) }

/-- `notifyResume()` of a controller whose slot is empty, with which the CPU goes on to fetch (60_exceptions.md R427). -/
theorem State.Inv.resume {s : State} (h : s.Inv) (hv : s.ic.vectorSlot = none) :
    State.Inv { s with ic := s.ic.notifyResume, phase := .fetch } :=
  { h with
    running := trivial
    acknowledged := fun ha => by cases ha
    waiting := fun hp => by cases hp
    slot := fun hs => by
      have hs : s.ic.vectorSlot.isSome = true := hs
      rw [hv] at hs
      cases hs
    failed := fun e he => by cases he }

theorem State.Inv.cpuFetch {s : State} (h : s.Inv) (hp : s.phase = .fetch) : s.cpuFetch.Inv := by
  have ha : s.ic.haltAck = false := h.notAcknowledged (by rw [hp]; rfl)
  unfold State.cpuFetch
  split
  · exact h.withPhase trivial (fun _ => rfl) (by simp) (by simp)
  · obtain ⟨hk, hb⟩ := h.getOrCompile (.decoder s.cfg.decoder) s.pc
    cases hg : s.getOrCompile (.decoder s.cfg.decoder) s.pc with
    | raised t =>
      rw [hg] at hk
      exact hk.1
    | ok b t =>
      rw [hg] at hk
      obtain ⟨ht, htp, -, htc⟩ := hk
      have hw : b.wf t.cfg := htc ▸ hb b t hg
      have hta : t.ic.haltAck = false := ht.notAcknowledged (by rw [htp, hp]; rfl)
      have ⟨_, _, hne, _, _⟩ := hw
      exact (ht.setPc (b.address + BitVec.ofNat 16 b.length)).withPhase (p := .execute b 0) ⟨hw, List.length_pos_of_ne_nil hne⟩
        (fun hk => absurd (hta.symm.trans hk) (by simp)) (by simp) (by simp)

/-- After a micro-operation the CPU is Faulted, or goes on to the next one or to Post (60_exceptions.md R442, R401). -/
theorem State.Inv.afterUop {s : State} (h : s.Inv) {b : Block} {k : Nat} (hw : b.wf s.cfg)
    (hp : s.faulted = true ∨ s.phase = .execute b k) : (s.afterUop b k).Inv := by
  unfold State.afterUop
  split
  · exact h
  · next hf =>
    have ha : s.ic.haltAck = false := h.notAcknowledged (by rw [hp.resolve_left hf]; rfl)
    have hn : ∀ q : Phase, s.ic.haltAck = true → q.idle = true := fun _ hk => absurd (ha.symm.trans hk) (by simp)
    split
    · next hk => exact h.withPhase (p := .execute b (k + 1)) ⟨hw, hk⟩ (hn _) (by simp) (by simp)
    · exact { h.withPhase (p := .post b) hw (hn _) (by simp) (by simp) with }

theorem State.Inv.cpuExec {s t : State} (hs : s.Inv) {b : Block} {k : Nat} (hp : s.phase = .execute b k)
    (h : s.cpuExec b k = .next t) : t.Inv := by
  obtain ⟨i, u, hi, hu, rfl⟩ := State.cpuExec_next h
  have hr := hs.running
  rw [hp] at hr
  obtain ⟨hb, -⟩ := hr
  have ⟨_, _, _, _, hbody⟩ := hb
  obtain ⟨hu', hup⟩ := exec_inv (wfBody_get hbody hi).1 hs (by simp [State.faulted, hp, Phase.isFaulted]) hu
  exact hu'.afterUop (exec_cfg hu ▸ hb) (hup.imp_right fun e => e.trans hp)

/-- What a HALT-class block does keeps the invariant, the phase and the acknowledgement (60_exceptions.md R443, R444). -/
theorem State.Inv.haltBlock {s : State} (h : s.Inv) {b : Block} (hf : s.faulted = false) :
    (s.haltBlock b).Inv ∧ (s.haltBlock b).phase = s.phase ∧ (s.haltBlock b).ic.haltAck = s.ic.haltAck := by
  have hh : State.Inv { s with ic := s.ic.halt } :=
    { h with acknowledged := fun ha => ⟨rfl, (h.acknowledged ha).2⟩ }
  unfold State.haltBlock
  split
  · simp only
    split
    · refine ⟨{ hh.emit hf .signalHalt with peripherals := fun _ => ?_ }, rfl, rfl⟩
      simp [State.signalHalt, Ic.addResumeTask]
    · exact ⟨hh, rfl, rfl⟩
  · exact ⟨h, rfl, rfl⟩

theorem State.Inv.cpuPost {s : State} (h : s.Inv) {b : Block} (hp : s.phase = .post b) : (s.cpuPost b).Inv := by
  obtain ⟨h1, h1p, h1a⟩ := h.haltBlock (b := b) (by simp [State.faulted, hp, Phase.isFaulted])
  have hv : (s.haltBlock b).ic.vectorSlot = none :=
    h1.slotEmpty (h1a.trans (h.notAcknowledged (by rw [hp]; rfl)))
  unfold State.cpuPost
  simp only
  split
  · next hh =>
    split
    · exact
        { h1 with
          running := trivial
          acknowledged := fun _ => ⟨hh, rfl⟩
          waiting := fun _ => rfl
          slot := fun _ => rfl
          failed := fun e he => by cases he }
    · exact h1.resume hv
  · exact h1.resume hv

/-- The interrupt entry of a CPU that waits (60_exceptions.md R446). -/
theorem State.Inv.takeInterrupt {s : State} (h : s.Inv) (hf : s.faulted = false) (v : Word) :
    (s.takeInterrupt v).state.Inv := by
  have h0 : State.Inv { s with ic := { s.ic with vectorSlot := none } } := { h with slot := fun hs => by cases hs }
  have hk := h0.pushWord hf s.pc
  unfold State.takeInterrupt
  simp only
  cases hx : State.pushWord { s with ic := { s.ic with vectorSlot := none } } s.pc with
  | raised t =>
    rw [hx] at hk
    exact hk.1
  | ok w t =>
    rw [hx] at hk
    obtain ⟨ht, -, hv, -⟩ := hk
    exact (ht.setPc v).resume hv

theorem State.Inv.cpuCancel {s : State} (h : s.Inv) : s.cpuCancel.Inv := by
  unfold State.cpuCancel
  split
  · exact h.withPhase trivial (fun _ => rfl) (by simp) (by simp)
  · exact h

theorem State.Inv.cpuAwait {s : State} (h : s.Inv) (hf : s.faulted = false) : s.cpuAwait.Inv := by
  unfold State.cpuAwait
  split
  · exact h.takeInterrupt hf _
  · exact h.cpuCancel

theorem State.Inv.cpuStep {s t : State} (hs : s.Inv) (h : s.cpuStep = .next t) : t.Inv := by
  unfold State.cpuStep at h
  split at h
  · cases hp : s.phase <;> simp only [hp] at h
    case execute b k => exact hs.cpuExec hp h
    case faulted => cases h
    case fetch => cases h; exact hs.cpuFetch hp
    case post b => cases h; exact hs.cpuPost hp
    case awaitVector => cases h; exact hs.cpuAwait (by simp [State.faulted, hp, Phase.isFaulted])
    case stopped => cases h; exact hs
  · cases h
    exact hs

theorem State.Inv.takeTurn {s t : State} (hs : s.Inv) {u : Turn} (h : s.takeTurn u = .next t) : t.Inv := by
  cases u with
  | cpu => exact hs.cpuStep h
  | cpuCancel => cases h; exact hs.cpuCancel
  | other m => cases h; exact hs.moveStep m

/-- Settles O57: the invariant is kept by the turn that the step takes, the CPU's phase by phase. -/
theorem everyStepKeepsTheInvariant : Obligations.EveryStepKeepsTheInvariant := by
  intro s t hs h
  obtain ⟨-, l, u, hu⟩ := step_next h
  exact (hs.agenda l).takeTurn hu

/-- Settles O59: no turn writes the configuration, and of the other agents only the interrupt controller writes a register. -/
theorem otherAgentsLeaveTheRegisters : Obligations.OtherAgentsLeaveTheRegisters := by
  refine ⟨fun s t h => ?_, fun s m => ?_⟩
  · obtain ⟨-, l, u, hu⟩ := step_next h
    exact State.takeTurn_cfg (s := { s with agenda := l }) hu
  · by_cases hm : m = .ic
    · subst hm
      unfold State.moveStep
      split
      · exact .inl rfl
      · exact s.icStep_effect.2.imp_right fun h => ⟨rfl, h⟩
    · exact .inl (s.moveStep_leaves hm).regs

end Sys2Proof.Machine

/-! SUPPORT. Register pairs and the state after reset (10_state.md R35, R60, 70_reset_and_hazards.md R501). -/

namespace Sys2Proof.Machine

/-! ### Register pairs (10_state.md R35) -/

theorem Regs.get16_of_halves (g : Regs) {x : Reg16} {hi lo : Reg8} (h : x.halves = [hi, lo]) :
    g.get16 x = g.get8 hi ++ g.get8 lo := by
  cases x <;> cases h <;> rfl

theorem Regs.get8_set16_halves (g : Regs) {x : Reg16} {hi lo : Reg8} (h : x.halves = [hi, lo]) (v : Word) :
    (g.set16 x v).get8 hi = highByte v ∧ (g.set16 x v).get8 lo = lowByte v := by
  cases x <;> cases h <;> simp [Regs.set16, Regs.get8]

theorem Reg16.halves_ne {x : Reg16} {hi lo : Reg8} (h : x.halves = [hi, lo]) : hi ≠ lo := by
  cases x <;> cases h <;> decide

/-- Settles O5: the halves of each pair, and that a write of one half leaves the other. -/
theorem pairsAreTheirTwoHalves : Obligations.PairsAreTheirTwoHalves := by
  intro x hi lo h s v b
  have hne : hi ≠ lo := Reg16.halves_ne h
  have hread : ∀ t : State, t.get16 x = t.get8 hi ++ t.get8 lo := fun t => t.regs.get16_of_halves h
  obtain ⟨hhi, hlo⟩ := s.regs.get8_set16_halves h v
  refine ⟨hread s, hhi, hlo, ?_, ?_⟩
  · rw [hread, State.get8_set8_self, State.get8_set8_of_ne s b hne.symm]
  · rw [hread, State.get8_set8_self, State.get8_set8_of_ne s b hne]

/-! ### Reset (10_state.md R60) -/

/-- After reset an address of a RAM or ROM segment holds the configured byte, where there is one (20_memory.md R89). -/
theorem State.byteAt_resetWith {c : Config} {d : PowerOn} {a : Word} {v : Byte}
    (h : (State.resetWith c d).cfg.resetByte a = some v) : (State.resetWith c d).byteAt a = v := by
  show Memory.unlisted _ a = v
  rw [Memory.unlisted, h]
  rfl

theorem Config.resetByte_of_init {c : Config} {a : Word} {bytes : List Byte}
    (hb : (c.segmentAt a).kind.backed = true) (hi : (c.segmentAt a).init = some bytes) :
    c.resetByte a = bytes[a.toNat - (c.segmentAt a).base.toNat]? := by
  simp [Config.resetByte, hb, hi]

theorem Config.resetByte_of_noInit {c : Config} {a : Word} (hb : (c.segmentAt a).kind.backed = true)
    (hi : (c.segmentAt a).init = none) : c.resetByte a = c.ramInit := by
  simp [Config.resetByte, hb, hi]

theorem State.resetWith_phase (c : Config) (d : PowerOn) :
    (configError c.segments = none ∧ (State.resetWith c d).phase = .fetch ∧ (State.resetWith c d).log = []) ∨
      ∃ e, configError c.segments = some e ∧ (State.resetWith c d).phase = .faulted e ∧
        (State.resetWith c d).log = [.fatal e] := by
  unfold State.resetWith
  cases configError c.segments with
  | none => exact .inl ⟨rfl, rfl, rfl⟩
  | some e => exact .inr ⟨e, rfl, rfl, rfl⟩

/-- Settles O56: the stated values by definition, the memory by the configured bytes, and the phase by what construction
found. -/
theorem resetLeavesTheStatedValues : Obligations.ResetLeavesTheStatedValues := by
  refine ⟨fun c d h => ?_, fun c d e h => ?_, rfl⟩
  · rcases State.resetWith_phase c d with ⟨-, hp, hl⟩ | ⟨e, he, -⟩
    · refine ⟨rfl, rfl, rfl, rfl, rfl, rfl, rfl, rfl, rfl, rfl, rfl, rfl, rfl, rfl, rfl, rfl, rfl, rfl, rfl, rfl, rfl, rfl,
        hp, rfl, rfl, rfl, rfl, rfl, hl, fun a bytes v hb hi hv => ?_, fun a v hb hi hv => ?_⟩
      · exact State.byteAt_resetWith ((Config.resetByte_of_init hb hi).trans hv)
      · exact State.byteAt_resetWith ((Config.resetByte_of_noInit hb hi).trans hv)
    · rw [h] at he
      cases he
  · rcases State.resetWith_phase c d with ⟨hn, -⟩ | ⟨e', he, hp, hl⟩
    · rw [h] at hn
      cases hn
    · rw [h] at he
      cases he
      exact ⟨hl, step_of_faulted hp⟩

theorem State.resetWith_inv (c : Config) (d : PowerOn) : (State.resetWith c d).Inv := by
  have hphase := State.resetWith_phase c d
  refine
    { memory := rfl
      keys := List.Pairwise.nil
      entries := fun e he => nomatch he
      running := ?_
      mode := show (0 : BitVec 2) ≠ 3 by decide
      enable := fun h => h
      vector := rfl
      acknowledged := fun h => nomatch h
      waiting := fun hw => ?_
      slot := fun h => nomatch h
      peripherals := fun h => nomatch h
      pump := ⟨(fun e he => nomatch he), rfl, rfl⟩
      job := ⟨Nat.zero_le _, Nat.zero_le _, Nat.le_refl _, Nat.le_refl _, Nat.le_refl _⟩
      failed := fun e he => ?_ }
  · rcases hphase with ⟨-, hp, -⟩ | ⟨e, -, hp, -⟩ <;> rw [hp] <;> trivial
  · rcases hphase with ⟨-, hp, -⟩ | ⟨e, -, hp, -⟩ <;> rw [hp] at hw <;> cases hw
  · rcases hphase with ⟨-, hp, -⟩ | ⟨e', -, hp, hl⟩ <;> rw [hp] at he <;> cases he
    rw [hl]
    rfl

/-- Settles O58: reset with any configuration and any values in the unspecified registers. -/
theorem resetMeetsTheInvariant : Obligations.ResetMeetsTheInvariant :=
  ⟨State.resetWith_inv, State.resetWith_inv _ _⟩

end Sys2Proof.Machine

/-! SUPPORT. The address space and the cache: ranges, construction, invalidation, compiled blocks (20_memory.md R80 to R91,
R131 to R140). -/

namespace Sys2Proof

/-! ### Ranges and construction (20_memory.md R80, R81, R87 to R91) -/

theorem rangesOf_length {a : Word} {n : Nat} (hn : 1 ≤ n) : (rangesOf a n).length ∈ [1, 2] := by
  have h0 : min n spaceSize ≠ 0 := by
    have : spaceSize = 65536 := rfl
    omega
  unfold rangesOf
  simp only [if_neg h0]
  split <;> simp

theorem rangesOf_of_gt (a : Word) {n : Nat} (h : spaceSize < n) : rangesOf a n = rangesOf a spaceSize := by
  unfold rangesOf
  rw [Nat.min_eq_right (Nat.le_of_lt h), Nat.min_self]

/-- Settles O53: the ranges hold exactly the addresses of the run. -/
theorem rangesCoverTheRun : Obligations.RangesCoverTheRun :=
  ⟨fun a n h1 h2 => ⟨rangesOf_length h1, fun _ hr => rangesOf_high hr, fun x _ => inRanges_rangesOf a n x h2⟩,
    fun _ => rfl, fun a _ h => rangesOf_of_gt a h, by decide⟩

theorem mem_insertSegment {g s : Segment} : ∀ {l : List Segment}, g ∈ insertSegment s l ↔ g = s ∨ g ∈ l
  | [] => by simp [insertSegment]
  | t :: l => by
    unfold insertSegment
    split
    · exact List.mem_cons
    · rw [List.mem_cons, mem_insertSegment, List.mem_cons]
      exact or_left_comm

theorem mem_sortSegments {g : Segment} : ∀ {l : List Segment}, g ∈ sortSegments l ↔ g ∈ l
  | [] => Iff.rfl
  | s :: l => by rw [sortSegments, mem_insertSegment, mem_sortSegments, List.mem_cons]

/-- The initial contents given to the RAM and ROM segments have their segment's length (20_memory.md R89). -/
def ContentsFit (l : List Segment) : Prop :=
  ∀ g ∈ l, g.kind.backed = true → ∀ bytes, g.init = some bytes → bytes.length = g.length

theorem contentsFit_cons {s : Segment} {l : List Segment} : ContentsFit (s :: l) ↔
    (s.kind.backed = true → ∀ bytes, s.init = some bytes → bytes.length = s.length) ∧ ContentsFit l :=
  List.forall_mem_cons

theorem checkContents_iff : ∀ {l : List Segment}, checkContents l = none ↔ ContentsFit l
  | [] => ⟨fun _ _ h => (nomatch h), fun _ => rfl⟩
  | s :: l => by
    rw [contentsFit_cons, ← checkContents_iff, checkContents]
    cases hb : s.kind.backed with
    | false => simp
    | true =>
      cases hi : s.init with
      | none => simp
      | some bytes => by_cases hl : bytes.length = s.length <;> simp [hl]

theorem configError_iff {l : List Segment} :
    configError l = none ↔ Machine.Tiles 0 (sortSegments l) ∧ ContentsFit l := by
  have hfit : ContentsFit (sortSegments l) ↔ ContentsFit l := by simp only [ContentsFit, mem_sortSegments]
  rw [← checkTiling_iff, ← hfit, ← checkContents_iff, configError]
  cases checkTiling 0 (sortSegments l) <;> simp

end Sys2Proof

namespace Sys2Proof.Machine

theorem Tiles.le_base : ∀ {n : Nat} {l : List Segment}, Tiles n l → ∀ t ∈ l, n ≤ t.base.toNat
  | _, s :: rest, ⟨hb, _, hr⟩, t, ht => by
    rcases List.mem_cons.1 ht with rfl | ht
    · exact Nat.le_of_eq hb.symm
    · exact Nat.le_trans (Nat.le_add_right _ _) (Tiles.le_base hr t ht)

theorem Tiles.sortSegments_eq : ∀ {n : Nat} {l : List Segment}, Tiles n l → sortSegments l = l
  | _, [], _ => rfl
  | n, s :: rest, ⟨hb, _, hr⟩ => by
    rw [sortSegments, Tiles.sortSegments_eq hr]
    refine insertSegment_of_le fun t ht => ?_
    have := Tiles.le_base hr t ht
    omega

/-- In a list that tiles, the lookup of an address finds every segment that holds it: there is one only (20_memory.md R91). -/
theorem Tiles.floor_of_mem : ∀ {n : Nat} {l : List Segment}, Tiles n l → ∀ {h : Segment}, h ∈ l → ∀ {a : Nat},
    h.base.toNat ≤ a → a < h.base.toNat + h.length → floorSegment l a = some h
  | n, s :: rest, ⟨hb, _, hr⟩, h, hm, a, h1, h2 => by
    unfold floorSegment
    rcases List.mem_cons.1 hm with rfl | hm
    · rw [Tiles.floor_none hr (by omega)]
      exact if_pos h1
    · rw [Tiles.floor_of_mem hr hm h1 h2]

/-- Settles O55: validation accepts the tilings, and the lookup in one is that of the only segment there. -/
theorem constructionAcceptsTilings : Obligations.ConstructionAcceptsTilings := by
  refine ⟨fun l => checkTiling_iff, fun l => configError_iff, fun l h => h.sortSegments_eq, fun l h a => ?_, by decide⟩
  obtain ⟨g, hg, hf, -, h1, h2, -⟩ := Tiles.floor h (Nat.zero_le _) a.isLt
  refine ⟨g, hg, hf, h1, h2, fun k hk hk1 hk2 => ?_⟩
  exact Option.some.inj ((Tiles.floor_of_mem h hk hk1 hk2).symm.trans hf)

/-! ### The step of another agent than the CPU -/

/-- A turn of the pump, named by the agenda, is the pump's step. -/
theorem step_of_dma {s : State} {more : List Turn} (hf : s.faulted = false) (h : s.agenda = .other .dma :: more) :
    step s = .next (State.dmaStep { s with agenda := more }) :=
  (step_of_other hf h).trans (congrArg _ (if_neg (ne_true_of_eq_false hf)))

/-- A move of the environment, named by the agenda, is the environment's step. -/
theorem step_of_env {s : State} {m : EnvMove} {more : List Turn} (hf : s.faulted = false)
    (h : s.agenda = .other (.env m) :: more) : step s = .next (State.envStep { s with agenda := more } m) :=
  (step_of_other hf h).trans (congrArg _ (if_neg (ne_true_of_eq_false hf)))

/-- A turn of the sweeper, named by the agenda, is the sweeper's step. -/
theorem step_of_sweep {s : State} {more : List Turn} (hf : s.faulted = false) (h : s.agenda = .other .sweep :: more) :
    step s = .next (State.sweepStep { s with agenda := more }) :=
  (step_of_other hf h).trans (congrArg _ (if_neg (ne_true_of_eq_false hf)))

/-! ### Invalidation (20_memory.md R137, R140) -/

theorem rangesMeet_eq_false_iff {l m : List AddressRange} :
    rangesMeet l m = false ↔ ∀ r ∈ m, ∀ w ∈ l, ¬max r.low w.low ≤ min r.high w.high := by
  simp only [rangesMeet, AddressRange.intersects, List.any_eq_false, Bool.not_eq_true, decide_eq_false_iff_not]
  constructor <;> intro h r hr w hw
  · rw [max_comm, min_comm]
    exact h w hw r hr
  · rw [max_comm, min_comm]
    exact h w hw r hr

theorem Cache.invalidate_zero (c : Cache) (a : Word) : c.invalidate a 0 = c :=
  List.filter_eq_self.2 fun _ _ => rfl

/-- Settles O51: membership in the filtered cache, and the two ranges of the example. -/
theorem invalidateRemovesTheIntersecting : Obligations.InvalidateRemovesTheIntersecting := by
  refine ⟨fun s a n more hf h => ⟨s.cache.invalidate a n, step_of_env hf h, fun e => ?_, fun hn => ?_⟩, fun e he s hm => ?_⟩
  · rw [Cache.mem_invalidate, rangesMeet_eq_false_iff]
  · rw [hn, Cache.invalidate_zero]
  · have hmeet : rangesMeet (rangesOf 0x0005 1) (rangesOf 0xFFF0 32) = true := by decide
    have hkept := (Cache.mem_invalidate.1 hm).2
    rw [he, hmeet] at hkept
    cases hkept

/-- Settles O52: a string written to its end drops exactly the entries of the RAM bytes it stored. -/
theorem storesInvalidateWhatTheyTouch : Obligations.StoresInvalidateWhatTheyTouch := by
  intro s t a bytes ht ha hl hw h e
  obtain ⟨m, c, -, -, -, hok, -, hdrops⟩ := State.writeBytes_stores (bytes := bytes) ha (Nat.le_refl _) hl hw
  obtain rfl : s.stored m c = t := by
    have hr := (hok rfl).symm.trans h
    cases hr
    rfl
  refine (hdrops ht (.inl rfl) e).trans (and_congr_right fun _ => ⟨fun k j hj => k _ ⟨j, hj, rfl⟩, ?_⟩)
  rintro k _ ⟨j, hj, rfl⟩
  exact k j hj

/-! ### Compiled blocks and the sweep (20_memory.md R131, R135, R139) -/

/-- A block that is cached is a hit, whatever the compile function. -/
theorem State.getOrCompile_of_find {s : State} {a : Word} {e : CacheEntry} (f : CompileFn) (h : s.cache.find a = some e) :
    s.getOrCompile f a = .ok e.block { s with cache := s.cache.touch a } := by
  rw [State.getOrCompile, h]

/-- A block `getOrCompile` gave is cached. -/
theorem State.find_of_getOrCompile {s t : State} {f : CompileFn} {a : Word} {b : Block}
    (h : s.getOrCompile f a = .ok b t) : ∃ e, t.cache.find a = some e ∧ e.block = b := by
  rcases s.getOrCompile_effect f a with ⟨e, he, hg⟩ | ⟨-, c, l, d, -, hc, -, hg⟩ | ⟨-, e, l, d, -, hg⟩ <;>
    rw [hg] at h <;> cases h
  · exact ⟨e.hit, Cache.find_touch_self he, rfl⟩
  · exact ⟨entryOf b, (Cache.find_insert (entryOf b) a s.cache).trans (if_pos hc), rfl⟩

/-- What `getOrCompile` does with the compile function's block where none is cached: it is inserted if the cache takes it,
else UnsupportedInstruction is raised. -/
theorem State.getOrCompile_of_compile {s t : State} {f : CompileFn} {a : Word} {b : Block}
    (h : s.compile f a = .ok b t) (hn : s.cache.find a = none) :
    (b.wf s.cfg → s.getOrCompile f a = .ok b { t with cache := t.cache.insert (entryOf b) }) ∧
      (¬b.wf s.cfg → s.getOrCompile f a = .raised (t.raise (.unsupportedInstruction a))) := by
  rw [← Block.admitted_iff, State.getOrCompile, hn]
  simp only [h, Res.bind_ok]
  exact ⟨fun hw => if_pos hw, fun hw => if_neg hw⟩

theorem State.getOrCompile_of_compile_raised {s t : State} {f : CompileFn} {a : Word} (h : s.compile f a = .raised t)
    (hn : s.cache.find a = none) : s.getOrCompile f a = .raised t := by
  rw [State.getOrCompile, hn]
  simp only [h, Res.bind_raised]

/-- A compile function touches no entry, and its block is one of the address asked for. -/
theorem State.compile_ok {s t : State} {f : CompileFn} {a : Word} {b : Block} (h : s.compile f a = .ok b t) :
    t.cache = s.cache ∧ b.address = a := by
  rcases s.compile_effect f a with ⟨c, l, d, hc, ha⟩ | ⟨e, l, d, -, he⟩
  · rw [hc] at h
    cases h
    exact ⟨rfl, ha⟩
  · rw [he] at h
    cases h

theorem State.compile_raised {s t : State} {f : CompileFn} {a : Word} (h : s.compile f a = .raised t) :
    t.cache = s.cache ∧ t.faulted = true := by
  rcases s.compile_effect f a with ⟨c, l, d, hc, -⟩ | ⟨e, l, d, -, he⟩
  · rw [hc] at h
    cases h
  · rw [he] at h
    cases h
    exact ⟨rfl, rfl⟩

theorem Cache.find_insert_entryOf (c : Cache) {a : Word} {b : Block} (h : b.address = a) :
    (c.insert (entryOf b)).find a = some { block := b, ranges := rangesOf a b.length, accessCount := 0 } ∧
      ∀ x, x ≠ a → (c.insert (entryOf b)).find x = c.find x := by
  subst h
  exact ⟨(Cache.find_insert _ _ c).trans (if_pos rfl), fun x hx => (Cache.find_insert _ _ c).trans (if_neg hx.symm)⟩

/-- The environment's call of `getOrCompile`, named by the agenda. -/
theorem step_of_getOrCompile {s : State} {f : CompileFn} {a : Word} {more : List Turn} (hf : s.faulted = false)
    (h : s.agenda = .other (.env (.getOrCompile a f)) :: more) {r : Res Block}
    (hr : State.getOrCompile { s with agenda := more } f a = r) : step s = .next r.state := by
  rw [step_of_env hf h, State.envStep, hr]

/-- Settles O54: a compiled block is a hit afterwards; the environment's call; the sweep. -/
theorem compiledBlockIsFoundAgain : Obligations.CompiledBlockIsFoundAgain := by
  refine ⟨fun s t f g a b h => ?_, fun s f a more hf h => ?_, fun s a p d b => ⟨rfl, rfl, rfl⟩, fun s more hf h => ?_⟩
  · obtain ⟨e, he, rfl⟩ := State.find_of_getOrCompile h
    exact ⟨t.cache.touch a, State.getOrCompile_of_find g he, fun x hx => Cache.find_touch_of_ne hx t.cache⟩
  · refine ⟨fun e he => ?_, fun hn b t hb => ?_, fun hn t ht => ?_⟩
    · exact ⟨s.cache.touch a, step_of_getOrCompile hf h (State.getOrCompile_of_find f he), Cache.find_touch_self he,
        fun x hx => Cache.find_touch_of_ne hx s.cache⟩
    · obtain ⟨hcache, haddr⟩ := State.compile_ok hb
      obtain ⟨hself, hother⟩ := Cache.find_insert_entryOf t.cache haddr
      obtain ⟨hok, hbad⟩ := State.getOrCompile_of_compile hb hn
      refine ⟨fun hw => ⟨t.cache.insert (entryOf b), step_of_getOrCompile hf h (hok hw), hself, fun x hx => ?_⟩,
        fun hw => ⟨step_of_getOrCompile hf h (hbad hw), hcache⟩⟩
      rw [hother x hx, hcache]
    · obtain ⟨hcache, hfaulted⟩ := State.compile_raised ht
      exact ⟨step_of_getOrCompile hf h (State.getOrCompile_of_compile_raised ht hn), hcache, hfaulted⟩
  · rw [step_of_sweep hf h]
    exact ⟨fun hs => congrArg _ (if_neg (ne_true_of_eq_false hs)),
      fun hs => ⟨s.cache.sweep, congrArg _ (if_pos hs), fun e => Cache.mem_sweep⟩⟩

end Sys2Proof.Machine

/-! SUPPORT. The pump and the environment: their byte accesses on every kind of segment, and the copy of a DMA operation
(20_memory.md R83 to R86, R104 to R107, R121 to R127). -/

namespace Sys2Proof.Machine

/-! ### Byte accesses and the agenda -/

/-- Everything a byte read that raises nothing can do: one of the cases of `State.reads` (20_memory.md R83 to R86, R100). -/
theorem State.readByte_reads {s : State} {a : Word} (h : ¬s.readRaises a) :
    ∃ v u, s.readByte a = .ok v u ∧ s.reads a v u := by
  unfold State.reads
  cases hr : (s.segmentAt a).cap.canRead with
  | false =>
    cases hp : s.cfg.readFaultPolicy with
    | ignore =>
      exact ⟨Config.draw s.draws, { s with draws := s.draws + 1 }, by simp [State.readByte, State.draw, hr, hp], by simp⟩
    | raise => exact absurd ⟨hr, hp⟩ h
  | true =>
    cases hk : (s.segmentAt a).kind with
    | ram | rom =>
      have hb : s.readable a := ⟨hr, by rw [hk]; rfl⟩
      exact ⟨s.byteAt a, s, State.readByte_of_readable hb, .inl ⟨hb, rfl, rfl⟩⟩
    | peripheral =>
      cases hi : s.inputs with
      | nil =>
        exact ⟨Config.draw s.draws, { s with draws := s.draws + 1 },
          by simp [State.readByte, State.answer, State.draw, hr, hk, hi], by simp [hi]⟩
      | cons v rest =>
        exact ⟨v, { s with inputs := rest }, by simp [State.readByte, State.answer, hr, hk, hi], by simp⟩
    | unused =>
      cases hu : s.cfg.unusedRead with
      | none =>
        exact ⟨Config.draw s.draws, { s with draws := s.draws + 1 },
          by simp [State.readByte, State.draw, hr, hk, hu], by simp⟩
      | some v => exact ⟨v, s, by simp [State.readByte, hr, hk, hu], by simp⟩

/-- What an operation gives, with other turns on the agenda. -/
def Res.withAgenda {α : Type} (l : List Turn) : Res α → Res α
  | .ok v s => .ok v { s with agenda := l }
  | .raised s => .raised { s with agenda := l }

/-- A byte read does not look at the agenda. -/
theorem State.readByte_withAgenda (s : State) (l : List Turn) (a : Word) :
    State.readByte { s with agenda := l } a = (s.readByte a).withAgenda l := by
  have hseg : State.segmentAt { s with agenda := l } a = s.segmentAt a := rfl
  simp only [State.readByte, hseg]
  cases (s.segmentAt a).cap.canRead with
  | false => cases s.cfg.readFaultPolicy <;> rfl
  | true =>
    cases (s.segmentAt a).kind with
    | ram | rom => rfl
    | peripheral =>
      show State.answer _ = Res.withAgenda l s.answer
      cases hi : s.inputs <;> simp [State.answer, State.draw, Res.withAgenda, hi]
    | unused => cases s.cfg.unusedRead <;> rfl

theorem State.performWrite_withAgenda (s : State) (l : List Turn) (a : Word) (v : Byte) :
    State.performWrite { s with agenda := l } a v = { s.performWrite a v with agenda := l } := by
  have hseg : State.segmentAt { s with agenda := l } a = s.segmentAt a := rfl
  simp only [State.performWrite, hseg]
  cases (s.segmentAt a).kind <;> rfl

theorem State.notify_withAgenda (s : State) (l : List Turn) (a : Word) (n j : Nat) :
    State.notify { s with agenda := l } a n j = { s.notify a n j with agenda := l } := by
  have hseg : State.segmentAt { s with agenda := l } a = s.segmentAt a := rfl
  simp only [State.notify, hseg]
  split <;> rfl

/-- A byte write does not look at the agenda. -/
theorem State.writeStringByte_withAgenda (s : State) (l : List Turn) (a : Word) (n j : Nat) (v : Byte) :
    State.writeStringByte { s with agenda := l } a n j v = (s.writeStringByte a n j v).withAgenda l := by
  have hseg : State.segmentAt { s with agenda := l } (a + BitVec.ofNat 16 j) = s.segmentAt (a + BitVec.ofNat 16 j) := rfl
  simp only [State.writeStringByte_eq, hseg, State.performWrite_withAgenda, State.notify_withAgenda]
  split
  · rfl
  · split <;> rfl

/-- A byte read that raises nothing, by an agent whose turn is off the agenda: it leaves the pump and the string operation
alone. -/
theorem State.readByte_turn {s : State} {a : Word} (more : List Turn) (h : ¬s.readRaises a) :
    ∃ v u, s.reads a v u ∧ State.readByte { s with agenda := more } a = .ok v { u with agenda := more } ∧
      u.dma = s.dma ∧ u.envJob = s.envJob := by
  obtain ⟨v, u, hu, hr⟩ := State.readByte_reads h
  refine ⟨v, u, hr, by rw [State.readByte_withAgenda, hu]; rfl, ?_⟩
  rcases s.readByte_effect a with ⟨w, l, d, e⟩ | e <;> rw [e] at hu <;> cases hu
  exact ⟨rfl, rfl⟩

/-- A byte write that raises nothing, by an agent whose turn is off the agenda: it leaves the pump and the string operation
alone. -/
theorem State.writeStringByte_turn {s : State} {a : Word} {n j : Nat} (v : Byte) (more : List Turn)
    (h : ¬s.writeRaises (a + BitVec.ofNat 16 j)) :
    ∃ u, s.writesByte a n j v u ∧
      State.writeStringByte { s with agenda := more } a n j v = .ok () { u with agenda := more } ∧
      u.dma = s.dma ∧ u.envJob = s.envJob := by
  obtain ⟨u, hu, hw⟩ := State.writeStringByte_writesByte (n := n) v h
  refine ⟨u, hw, by rw [State.writeStringByte_withAgenda, hu]; rfl, ?_⟩
  rcases s.writeStringByte_effect a n j v with ⟨m, c, l, e⟩ | e <;> rw [e] at hu <;> cases hu
  exact ⟨rfl, rfl⟩

/-! ### The steps of the pump (20_memory.md R123 to R125) -/

theorem State.dmaStep_of_queue {s : State} {op : DmaOp} {rest : List DmaOp} (hc : s.dma.current = none)
    (hq : s.dma.queue = op :: rest) : s.dmaStep = s.dmaTake op rest := by
  simp only [State.dmaStep, hc, hq]

theorem State.dmaStep_of_queue_nil {s : State} (hc : s.dma.current = none) (hq : s.dma.queue = []) : s.dmaStep = s := by
  simp only [State.dmaStep, hc, hq]

theorem State.dmaStep_of_read {s u : State} {op : DmaOp} {v : Byte}
    (h : s.readByte (op.source + BitVec.ofNat 16 s.dma.i) = .ok v u) (hc : s.dma.current = some op)
    (hi : s.dma.i < op.length) :
    s.dmaStep = { u with dma := { u.dma with buffer := u.dma.buffer ++ [v], i := u.dma.i + 1 } } := by
  simp only [State.dmaStep, hc, if_pos hi, State.dmaRead, h]

theorem State.dmaStep_of_read_raised {s u : State} {op : DmaOp}
    (h : s.readByte (op.source + BitVec.ofNat 16 s.dma.i) = .raised u) (hc : s.dma.current = some op)
    (hi : s.dma.i < op.length) : s.dmaStep = u := by
  simp only [State.dmaStep, hc, if_pos hi, State.dmaRead, h]

theorem State.dmaStep_of_write {s u : State} {op : DmaOp}
    (h : s.writeStringByte op.destination op.length s.dma.j (s.dma.buffer.getD s.dma.j 0) = .ok () u)
    (hc : s.dma.current = some op) (hi : s.dma.i = op.length) (hj : s.dma.j < op.length) :
    s.dmaStep = { u with dma := { u.dma with j := u.dma.j + 1 } } := by
  simp only [State.dmaStep, hc, hi, Nat.lt_irrefl, if_false, if_pos hj, State.dmaWrite, h]

theorem State.dmaStep_of_write_raised {s u : State} {op : DmaOp}
    (h : s.writeStringByte op.destination op.length s.dma.j (s.dma.buffer.getD s.dma.j 0) = .raised u)
    (hc : s.dma.current = some op) (hi : s.dma.i = op.length) (hj : s.dma.j < op.length) : s.dmaStep = u := by
  simp only [State.dmaStep, hc, hi, Nat.lt_irrefl, if_false, if_pos hj, State.dmaWrite, h]

theorem State.dmaStep_of_written {s : State} {op : DmaOp} (hc : s.dma.current = some op) (hi : s.dma.i = op.length)
    (hj : s.dma.j = op.length) : s.dmaStep = s.dmaDone := by
  simp only [State.dmaStep, hc, hi, hj, Nat.lt_irrefl, if_false]

/-- Settles O47: DMA-TAKE, and the spent turn. -/
theorem dmaTakesTheHead : Obligations.DmaTakesTheHead := by
  intro s more hf h hc
  rw [step_of_dma hf h]
  exact ⟨fun op rest hq => congrArg _ (State.dmaStep_of_queue hc hq), fun hq => congrArg _ (State.dmaStep_of_queue_nil hc hq)⟩

theorem getD_of_getElem? {l : List Byte} {k : Nat} {v : Byte} (h : l[k]? = some v) : l.getD k 0 = v := by
  rw [List.getD_eq_getElem?_getD, h, Option.getD_some]

/-- Settles O48: each access of the pump is a byte access of an agent, DMA-DONE is by definition. -/
theorem dmaMovesOneByteAStep : Obligations.DmaMovesOneByteAStep := by
  intro s more op hf h hc
  rw [step_of_dma hf h]
  refine ⟨fun hi hr => ?_, fun hi hr => ?_, fun v hi hj hv hw => ?_, fun hi hj hw => ?_, fun hi hj => ?_⟩
  · obtain ⟨v, u, hreads, hu, hdma, -⟩ := State.readByte_turn more hr
    refine ⟨v, u, hreads, ?_⟩
    rw [State.dmaStep_of_read hu hc hi, ← hdma]
  · exact congrArg _ (State.dmaStep_of_read_raised (State.readByte_of_readRaises hr) hc hi)
  · obtain ⟨u, hwrites, hu, hdma, -⟩ := State.writeStringByte_turn (n := op.length) v more hw
    rw [← getD_of_getElem? hv] at hu
    refine ⟨u, hwrites, ?_⟩
    rw [State.dmaStep_of_write hu hc hi hj, ← hdma]
  · exact congrArg _ (State.dmaStep_of_write_raised (State.writeStringByte_of_writeRaises _ hw) hc hi hj)
  · exact congrArg _ (State.dmaStep_of_written hc hi hj)

/-! ### The string operations of the environment (20_memory.md R104 to R107; log 13) -/

theorem State.beginJob_of_idle {s : State} {x : EnvJob} (hb : s.envJob.busy = false) (hx : x.inRange = true) :
    s.beginJob x = { s with envJob := x } := by
  simp only [State.beginJob, hb, hx, Bool.not_true, Bool.or_self, Bool.false_eq_true, if_false]

theorem State.beginJob_of_not {s : State} {x : EnvJob} (h : s.envJob.busy = true ∨ x.inRange = false) :
    s.beginJob x = s := by
  rcases h with h | h <;> simp [State.beginJob, h]

/-- A move of the environment that begins the operation `x`, of at most `n` bytes. -/
theorem beginsString {s : State} {more : List Turn} {m : EnvMove} {n : Nat} {x : EnvJob} (hf : s.faulted = false)
    (hm : ∀ t : State, t.envStep m = t.beginJob x) (hx : x.inRange = true ↔ n ≤ 0x10000) : BeginsString s more m n x := by
  intro h
  rw [step_of_env hf h, hm]
  refine ⟨fun hb hn => congrArg _ (State.beginJob_of_idle hb (hx.2 hn)), fun hbn => congrArg _ (State.beginJob_of_not ?_)⟩
  refine hbn.imp_right fun hn => Bool.eq_false_iff.2 fun hr => ?_
  have := hx.1 hr
  omega

theorem State.jobStep_of_read {s u : State} {v : Byte}
    (h : s.readByte (s.envJob.readFrom + BitVec.ofNat 16 s.envJob.readCount) = .ok v u)
    (hi : s.envJob.readCount < s.envJob.readLength) :
    s.jobStep = { u with envJob := { u.envJob with
      buffer := u.envJob.buffer ++ [v], readCount := u.envJob.readCount + 1 } } := by
  simp only [State.jobStep, if_pos hi, State.jobRead, h]

theorem State.jobStep_of_read_raised {s u : State}
    (h : s.readByte (s.envJob.readFrom + BitVec.ofNat 16 s.envJob.readCount) = .raised u)
    (hi : s.envJob.readCount < s.envJob.readLength) : s.jobStep = u := by
  simp only [State.jobStep, if_pos hi, State.jobRead, h]

theorem State.jobStep_of_write {s u : State}
    (h : s.writeStringByte s.envJob.writeTo s.envJob.writeLength s.envJob.writeCount
      (s.envJob.buffer.getD s.envJob.writeCount 0) = .ok () u)
    (hi : s.envJob.readCount = s.envJob.readLength) (hj : s.envJob.writeCount < s.envJob.writeLength) :
    s.jobStep = { u with envJob := { u.envJob with writeCount := u.envJob.writeCount + 1 } } := by
  simp only [State.jobStep, hi, Nat.lt_irrefl, if_false, if_pos hj, State.jobWrite, h]

theorem State.jobStep_of_write_raised {s u : State}
    (h : s.writeStringByte s.envJob.writeTo s.envJob.writeLength s.envJob.writeCount
      (s.envJob.buffer.getD s.envJob.writeCount 0) = .raised u)
    (hi : s.envJob.readCount = s.envJob.readLength) (hj : s.envJob.writeCount < s.envJob.writeLength) :
    s.jobStep = u := by
  simp only [State.jobStep, hi, Nat.lt_irrefl, if_false, if_pos hj, State.jobWrite, h]

theorem State.jobStep_of_done {s : State} (hi : s.envJob.readCount = s.envJob.readLength)
    (hj : s.envJob.writeCount = s.envJob.writeLength) : s.jobStep = s := by
  simp only [State.jobStep, hi, hj, Nat.lt_irrefl, if_false]

section StringByte

variable {s : State} {more : List Turn} (hf : s.faulted = false) (h : s.agenda = .other (.env .stringByte) :: more)
include hf h

theorem step_of_stringByte : step s = .next (State.jobStep { s with agenda := more }) :=
  step_of_env hf h

/-- The next byte read of the string operation. -/
theorem stringByte_reads (hi : s.envJob.readCount < s.envJob.readLength)
    (hr : ¬s.readRaises (s.envJob.readFrom + BitVec.ofNat 16 s.envJob.readCount)) :
    ∃ v u, s.reads (s.envJob.readFrom + BitVec.ofNat 16 s.envJob.readCount) v u ∧
      step s = .next { u with agenda := more, envJob := { s.envJob with
        buffer := s.envJob.buffer ++ [v], readCount := s.envJob.readCount + 1 } } := by
  obtain ⟨v, u, hreads, hu, -, hjob⟩ := State.readByte_turn more hr
  refine ⟨v, u, hreads, ?_⟩
  rw [step_of_stringByte hf h, State.jobStep_of_read hu hi, ← hjob]

/-- The next byte write of the string operation. -/
theorem stringByte_writes {v : Byte} (hi : s.envJob.readCount = s.envJob.readLength)
    (hj : s.envJob.writeCount < s.envJob.writeLength) (hv : s.envJob.buffer[s.envJob.writeCount]? = some v)
    (hw : ¬s.writeRaises (s.envJob.writeTo + BitVec.ofNat 16 s.envJob.writeCount)) :
    ∃ u, s.writesByte s.envJob.writeTo s.envJob.writeLength s.envJob.writeCount v u ∧
      step s = .next { u with agenda := more, envJob := { s.envJob with writeCount := s.envJob.writeCount + 1 } } := by
  obtain ⟨u, hwrites, hu, -, hjob⟩ := State.writeStringByte_turn (n := s.envJob.writeLength) v more hw
  rw [← getD_of_getElem? hv] at hu
  refine ⟨u, hwrites, ?_⟩
  rw [step_of_stringByte hf h, State.jobStep_of_write hu hi hj, ← hjob]

end StringByte

/-- Settles O50: the moves by definition, the string operation byte by byte. -/
theorem environmentMovesTakeEffect : Obligations.EnvironmentMovesTakeEffect := by
  intro s more hf
  refine ⟨step_of_env hf, fun op h => ?enqueue, step_of_env hf, fun h => ?dmaTimeout, step_of_env hf, fun h => ?icTimeout,
    fun x n => beginsString hf (fun _ => rfl) (by simp [EnvJob.inRange]),
    fun y bytes => beginsString hf (fun _ => rfl) (by simp [EnvJob.inRange]),
    fun x y n => beginsString hf (fun _ => rfl) (by simp [EnvJob.inRange]), fun h => ?stringByte⟩
  case enqueue =>
    rw [step_of_env hf h]
    refine ⟨fun hc hw => congrArg _ (if_neg (by simp [hc, hw])), fun hcw => congrArg _ (if_pos ?_)⟩
    rcases hcw with hc | hw
    · simp [hc]
    · simp [hw]
  case dmaTimeout =>
    rw [step_of_env hf h]
    refine ⟨fun hc hq => congrArg _ (if_pos (by simp [hc, hq])), fun hcq => congrArg _ (if_neg ?_)⟩
    rcases hcq with hc | hq
    · simp [hc]
    · simp [hq]
  case icTimeout =>
    rw [step_of_env hf h]
    refine ⟨fun ha hq => congrArg _ (if_pos (by simp [ha, hq])), fun haq => congrArg _ (if_neg ?_)⟩
    rcases haq with ha | hq
    · simp [ha]
    · simp [hq]
  case stringByte =>
    refine ⟨fun hi => ⟨stringByte_reads hf h hi, fun hr => ?_⟩,
      fun hi hj => ⟨fun v hv hw => stringByte_writes hf h hi hj hv hw, fun hw => ?_⟩, fun hi hj => ?_⟩
    · rw [step_of_stringByte hf h]
      exact congrArg _ (State.jobStep_of_read_raised (State.readByte_of_readRaises hr) hi)
    · rw [step_of_stringByte hf h]
      exact congrArg _ (State.jobStep_of_write_raised (State.writeStringByte_of_writeRaises _ hw) hi hj)
    · rw [step_of_stringByte hf h]
      exact congrArg _ (State.jobStep_of_done hi hj)

/-! ### A DMA operation from its head to its end (20_memory.md R107, R123 to R125) -/

theorem steps_succ {s t : State} {n : Nat} (h : step s = .next t) : steps (n + 1) s = steps n t := by
  rw [steps, h]

theorem steps_add : ∀ {n m : Nat} {s t : State}, steps n s = .next t → steps (n + m) s = steps m t
  | 0, m, s, t, h => by
    cases h
    rw [Nat.zero_add]
  | n + 1, m, s, t, h => by
    rw [Nat.add_right_comm, steps]
    rw [steps] at h
    cases hs : step s with
    | next u =>
      rw [hs] at h
      exact steps_add h
    | fault r => rw [hs] at h; cases h
    | refused r => rw [hs] at h; cases h

theorem State.run_concat (s : State) (a : Word) (n : Nat) :
    s.run a n ++ [s.byteAt (a + BitVec.ofNat 16 n)] = s.run a (n + 1) := by
  simp [State.run, List.range_succ]

/-- The next `k` turns of the pump. -/
abbrev pumpTurns (k : Nat) : List Turn :=
  List.replicate k (.other .dma)

/-- The pump with `op` current, `buffer` read, and its indices at `i` and `j`. -/
def Dma.working (d : Dma) (op : DmaOp) (rest : List DmaOp) (buffer : List Byte) (i j : Nat) : Dma :=
  { d with queue := rest, current := some op, locked := op.lockedRanges, buffer := buffer, i := i, j := j }

/-- The state with the pump at another point of its work, and other turns to come. -/
def State.pumped (s : State) (l : List Turn) (d : Dma) : State :=
  { s with agenda := l, dma := d }

/-- Turns of the pump alone, reading: from byte `i` on the buffer fills up with what the source holds. -/
theorem steps_dmaRead (op : DmaOp) (rest : List Turn) : ∀ (k : Nat) (s : State), s.faulted = false →
    s.dma.current = some op → s.dma.i + k = op.length → s.dma.buffer = s.run op.source s.dma.i →
    s.readableRun op.source op.length → s.agenda = pumpTurns k ++ rest →
    steps k s = .next (s.pumped rest { s.dma with buffer := s.run op.source op.length, i := op.length })
  | 0, s, _, _, hi, hb, _, ha => by
    have hi : s.dma.i = op.length := hi
    have ha : s.agenda = rest := ha
    rw [← hi, ← hb, ← ha]
    rfl
  | k + 1, s, hf, hc, hi, hb, hr, ha => by
    have hread := State.readByte_of_readable (s := { s with agenda := pumpTurns k ++ rest })
      (hr s.dma.i (by omega))
    have hstep := (step_of_dma hf ha).trans (congrArg _ (State.dmaStep_of_read hread hc (show s.dma.i < _ by omega)))
    rw [steps_succ hstep]
    exact steps_dmaRead op rest k _ hf hc (show s.dma.i + 1 + k = _ by omega)
      ((congrArg (· ++ _) hb).trans (s.run_concat op.source s.dma.i)) hr rfl

/-- Two bytes of a run of up to 0x10000 bytes have different addresses. -/
theorem add_ofNat_ne (a : Word) {j p : Nat} (hj : j < p) (hp : p < 0x10000) :
    a + BitVec.ofNat 16 j ≠ a + BitVec.ofNat 16 p := by
  intro h
  have := congrArg BitVec.toNat h
  simp only [BitVec.toNat_add, BitVec.toNat_ofNat] at this
  omega

/-- Turns of the pump alone, writing: from byte `j` on the destination takes the bytes of the buffer. -/
theorem steps_dmaWrite (op : DmaOp) (rest : List Turn) (hn : op.length ≤ 0x10000) : ∀ (k : Nat) (s : State),
    s.faulted = false → s.dma.current = some op → s.dma.i = op.length → s.dma.j + k = op.length →
    s.dma.buffer.length = op.length → s.writableRun op.destination op.length →
    s.agenda = pumpTurns k ++ rest →
    ∃ m c, steps k s = .next ((s.stored m c).pumped rest { s.dma with j := op.length }) ∧
      (∀ p, s.dma.j ≤ p → p < op.length →
        some ((s.stored m c).byteAt (op.destination + BitVec.ofNat 16 p)) = s.dma.buffer[p]?) ∧
      ∀ x, (∀ p, s.dma.j ≤ p → p < op.length → x ≠ op.destination + BitVec.ofNat 16 p) →
        (s.stored m c).byteAt x = s.byteAt x
  | 0, s, _, _, _, hj, _, _, ha => by
    have hj : s.dma.j = op.length := hj
    have ha : s.agenda = rest := ha
    refine ⟨s.mem, s.cache, ?_, fun p h1 h2 => absurd h2 (by omega), fun x _ => rfl⟩
    rw [← hj, ← ha]
    rfl
  | k + 1, s, hf, hc, hi, hj, hl, hw, ha => by
    have hlt : s.dma.j < op.length := by omega
    obtain ⟨v, hv⟩ : ∃ v, s.dma.buffer[s.dma.j]? = some v := ⟨_, List.getElem?_eq_getElem (hl ▸ hlt)⟩
    obtain ⟨m, c, hm, hx⟩ := State.moveStep_dmaWrite (s := { s with agenda := pumpTurns k ++ rest })
      hf hc hi hlt hv (hw s.dma.j hlt)
    obtain ⟨m', c', hsteps, hbytes, hother⟩ := steps_dmaWrite op rest hn k
      ((s.stored m c).pumped (pumpTurns k ++ rest) { s.dma with j := s.dma.j + 1 })
      hf hc hi (show s.dma.j + 1 + k = _ by omega) hl hw rfl
    refine ⟨m', c', (steps_succ ((step_of_other hf ha).trans (congrArg _ hm))).trans hsteps, fun p h1 h2 => ?_,
      fun x hne => ?_⟩
    · rcases Nat.eq_or_lt_of_le h1 with rfl | h1
      · have hkept := hother _ fun p h1 h2 => add_ofNat_ne op.destination h1 (Nat.lt_of_lt_of_le h2 hn)
        rw [hv]
        exact congrArg some ((hkept.trans (hx _)).trans (if_pos rfl))
      · exact hbytes p h1 h2
    · have hkept := hother x fun p h1 => hne p (Nat.le_of_lt h1)
      exact (hkept.trans (hx x)).trans (if_neg (hne s.dma.j (Nat.le_refl _) hlt))

/-- Settles O49: DMA-TAKE, the reads, the writes, DMA-DONE; all reads come before the first write, so overlap is harmless. -/
theorem dmaCopiesTheBlock : Obligations.DmaCopiesTheBlock := by
  intro s op rest hf hc hq hn hr hw ha
  have hturns : s.agenda = .other .dma :: (pumpTurns op.length ++ (pumpTurns op.length ++ pumpTurns 1)) := by
    rw [ha, show 2 * op.length + 2 = 1 + (op.length + (op.length + 1)) by omega]
    simp only [List.replicate_add, List.replicate_one, List.singleton_append]
  have htake : step s = .next (s.pumped (pumpTurns op.length ++ (pumpTurns op.length ++ pumpTurns 1))
      (s.dma.working op rest [] 0 0)) :=
    (step_of_dma hf hturns).trans (congrArg _ (State.dmaStep_of_queue hc hq))
  have hreads : steps op.length _ = .next (s.pumped (pumpTurns op.length ++ pumpTurns 1)
      (s.dma.working op rest (s.run op.source op.length) op.length 0)) :=
    steps_dmaRead op _ op.length (s.pumped _ (s.dma.working op rest [] 0 0)) hf rfl (Nat.zero_add _) rfl hr rfl
  obtain ⟨m, c, hwrites, hbytes, hother⟩ := steps_dmaWrite op (pumpTurns 1) hn op.length
    (s.pumped _ (s.dma.working op rest (s.run op.source op.length) op.length 0)) hf rfl rfl (Nat.zero_add _)
    (s.length_run _ _) hw rfl
  have hdone := (step_of_dma (s := (s.stored m c).pumped (pumpTurns 1)
    (s.dma.working op rest (s.run op.source op.length) op.length op.length)) hf rfl).trans
    (congrArg _ (State.dmaStep_of_written (op := op) rfl rfl rfl))
  rw [show 2 * op.length + 2 = op.length + (op.length + (0 + 1)) + 1 by omega, steps_succ htake, steps_add hreads,
    steps_add hwrites]
  refine ⟨_, steps_succ hdone, fun k hk => ?_, fun a hne => ?_, rfl, rfl, rfl, rfl⟩
  · exact Option.some.inj ((hbytes k (Nat.zero_le _) hk).trans (s.getElem?_run op.source hk))
  · exact hother a fun p _ hp => hne p hp

end Sys2Proof.Machine

/-! SUPPORT. The encoder against the decoder, format by format, and the names of what is refused (30_encoding.md R162 to R169,
R176). -/

namespace Sys2Proof

/-! ### From a micro-operation to its word and back -/

theorem extractLsb'_setWidth_low {n : Nat} (v : BitVec n) (h : n ≤ 16) : (v.setWidth 16).extractLsb' 0 n = v := by
  rw [← BitVec.setWidth_eq_extractLsb' h, BitVec.setWidth_setWidth_of_le v h, BitVec.setWidth_eq]

theorem extractLsb'_setWidth_high {n : Nat} (v : BitVec n) (m : Nat) : (v.setWidth 16).extractLsb' n m = 0 := by
  ext i hi
  simp [BitVec.getLsbD_of_ge]

section Assemble

variable (op : BitVec 8)

theorem formatZ_assemble (i : Instr) : formatZ (assemble op 0 0 0) i = .ok i := by
  simp [formatZ, needZero]

theorem formatN2_assemble (mk : BitVec 2 → Instr) (n : BitVec 2) :
    formatN2 (assemble op 0 0 (n.setWidth 16)) mk = .ok (mk n) := by
  simp [formatN2, needZero, extractLsb'_setWidth_high, extractLsb'_setWidth_low]

theorem formatD8I_assemble (mk : Reg8 → Byte → Instr) (rd : Reg8) (v : Byte) :
    formatD8I (assemble op rd.code 0 (v.setWidth 16)) mk = .ok (mk rd v) := by
  simp [formatD8I, needZero, needReg8, extractLsb'_setWidth_high, extractLsb'_setWidth_low]

theorem formatD16I_assemble (mk : Reg16 → Word → Instr) (rd : Reg16) (v : Word) :
    formatD16I (assemble op rd.code 0 v) mk = .ok (mk rd v) := by
  simp [formatD16I, needZero, needReg16]

theorem formatD8S8_assemble (mk : Reg8 → Reg8 → Instr) (rd rs : Reg8) :
    formatD8S8 (assemble op rd.code rs.code 0) mk = .ok (mk rd rs) := by
  simp [formatD8S8, needZero, needReg8]

theorem formatD16S16_assemble (mk : Reg16 → Reg16 → Instr) (rd rs : Reg16) :
    formatD16S16 (assemble op rd.code rs.code 0) mk = .ok (mk rd rs) := by
  simp [formatD16S16, needZero, needReg16]

theorem formatD8S16_assemble (mk : Reg8 → Reg16 → Instr) (rd : Reg8) (rs : Reg16) :
    formatD8S16 (assemble op rd.code rs.code 0) mk = .ok (mk rd rs) := by
  simp [formatD8S16, needZero, needReg8, needReg16]

theorem formatD16S8_assemble (mk : Reg16 → Reg8 → Instr) (rd : Reg16) (rs : Reg8) :
    formatD16S8 (assemble op rd.code rs.code 0) mk = .ok (mk rd rs) := by
  simp [formatD16S8, needZero, needReg8, needReg16]

theorem formatD8A_assemble (mk : Reg8 → Word → Instr) (rd : Reg8) (v : Word) :
    formatD8A (assemble op rd.code 0 v) mk = .ok (mk rd v) := by
  simp [formatD8A, needZero, needReg8]

theorem formatS8A_assemble (mk : Word → Reg8 → Instr) (v : Word) (rs : Reg8) :
    formatS8A (assemble op 0 rs.code v) mk = .ok (mk v rs) := by
  simp [formatS8A, needZero, needReg8]

theorem formatS16A_assemble (mk : Word → Reg16 → Instr) (v : Word) (rs : Reg16) :
    formatS16A (assemble op 0 rs.code v) mk = .ok (mk v rs) := by
  simp [formatS16A, needZero, needReg16]

theorem formatS16_assemble (mk : Reg16 → Instr) (rs : Reg16) :
    formatS16 (assemble op 0 rs.code 0) mk = .ok (mk rs) := by
  simp [formatS16, needZero, needReg16]

theorem formatD16_assemble (mk : Reg16 → Instr) (rd : Reg16) :
    formatD16 (assemble op rd.code 0 0) mk = .ok (mk rd) := by
  simp [formatD16, needZero, needReg16]

theorem formatD8_assemble (mk : Reg8 → Instr) (rd : Reg8) : formatD8 (assemble op rd.code 0 0) mk = .ok (mk rd) := by
  simp [formatD8, needZero, needReg8]

theorem formatS8B_assemble (mk : BitVec 3 → Reg8 → Instr) (n : BitVec 3) (rs : Reg8) :
    formatS8B (assemble op 0 rs.code (n.setWidth 16)) mk = .ok (mk n rs) := by
  simp [formatS8B, needZero, needReg8, extractLsb'_setWidth_high, extractLsb'_setWidth_low]

theorem formatD16S16N_assemble (mk : Reg16 → Reg16 → Word → Instr) (rd rs : Reg16) (v : Word) :
    formatD16S16N (assemble op rd.code rs.code v) mk = .ok (mk rd rs v) := by
  simp [formatD16S16N, needReg16]

theorem formatA16_assemble (mk : Word → Instr) (v : Word) : formatA16 (assemble op 0 0 v) mk = .ok (mk v) := by
  simp [formatA16, needZero]

theorem formatCA16_assemble (mk : BitVec 4 → Word → Instr) (cc : BitVec 4) (v : Word) :
    formatCA16 (assemble op cc 0 v) mk = .ok (mk cc v) := by
  simp [formatCA16, needZero]

end Assemble

/-- The operation map reads the word of every term back, well formed or not (30_encoding.md R164, R176). -/
theorem decodeFormat_encode (i : Instr) : decodeFormat (encode i) = .ok i := by
  cases i <;> rw [encode, decodeFormat, fieldOp_assemble]
  case nop | endBlock | halt | haltp | ei | di | exaf | exx | ret | retn => exact formatZ_assemble ..
  case im => exact formatN2_assemble ..
  case ldi8 | addi | adci | subi | sbci | andi | ori | xori => exact formatD8I_assemble ..
  case ldi16 | lda16 => exact formatD16I_assemble ..
  case mov8 | add | adc | sub | sbc | and | or | xor => exact formatD8S8_assemble ..
  case mov16 | ldr16 | str16 | xfer | add16 | adc16 | sub16 | sbc16 => exact formatD16S16_assemble ..
  case ldr8 | inp => exact formatD8S16_assemble ..
  case str8 | out => exact formatD16S8_assemble ..
  case lda8 => exact formatD8A_assemble ..
  case sta8 => exact formatS8A_assemble ..
  case sta16 => exact formatS16A_assemble ..
  case push | jpr => exact formatS16_assemble ..
  case pop => exact formatD16_assemble ..
  case inc | dec | rl | rr | rlc | rrc | sla | sra | srl | daa => exact formatD8_assemble ..
  case bit => exact formatS8B_assemble ..
  case xfern => exact formatD16S16N_assemble ..
  case jp | call => exact formatA16_assemble ..
  case jpc => exact formatCA16_assemble ..

/-- The word of any term meets no other check than that of mode and destination (30_encoding.md R169 iv, v). -/
theorem decodeWord_encode (i : Instr) : decodeWord (encode i) = checkOperands i := by
  rw [decodeWord, decodeFormat_encode]

theorem checkOperands_of_wf {i : Instr} (h : i.wf = true) : checkOperands i = .ok i :=
  if_pos h

theorem decodeWord_encode_of_wf {i : Instr} (h : i.wf = true) : decodeWord (encode i) = .ok i :=
  (decodeWord_encode i).trans (checkOperands_of_wf h)

theorem decodeWord_of_encode {w : UopWord} {i : Instr} (hw : i.wf = true) (he : encode i = w) : decodeWord w = .ok i :=
  he ▸ decodeWord_encode_of_wf hw

/-- Settles O1: every format reads back what the encoder assembled, and the memory image gives the word back. -/
theorem decodingAnEncodedMicroOp : Obligations.DecodingAnEncodedMicroOp := by
  intro i hw
  have hword := decodeWord_encode_of_wf hw
  refine ⟨hword, fun rest => ?_⟩
  rw [encodeBytes, decodeBytes_bytesOfWord, hword]
  rfl

/-- Settles O3: each word is that of its micro-operation. -/
theorem wordsOfTheSpecDecode : Obligations.WordsOfTheSpecDecode := by
  refine ⟨?_, ?_, ?_, ?_, ?_, ?_, ?_, ?_, ?_, ?_, ?_, ?_, ?_, ?_, ?_, ?_, ?_, ?_⟩ <;> exact decodeWord_of_encode rfl rfl

/-! ### From a word to its micro-operation and back -/

/-- The operation codes that no micro-operation has (30_encoding.md R169 i). -/
def UnassignedOp (op : Nat) : Prop :=
  (0x09 ≤ op ∧ op ≤ 0x0F) ∨ (0x22 ≤ op ∧ op ≤ 0x3F) ∨ op = 0x47 ∨ (0x53 ≤ op ∧ op ≤ 0x57) ∨
    (0x5C ≤ op ∧ op ≤ 0x5F) ∨ (0x67 ≤ op ∧ op ≤ 0x7F) ∨ 0x86 ≤ op

/-- The answer is that of a format on the word, for a constructor that the encoder gives that format and the word's operation
code (30_encoding.md R164, R176). -/
inductive ByFormat (w : UopWord) : Except DecodeError Instr → Prop
  | z (i) (h : encode i = assemble (fieldOp w) 0 0 0) : ByFormat w (formatZ w i)
  | n2 (mk) (h : ∀ n, encode (mk n) = assemble (fieldOp w) 0 0 (n.setWidth 16)) : ByFormat w (formatN2 w mk)
  | d8i (mk) (h : ∀ rd v, encode (mk rd v) = assemble (fieldOp w) rd.code 0 (v.setWidth 16)) : ByFormat w (formatD8I w mk)
  | d16i (mk) (h : ∀ rd v, encode (mk rd v) = assemble (fieldOp w) rd.code 0 v) : ByFormat w (formatD16I w mk)
  | d8s8 (mk) (h : ∀ rd rs, encode (mk rd rs) = assemble (fieldOp w) rd.code rs.code 0) : ByFormat w (formatD8S8 w mk)
  | d16s16 (mk) (h : ∀ rd rs, encode (mk rd rs) = assemble (fieldOp w) rd.code rs.code 0) : ByFormat w (formatD16S16 w mk)
  | d8s16 (mk) (h : ∀ rd rs, encode (mk rd rs) = assemble (fieldOp w) rd.code rs.code 0) : ByFormat w (formatD8S16 w mk)
  | d16s8 (mk) (h : ∀ rd rs, encode (mk rd rs) = assemble (fieldOp w) rd.code rs.code 0) : ByFormat w (formatD16S8 w mk)
  | d8a (mk) (h : ∀ rd v, encode (mk rd v) = assemble (fieldOp w) rd.code 0 v) : ByFormat w (formatD8A w mk)
  | s8a (mk) (h : ∀ v rs, encode (mk v rs) = assemble (fieldOp w) 0 rs.code v) : ByFormat w (formatS8A w mk)
  | s16a (mk) (h : ∀ v rs, encode (mk v rs) = assemble (fieldOp w) 0 rs.code v) : ByFormat w (formatS16A w mk)
  | s16 (mk) (h : ∀ rs, encode (mk rs) = assemble (fieldOp w) 0 rs.code 0) : ByFormat w (formatS16 w mk)
  | d16 (mk) (h : ∀ rd, encode (mk rd) = assemble (fieldOp w) rd.code 0 0) : ByFormat w (formatD16 w mk)
  | d8 (mk) (h : ∀ rd, encode (mk rd) = assemble (fieldOp w) rd.code 0 0) : ByFormat w (formatD8 w mk)
  | s8b (mk) (h : ∀ n rs, encode (mk n rs) = assemble (fieldOp w) 0 rs.code (n.setWidth 16)) : ByFormat w (formatS8B w mk)
  | d16s16n (mk) (h : ∀ rd rs v, encode (mk rd rs v) = assemble (fieldOp w) rd.code rs.code v) :
      ByFormat w (formatD16S16N w mk)
  | a16 (mk) (h : ∀ v, encode (mk v) = assemble (fieldOp w) 0 0 v) : ByFormat w (formatA16 w mk)
  | ca16 (mk) (h : ∀ cc v, encode (mk cc v) = assemble (fieldOp w) cc 0 v) : ByFormat w (formatCA16 w mk)

/-- Everything the operation map can answer: its last row refuses the code, every other row is a format's. -/
theorem decodeFormat_cases (w : UopWord) :
    UnassignedOp (fieldOp w).toNat ∧ decodeFormat w = .error .unassignedOp ∨
      ¬UnassignedOp (fieldOp w).toNat ∧ ByFormat w (decodeFormat w) := by
  unfold decodeFormat
  split
  case h_63 =>
    refine .inl ⟨?_, rfl⟩
    simp only [imp_false] at *
    unfold UnassignedOp
    omega
  all_goals
    next hop =>
    refine .inr ⟨by unfold UnassignedOp; omega, ?_⟩
    constructor
    intros
    rw [(BitVec.toNat_eq_nat.1 hop).2]
    rfl

/-- What a format accepts is the word of the term it gives: no bit of the word is ignored (30_encoding.md R164, R169). -/
theorem ByFormat.encode_eq {w : UopWord} {i : Instr} {r : Except DecodeError Instr} (hr : ByFormat w r) (h : r = .ok i) :
    encode i = w := by
  cases hr with
  | z j hj => obtain ⟨rfl, hw⟩ := formatZ_ok h; exact hj.trans (hw _ rfl)
  | n2 mk hmk => obtain ⟨n, rfl, hw⟩ := formatN2_ok h; exact (hmk n).trans (hw _ rfl)
  | d8i mk hmk => obtain ⟨rd, v, rfl, hw⟩ := formatD8I_ok h; exact (hmk rd v).trans (hw _ rfl)
  | d16i mk hmk => obtain ⟨rd, v, rfl, hw⟩ := formatD16I_ok h; exact (hmk rd v).trans (hw _ rfl)
  | d8s8 mk hmk => obtain ⟨rd, rs, rfl, hw⟩ := formatD8S8_ok h; exact (hmk rd rs).trans (hw _ rfl)
  | d16s16 mk hmk => obtain ⟨rd, rs, rfl, hw⟩ := formatD16S16_ok h; exact (hmk rd rs).trans (hw _ rfl)
  | d8s16 mk hmk => obtain ⟨rd, rs, rfl, hw⟩ := formatD8S16_ok h; exact (hmk rd rs).trans (hw _ rfl)
  | d16s8 mk hmk => obtain ⟨rd, rs, rfl, hw⟩ := formatD16S8_ok h; exact (hmk rd rs).trans (hw _ rfl)
  | d8a mk hmk => obtain ⟨rd, v, rfl, hw⟩ := formatD8A_ok h; exact (hmk rd v).trans (hw _ rfl)
  | s8a mk hmk => obtain ⟨v, rs, rfl, hw⟩ := formatS8A_ok h; exact (hmk v rs).trans (hw _ rfl)
  | s16a mk hmk => obtain ⟨v, rs, rfl, hw⟩ := formatS16A_ok h; exact (hmk v rs).trans (hw _ rfl)
  | s16 mk hmk => obtain ⟨rs, rfl, hw⟩ := formatS16_ok h; exact (hmk rs).trans (hw _ rfl)
  | d16 mk hmk => obtain ⟨rd, rfl, hw⟩ := formatD16_ok h; exact (hmk rd).trans (hw _ rfl)
  | d8 mk hmk => obtain ⟨rd, rfl, hw⟩ := formatD8_ok h; exact (hmk rd).trans (hw _ rfl)
  | s8b mk hmk => obtain ⟨n, rs, rfl, hw⟩ := formatS8B_ok h; exact (hmk n rs).trans (hw _ rfl)
  | d16s16n mk hmk => obtain ⟨rd, rs, v, rfl, hw⟩ := formatD16S16N_ok h; exact (hmk rd rs v).trans (hw _ rfl)
  | a16 mk hmk => obtain ⟨v, rfl, hw⟩ := formatA16_ok h; exact (hmk v).trans (hw _ rfl)
  | ca16 mk hmk => obtain ⟨cc, v, rfl, hw⟩ := formatCA16_ok h; exact (hmk cc v).trans (hw _ rfl)

theorem decodeFormat_of_decodeWord {w : UopWord} {i : Instr} (h : decodeWord w = .ok i) : decodeFormat w = .ok i := by
  unfold decodeWord at h
  split at h
  · next j hj => rw [hj, (checkOperands_ok h).1]
  · cases h

/-- Settles O2: each format rebuilds the word it accepts from the fields it read. -/
theorem encodingADecodedWord : Obligations.EncodingADecodedWord := by
  intro w i h
  have hf := decodeFormat_of_decodeWord h
  refine ⟨decodeWord_wf h, ?_⟩
  rcases decodeFormat_cases w with ⟨-, he⟩ | ⟨-, hr⟩
  · rw [he] at hf; cases hf
  · exact hr.encode_eq hf

/-! ### The names of what is refused -/

theorem ok_ne_unassigned (i : Instr) : (.ok i : Except DecodeError Instr) ≠ .error .unassignedOp :=
  nofun

theorem needZero_ne_unassigned (z : Bool) {r : Except DecodeError Instr} (h : r ≠ .error .unassignedOp) :
    needZero z r ≠ .error .unassignedOp := by
  cases z
  · nofun
  · exact h

theorem needReg8_ne_unassigned (n : BitVec 4) {r : Reg8 → Except DecodeError Instr}
    (h : ∀ x, r x ≠ .error .unassignedOp) : needReg8 n r ≠ .error .unassignedOp := by
  unfold needReg8
  split
  · exact h _
  · nofun

theorem needReg16_ne_unassigned (n : BitVec 4) {r : Reg16 → Except DecodeError Instr}
    (h : ∀ x, r x ≠ .error .unassignedOp) : needReg16 n r ≠ .error .unassignedOp := by
  unfold needReg16
  split
  · exact h _
  · nofun

/-- A format refuses a word for its zero bits or a register number, never for its operation code (30_encoding.md R169). -/
theorem ByFormat.ne_unassigned {w : UopWord} {r : Except DecodeError Instr} (hr : ByFormat w r) :
    r ≠ .error .unassignedOp := by
  cases hr with
  | z | n2 | a16 | ca16 => exact needZero_ne_unassigned _ (ok_ne_unassigned _)
  | d8i | d8a | s8a | d8 | s8b => exact needZero_ne_unassigned _ (needReg8_ne_unassigned _ fun _ => ok_ne_unassigned _)
  | d16i | s16a | s16 | d16 => exact needZero_ne_unassigned _ (needReg16_ne_unassigned _ fun _ => ok_ne_unassigned _)
  | d8s8 =>
    exact needZero_ne_unassigned _ (needReg8_ne_unassigned _ fun _ => needReg8_ne_unassigned _ fun _ => ok_ne_unassigned _)
  | d16s16 =>
    exact needZero_ne_unassigned _
      (needReg16_ne_unassigned _ fun _ => needReg16_ne_unassigned _ fun _ => ok_ne_unassigned _)
  | d8s16 =>
    exact needZero_ne_unassigned _ (needReg8_ne_unassigned _ fun _ => needReg16_ne_unassigned _ fun _ => ok_ne_unassigned _)
  | d16s8 =>
    exact needZero_ne_unassigned _ (needReg16_ne_unassigned _ fun _ => needReg8_ne_unassigned _ fun _ => ok_ne_unassigned _)
  | d16s16n => exact needReg16_ne_unassigned _ fun _ => needReg16_ne_unassigned _ fun _ => ok_ne_unassigned _

theorem decodeFormat_unassigned_iff (w : UopWord) :
    decodeFormat w = .error .unassignedOp ↔ UnassignedOp (fieldOp w).toNat := by
  rcases decodeFormat_cases w with ⟨hop, he⟩ | ⟨hop, hr⟩
  · exact iff_of_true he hop
  · exact iff_of_false hr.ne_unassigned hop

theorem checkOperands_ne_unassigned (i : Instr) : checkOperands i ≠ .error .unassignedOp := by
  unfold checkOperands
  split
  · nofun
  · split <;> nofun

theorem decodeWord_unassigned_iff (w : UopWord) :
    decodeWord w = .error .unassignedOp ↔ decodeFormat w = .error .unassignedOp := by
  unfold decodeWord
  cases decodeFormat w with
  | ok i => exact iff_of_false (checkOperands_ne_unassigned i) (ok_ne_unassigned i)
  | error e => exact Iff.rfl

theorem fieldOp_toNat (w : UopWord) : (fieldOp w).toNat = w.toNat / 0x1000000 := by
  rw [fieldOp, BitVec.extractLsb'_toNat, Nat.shiftRight_eq_div_pow]
  omega

theorem checkOperands_of_not_wf {i : Instr} (h : i.wf = false) (h3 : i ≠ .im 3) :
    checkOperands i = .error .forbiddenDestination := by
  unfold checkOperands
  rw [h, if_neg Bool.false_ne_true]
  split
  · next n =>
    have hn : n = 3 := by simpa [Instr.wf, legalMode] using h
    exact absurd (congrArg Instr.im hn) h3
  · rfl

/-- Settles O4: only the operation map names an unassigned code, and the word of a term fails at its mode or destination. -/
theorem illegalWordsAreRefused : Obligations.IllegalWordsAreRefused := by
  refine ⟨fun w => ?_, decodeWord_encode (.im 3), fun i hw h3 => ?_⟩
  · rw [decodeWord_unassigned_iff, decodeFormat_unassigned_iff, fieldOp_toNat]
    rfl
  · rw [decodeWord_encode, checkOperands_of_not_wf hw h3]

/-! ### The blocks of the reference decoder -/

theorem Instr.haltsCpu_iff {i : Instr} : i.haltsCpu = true ↔ i = .halt ∨ i = .haltp := by
  cases i <;> simp [Instr.haltsCpu]

theorem Instr.haltsPeripherals_iff {i : Instr} : i.haltsPeripherals = true ↔ i = .haltp := by
  cases i <;> simp [Instr.haltsPeripherals]

end Sys2Proof

namespace Sys2Proof.Machine

/-- The halt bits of RD0's block are those of its last micro-operation (30_encoding.md R174). -/
theorem blockOf_haltsCpu_iff (p : Word) (body : List Instr) : (blockOf p body).haltsCpu = true ↔
    body.getLast? = some .halt ∨ body.getLast? = some .haltp := by
  cases h : body.getLast? <;> simp [blockOf, h, Instr.haltsCpu_iff]

theorem blockOf_haltsPeripherals_iff (p : Word) (body : List Instr) : (blockOf p body).haltsPeripherals = true ↔
    body.getLast? = some .haltp := by
  cases h : body.getLast? <;> simp [blockOf, h, Instr.haltsPeripherals_iff]

/-- Settles O37: RD0's block is `blockOf` of a well-formed body, and readable bytes decide every micro-operation of it. -/
theorem referenceDecoderFormsBlocks : Obligations.ReferenceDecoderFormsBlocks := by
  intro s t p b h
  rcases s.decodeBlock_effect p with ⟨body, l, d, hblock, hfrom, hne, hlimit, hwf, hend⟩ | ⟨e, l, d, -, hraised⟩
  · rw [hblock] at h
    cases h
    exact ⟨rfl, rfl, rfl, rfl, List.length_pos_iff.2 hne, hlimit, fun k i => wfBody_get hwf, hend,
      blockOf_haltsCpu_iff p body, blockOf_haltsPeripherals_iff p body, State.decodeFrom_bytes _ p s _ body hfrom⟩
  · rw [hraised] at h
    cases h

end Sys2Proof.Machine

/-! SUPPORT. The 8-bit arithmetic and logic micro-operations (40_alu8.md), and that the overflow of an addition or a subtraction
of any width is signed overflow (40_alu8.md R199, 42_alu16.md R270). -/

namespace Sys2Proof.Machine

/-! ### Sums and differences of any width -/

section Widths

variable {w : Nat} (a b : BitVec w) (c : Nat)

theorem ofNat_sum : BitVec.ofNat w (a.toNat + b.toNat + c) = a + b + BitVec.ofNat w c := by
  simp [BitVec.ofNat_add]

theorem ofInt_difference :
    BitVec.ofInt w ((a.toNat : Int) - b.toNat - c) = a - b - BitVec.ofNat w c := by
  simp [sub_eq_add_neg, BitVec.ofInt_add, BitVec.ofInt_neg]

theorem ofNat_sum_eq_signed :
    BitVec.ofNat w (a.toNat + b.toNat + c) = BitVec.ofInt w (a.toInt + b.toInt + c) := by
  rw [ofNat_sum, BitVec.ofInt_add, BitVec.ofInt_add, BitVec.ofInt_toInt, BitVec.ofInt_toInt, BitVec.ofInt_natCast]

theorem ofInt_difference_eq_signed :
    BitVec.ofInt w ((a.toNat : Int) - b.toNat - c) = BitVec.ofInt w (a.toInt - b.toInt - c) := by
  rw [ofInt_difference]
  simp [sub_eq_add_neg, BitVec.ofInt_add, BitVec.ofInt_neg]

theorem difference_of_sum :
    BitVec.ofInt w (((BitVec.ofNat w (a.toNat + b.toNat + c)).toNat : Int) - b.toNat - c) = a := by
  rw [ofInt_difference, ofNat_sum, sub_sub, add_assoc, BitVec.add_sub_cancel]

variable {a b c}

/-- A number that fits `w` signed bits is what its word reads as; one below or above, by no more than half the range, is
read with the whole range added or taken off. -/
theorem toInt_ofInt_cases (hw : 0 < w) {e : Int} (hlo : -2 * 2 ^ (w - 1) ≤ e) (hhi : e ≤ 2 * 2 ^ (w - 1)) :
    let p : Int := 2 ^ (w - 1)
    let r := (BitVec.ofInt w e).toInt
    (e < -p ∧ r = e + 2 * p) ∨ (-p ≤ e ∧ e < p ∧ r = e) ∨ (p ≤ e ∧ r = e - 2 * p) := by
  have hp : ((2 ^ w : Nat) : Int) = 2 * 2 ^ (w - 1) := by
    push_cast
    exact (mul_pow_sub_one hw.ne' 2).symm
  have hpos : (0 : Int) < 2 ^ (w - 1) := by positivity
  have hfit : ∀ x : Int, -2 ^ (w - 1) ≤ x → x < 2 ^ (w - 1) → x.bmod (2 ^ w) = x := fun x h h' =>
    Int.bmod_eq_of_le_mul_two (by omega) (by omega)
  simp only [BitVec.toInt_ofInt]
  rcases lt_or_ge e (-2 ^ (w - 1)) with h | h
  · refine .inl ⟨h, ?_⟩
    rw [← Int.add_bmod_right, hp, hfit _ (by omega) (by omega)]
  · rcases lt_or_ge e (2 ^ (w - 1)) with h' | h'
    · exact .inr (.inl ⟨h, h', hfit e h h'⟩)
    · refine .inr (.inr ⟨h', ?_⟩)
      rw [← Int.sub_bmod_right, hp, hfit _ (by omega) (by omega)]

/-- The overflow rule of an addition is signed overflow (40_alu8.md R199, 42_alu16.md R270). -/
theorem sum_overflow_iff (hw : 0 < w) (hc : c ≤ 1) {r : BitVec w} (hr : r = BitVec.ofNat w (a.toNat + b.toNat + c)) :
    (a.getLsbD (w - 1) = b.getLsbD (w - 1) ∧ r.getLsbD (w - 1) ≠ a.getLsbD (w - 1)) ↔
      r.toInt ≠ a.toInt + b.toInt + c := by
  have ha := a.le_toInt
  have ha' := a.toInt_lt
  have hb := b.le_toInt
  have hb' := b.toInt_lt
  have hcases := toInt_ofInt_cases hw (e := a.toInt + b.toInt + c) (by omega) (by omega)
  rw [← ofNat_sum_eq_signed, ← hr] at hcases
  simp only [← BitVec.msb_eq_getLsbD_last, BitVec.msb_eq_toInt, ne_eq, decide_eq_decide]
  omega

/-- The overflow rule of a subtraction is signed overflow (40_alu8.md R199, 42_alu16.md R270). -/
theorem difference_overflow_iff (hw : 0 < w) (hc : c ≤ 1) {r : BitVec w}
    (hr : r = BitVec.ofInt w ((a.toNat : Int) - b.toNat - c)) :
    (a.getLsbD (w - 1) ≠ b.getLsbD (w - 1) ∧ r.getLsbD (w - 1) ≠ a.getLsbD (w - 1)) ↔
      r.toInt ≠ a.toInt - b.toInt - c := by
  have ha := a.le_toInt
  have ha' := a.toInt_lt
  have hb := b.le_toInt
  have hb' := b.toInt_lt
  have hcases := toInt_ofInt_cases hw (e := a.toInt - b.toInt - c) (by omega) (by omega)
  rw [← ofInt_difference_eq_signed, ← hr] at hcases
  simp only [← BitVec.msb_eq_getLsbD_last, BitVec.msb_eq_toInt, ne_eq, decide_eq_decide]
  omega

end Widths

theorem addCore_flags {w : Nat} (a b : BitVec w) (c : Bool) :
    (addCore a b c).flags = resultFlags (addCore a b c).value
      (decide (a.toNat % 2 ^ (w - 4) + b.toNat % 2 ^ (w - 4) + c.toNat > 2 ^ (w - 4) - 1))
      (decide (a.getLsbD (w - 1) = b.getLsbD (w - 1) ∧ (addCore a b c).value.getLsbD (w - 1) ≠ a.getLsbD (w - 1)))
      false (decide (a.toNat + b.toNat + c.toNat > 2 ^ w - 1)) := by
  rw [Bool.decide_and, decide_not]
  rfl

theorem subCore_flags {w : Nat} (a b : BitVec w) (c : Bool) :
    (subCore a b c).flags = resultFlags (subCore a b c).value
      (decide (((a.toNat % 2 ^ (w - 4) : Nat) : Int) - (b.toNat % 2 ^ (w - 4) : Nat) - (c.toNat : Int) < 0))
      (decide (a.getLsbD (w - 1) ≠ b.getLsbD (w - 1) ∧ (subCore a b c).value.getLsbD (w - 1) ≠ a.getLsbD (w - 1)))
      true (decide ((a.toNat : Int) - b.toNat - c.toNat < 0)) := by
  rw [Bool.decide_and, decide_not, decide_not]
  rfl

/-! ### From the dispatched operation to the statements' terms -/

section Effects

variable {s : State} {i : Instr}

theorem alu8_effect {rd : Reg8} (hrd : rd ≠ .f) {x : AluResult 8} {h pv n c : Bool}
    (hx : x.flags = resultFlags x.value h pv n c) (hi : exec i s = s.alu8 rd x) :
    ∃ t, exec i s = .next t ∧ Alu8Effect s t rd x.value h pv n c := by
  obtain ⟨r, f⟩ := x
  obtain rfl : f = resultFlags r h pv n c := hx
  exact ⟨_, hi, s.writeAlu8_effect hrd r h pv n c⟩

theorem alu16_effect {rd : Reg16} (hrd : rd ≠ .af) {x : AluResult 16} {h pv n c : Bool}
    (hx : x.flags = resultFlags x.value h pv n c) (hi : exec i s = s.alu16 rd x) :
    ∃ t, exec i s = .next t ∧ Alu16Effect s t rd x.value h pv n c := by
  obtain ⟨r, f⟩ := x
  obtain rfl : f = resultFlags r h pv n c := hx
  exact ⟨_, hi, s.writeAlu16_effect hrd r h pv n c⟩

theorem adds8_of_exec {rd : Reg8} (hrd : rd ≠ .f) {a b : Byte} {c : Bool} (hi : exec i s = s.alu8 rd (addCore a b c)) :
    Adds8 s i rd a b c.toNat :=
  alu8_effect hrd (addCore_flags a b c) hi

theorem subtracts8_of_exec {rd : Reg8} (hrd : rd ≠ .f) {a b : Byte} {c : Bool}
    (hi : exec i s = s.alu8 rd (subCore a b c)) : Subtracts8 s i rd a b c.toNat :=
  alu8_effect hrd (subCore_flags a b c) hi

theorem adds16_of_exec {rd : Reg16} (hrd : rd ≠ .af) {a b : Word} {c : Bool}
    (hi : exec i s = s.alu16 rd (addCore a b c)) : Adds16 s i rd a b c.toNat :=
  alu16_effect hrd (addCore_flags a b c) hi

theorem subtracts16_of_exec {rd : Reg16} (hrd : rd ≠ .af) {a b : Word} {c : Bool}
    (hi : exec i s = s.alu16 rd (subCore a b c)) : Subtracts16 s i rd a b c.toNat :=
  alu16_effect hrd (subCore_flags a b c) hi

theorem logic8_of_exec {rd : Reg8} (hrd : rd ≠ .f) {r : Byte} {h : Bool}
    (hi : exec i s = s.alu8 rd ⟨r, resultFlags r h (parityEven r) false false⟩) : Logic8 s i rd r h :=
  alu8_effect hrd (congrArg (resultFlags r h · false false) (parityEven_eq_evenOnes r)) hi

end Effects

/-! ### The 8-bit micro-operations (40_alu8.md R201 to R225) -/

/-- Settles O6: each of the four writes `addCore`, with Carry or without. -/
theorem additionsOfBytes : Obligations.AdditionsOfBytes := fun _ _ _ _ h =>
  ⟨adds8_of_exec (c := false) h rfl, adds8_of_exec (c := false) h rfl, adds8_of_exec h rfl, adds8_of_exec h rfl⟩

/-- Settles O7: each of the four writes `subCore`, with Carry or without. -/
theorem subtractionsOfBytes : Obligations.SubtractionsOfBytes := fun _ _ _ _ h =>
  ⟨subtracts8_of_exec (c := false) h rfl, subtracts8_of_exec (c := false) h rfl, subtracts8_of_exec h rfl,
    subtracts8_of_exec h rfl⟩

/-- Settles O8: each of the six writes its result with the parity, which is that of the number of 1 bits. -/
theorem logicOfBytes : Obligations.LogicOfBytes := fun _ _ _ _ h =>
  ⟨logic8_of_exec h rfl, logic8_of_exec h rfl, logic8_of_exec h rfl, logic8_of_exec h rfl, logic8_of_exec h rfl,
    logic8_of_exec h rfl⟩

/-- The low nibble as the rules take it and as the statements do. -/
theorem lowNibble_toNat (a : Byte) : (a &&& 0x0F).toNat = a.toNat % 16 :=
  Nat.and_two_pow_sub_one_eq_mod a.toNat 4

theorem lowNibble_beq (a k : Byte) : (a &&& 0x0F == k) = decide (a.toNat % 16 = k.toNat) := by
  rw [← lowNibble_toNat, beq_eq_decide, decide_eq_decide, BitVec.toNat_inj]

theorem increment8_value (f a : Byte) : (increment8 f a).value = BitVec.ofNat 8 (a.toNat + 1) := by
  simp [increment8, BitVec.ofNat_add]

theorem decrement8_value (f a : Byte) : (decrement8 f a).value = BitVec.ofNat 8 (a.toNat + 255) := by
  simp [decrement8, BitVec.ofNat_add, BitVec.sub_eq_add_neg]

/-- Settles O9: the value as a sum modulo 256, and the nibble test as a remainder. -/
theorem incrementAndDecrement : Obligations.IncrementAndDecrement := by
  intro s rd h
  rw [← increment8_value (s.get8 .f), ← decrement8_value (s.get8 .f)]
  constructor
  · exact alu8_effect h (congrArg (resultFlags _ · _ _ _) (lowNibble_beq _ 0x0F)) rfl
  · exact alu8_effect h (congrArg (resultFlags _ · _ _ _) (lowNibble_beq _ 0)) rfl

/-! ### Overflow (40_alu8.md R199, 42_alu16.md R270) -/

section Overflow

variable {s t : State} {i : Instr}

/-- What the state that the micro-operation completes with holds in its destination and in PV. -/
theorem alu8_value_and_pv {rd : Reg8} {r : Byte} {h pv n c : Bool}
    (heffect : ∃ u, exec i s = .next u ∧ Alu8Effect s u rd r h pv n c) (ht : exec i s = .next t) :
    t.get8 rd = r ∧ t.flag .pv = pv := by
  obtain ⟨u, hu, hvalue, ⟨-, -, -, -, -, hpv, -, -⟩, -, -⟩ := heffect
  cases ht.symm.trans hu
  exact ⟨hvalue, hpv⟩

theorem alu16_value_and_pv {rd : Reg16} {r : Word} {h pv n c : Bool}
    (heffect : ∃ u, exec i s = .next u ∧ Alu16Effect s u rd r h pv n c) (ht : exec i s = .next t) :
    t.get16 rd = r ∧ t.flag .pv = pv := by
  obtain ⟨u, hu, hvalue, ⟨-, -, -, -, -, hpv, -, -⟩, -, -⟩ := heffect
  cases ht.symm.trans hu
  exact ⟨hvalue, hpv⟩

variable {c : Nat} (hc : c ≤ 1) (ht : exec i s = .next t)

include hc ht

theorem Adds8.flag_pv {rd : Reg8} {a b : Byte} (h : Adds8 s i rd a b c) :
    t.flag .pv = decide ((t.get8 rd).toInt ≠ a.toInt + b.toInt + c) := by
  obtain ⟨hvalue, hpv⟩ := alu8_value_and_pv h ht
  rw [hpv, hvalue]
  exact decide_eq_decide.2 (sum_overflow_iff (by decide) hc rfl)

theorem Subtracts8.flag_pv {rd : Reg8} {a b : Byte} (h : Subtracts8 s i rd a b c) :
    t.flag .pv = decide ((t.get8 rd).toInt ≠ a.toInt - b.toInt - c) := by
  obtain ⟨hvalue, hpv⟩ := alu8_value_and_pv h ht
  rw [hpv, hvalue]
  exact decide_eq_decide.2 (difference_overflow_iff (by decide) hc rfl)

theorem Adds16.flag_pv {rd : Reg16} {a b : Word} (h : Adds16 s i rd a b c) :
    t.flag .pv = decide ((t.get16 rd).toInt ≠ a.toInt + b.toInt + c) := by
  obtain ⟨hvalue, hpv⟩ := alu16_value_and_pv h ht
  rw [hpv, hvalue]
  exact decide_eq_decide.2 (sum_overflow_iff (by decide) hc rfl)

theorem Subtracts16.flag_pv {rd : Reg16} {a b : Word} (h : Subtracts16 s i rd a b c) :
    t.flag .pv = decide ((t.get16 rd).toInt ≠ a.toInt - b.toInt - c) := by
  obtain ⟨hvalue, hpv⟩ := alu16_value_and_pv h ht
  rw [hpv, hvalue]
  exact decide_eq_decide.2 (difference_overflow_iff (by decide) hc rfl)

end Overflow

theorem State.carry_le_one (s : State) : s.carry ≤ 1 :=
  Bool.toNat_le _

/-- SUBI after ADDI of the same immediate (40_alu8.md R203, R209). -/
theorem subi_undoes_addi {s t u : State} {rd : Reg8} (imm : Byte) (h : rd ≠ .f) (ht : exec (.addi rd imm) s = .next t)
    (hu : exec (.subi rd imm) t = .next u) : u.get8 rd = s.get8 rd := by
  obtain ⟨-, haddi, -⟩ := additionsOfBytes s rd rd imm h
  obtain ⟨-, hsubi, -⟩ := subtractionsOfBytes t rd rd imm h
  rw [(alu8_value_and_pv hsubi hu).1, (alu8_value_and_pv haddi ht).1]
  exact difference_of_sum _ imm 0

/-- Settles O13: PV of every addition and subtraction by the rule for its width; SUBI by the inverse of the sum. -/
theorem overflowIsSignedOverflow : Obligations.OverflowIsSignedOverflow := by
  refine ⟨fun s t rd rs imm h i b c => ⟨fun hm ht => ?_, fun hm ht => ?_⟩,
    fun s t rd rs h _ i c => ⟨fun hm ht => ?_, fun hm ht => ?_⟩,
    fun s t u rd imm h => subi_undoes_addi imm h⟩
  · obtain ⟨hadd, haddi, hadc, hadci⟩ := additionsOfBytes s rd rs imm h
    simp only [List.mem_cons, Prod.mk.injEq, List.not_mem_nil, or_false] at hm
    obtain ⟨rfl, rfl, rfl⟩ | ⟨rfl, rfl, rfl⟩ | ⟨rfl, rfl, rfl⟩ | ⟨rfl, rfl, rfl⟩ := hm
    · exact hadd.flag_pv (Nat.zero_le 1) ht
    · exact haddi.flag_pv (Nat.zero_le 1) ht
    · exact hadc.flag_pv s.carry_le_one ht
    · exact hadci.flag_pv s.carry_le_one ht
  · obtain ⟨hsub, hsubi, hsbc, hsbci⟩ := subtractionsOfBytes s rd rs imm h
    simp only [List.mem_cons, Prod.mk.injEq, List.not_mem_nil, or_false] at hm
    obtain ⟨rfl, rfl, rfl⟩ | ⟨rfl, rfl, rfl⟩ | ⟨rfl, rfl, rfl⟩ | ⟨rfl, rfl, rfl⟩ := hm
    · exact hsub.flag_pv (Nat.zero_le 1) ht
    · exact hsubi.flag_pv (Nat.zero_le 1) ht
    · exact hsbc.flag_pv s.carry_le_one ht
    · exact hsbci.flag_pv s.carry_le_one ht
  · simp only [List.mem_cons, Prod.mk.injEq, List.not_mem_nil, or_false] at hm
    obtain ⟨rfl, rfl⟩ | ⟨rfl, rfl⟩ := hm
    · exact (adds16_of_exec (c := false) h rfl).flag_pv (Nat.zero_le 1) ht
    · exact (adds16_of_exec h rfl).flag_pv s.carry_le_one ht
  · simp only [List.mem_cons, Prod.mk.injEq, List.not_mem_nil, or_false] at hm
    obtain ⟨rfl, rfl⟩ | ⟨rfl, rfl⟩ := hm
    · exact (subtracts16_of_exec (c := false) h rfl).flag_pv (Nat.zero_le 1) ht
    · exact (subtracts16_of_exec h rfl).flag_pv s.carry_le_one ht

end Sys2Proof.Machine

/-! SUPPORT. The rotates and shifts, decimal adjust and bit test (41_alu_rotate_bcd_bit.md): each rotate and shift moves the
byte by one place and takes one bit in, and a run of rotates moves the bits round a ring. -/

namespace Sys2Proof.Machine

/-! ### A byte moved by one place, with the bit that comes in (41_alu_rotate_bcd_bit.md R241 to R253) -/

section Moved

variable (a : Byte) (b : Bool)

theorem getLsbD_setWidth_ofBool (k : Nat) : ((BitVec.ofBool b).setWidth 8).getLsbD k = (decide (k = 0) && b) := by
  cases k <;> simp

theorem ushiftRight_seven : a >>> 7 = (BitVec.ofBool (a.getLsbD 7)).setWidth 8 := by
  refine BitVec.eq_of_getLsbD_eq fun k _ => ?_
  rw [BitVec.getLsbD_ushiftRight, getLsbD_setWidth_ofBool]
  cases k with
  | zero => simp
  | succ k => simpa using BitVec.getLsbD_of_ge a _ (by omega)

theorem shiftLeft_seven : a <<< 7 = (BitVec.ofBool (a.getLsbD 0)).setWidth 8 <<< 7 := by
  refine BitVec.eq_of_getLsbD_eq fun k hk => ?_
  rw [BitVec.getLsbD_shiftLeft, BitVec.getLsbD_shiftLeft, getLsbD_setWidth_ofBool]
  obtain h | rfl : k < 7 ∨ k = 7 := by omega
  · simp [h]
  · simp

theorem and_signBit : a &&& 0x80 = (BitVec.ofBool (a.getLsbD 7)).setWidth 8 <<< 7 := by
  change a &&& BitVec.twoPow 8 7 = _
  refine BitVec.eq_of_getLsbD_eq fun k hk => ?_
  rw [BitVec.getLsbD_and, BitVec.getLsbD_twoPow, BitVec.getLsbD_shiftLeft, getLsbD_setWidth_ofBool]
  obtain h | rfl : k < 7 ∨ k = 7 := by omega
  · simp [h, h.ne']
  · simp

variable {k : Nat} (hk : k < 8)

include hk

theorem getLsbD_movedLeft :
    (a <<< 1 ||| (BitVec.ofBool b).setWidth 8).getLsbD k = if k = 0 then b else a.getLsbD (k - 1) := by
  rw [BitVec.getLsbD_or, BitVec.getLsbD_shiftLeft, getLsbD_setWidth_ofBool]
  split <;> simp [*]

theorem getLsbD_movedRight :
    (a >>> 1 ||| (BitVec.ofBool b).setWidth 8 <<< 7).getLsbD k = if k = 7 then b else a.getLsbD (k + 1) := by
  rw [BitVec.getLsbD_or, BitVec.getLsbD_ushiftRight, BitVec.getLsbD_shiftLeft, getLsbD_setWidth_ofBool, Nat.add_comm 1 k]
  obtain h | rfl : k < 7 ∨ k = 7 := by omega
  · simp [h, h.ne]
  · simp

end Moved

section Shifts

variable {s : State} {i : Instr} {rd : Reg8} {out b : Bool}

theorem shifts8_of_exec (hrd : rd ≠ .f) {r : Byte} {bits : Nat → Bool} (hbits : ∀ k, k < 8 → r.getLsbD k = bits k)
    (hi : exec i s = s.alu8 rd (rotateResult r out)) : Shifts8 s i rd bits out := by
  obtain ⟨t, ht, heffect⟩ :=
    alu8_effect (x := rotateResult r out) hrd (congrArg (resultFlags r false · false out) (parityEven_eq_evenOnes r)) hi
  exact ⟨t, r, ht, hbits, heffect⟩

theorem shifts8_of_movedLeft (hrd : rd ≠ .f) {r a : Byte} (hr : r = a <<< 1 ||| (BitVec.ofBool b).setWidth 8)
    (hi : exec i s = s.alu8 rd (rotateResult r out)) :
    Shifts8 s i rd (fun k => if k = 0 then b else a.getLsbD (k - 1)) out :=
  shifts8_of_exec hrd (fun _ hk => hr ▸ getLsbD_movedLeft a b hk) hi

theorem shifts8_of_movedRight (hrd : rd ≠ .f) {r a : Byte} (hr : r = a >>> 1 ||| (BitVec.ofBool b).setWidth 8 <<< 7)
    (hi : exec i s = s.alu8 rd (rotateResult r out)) :
    Shifts8 s i rd (fun k => if k = 7 then b else a.getLsbD (k + 1)) out :=
  shifts8_of_exec hrd (fun _ hk => hr ▸ getLsbD_movedRight a b hk) hi

end Shifts

/-- Settles O10: each of the seven moves the byte one place and takes in the bit the rule names. -/
theorem rotatesAndShifts : Obligations.RotatesAndShifts := by
  intro s rd h a
  exact ⟨shifts8_of_movedLeft h rfl rfl, shifts8_of_movedRight h rfl rfl,
    shifts8_of_movedLeft h (congrArg (a <<< 1 ||| ·) (ushiftRight_seven a)) rfl,
    shifts8_of_movedRight h (congrArg (a >>> 1 ||| ·) (shiftLeft_seven a)) rfl,
    shifts8_of_movedLeft h BitVec.or_zero.symm rfl,
    shifts8_of_movedRight h (congrArg (a >>> 1 ||| ·) (and_signBit a)) rfl,
    shifts8_of_movedRight h BitVec.or_zero.symm rfl⟩

/-! ### Decimal adjust (41_alu_rotate_bcd_bit.md R255) -/

theorem decimalCorrection_toNat (hi lo : Bool) :
    (decimalCorrection hi lo).toNat = (if hi then 0x60 else 0) + (if lo then 0x06 else 0) := by
  cases hi <;> cases lo <;> rfl

theorem sub_eq_ofInt {w : Nat} (a b : BitVec w) : a - b = BitVec.ofInt w ((a.toNat : Int) - b.toNat) := by
  simpa using (ofInt_difference a b 0).symm

theorem decimalAdjust_value (f a : Byte) :
    let hi := decide (a.toNat > 0x99) || flagOf f .c
    let lo := decide (a.toNat % 16 > 9) || flagOf f .h
    let corr := (if hi then 0x60 else 0) + (if lo then 0x06 else 0)
    (decimalAdjust f a).value = if flagOf f .n then BitVec.ofInt 8 ((a.toNat : Int) - (corr : Nat))
      else BitVec.ofNat 8 (a.toNat + corr) := by
  intro hi lo corr
  have hcorr : corr = (decimalCorrection hi lo).toNat := (decimalCorrection_toNat hi lo).symm
  rw [hcorr, ← sub_eq_ofInt, ← BitVec.add_def]
  unfold lo
  rw [← lowNibble_toNat]
  rfl

/-- Settles O11: the value with the correction as a number, and the parity as the number of 1 bits. -/
theorem decimalAdjustOfABcdByte : Obligations.DecimalAdjustOfABcdByte := by
  intro s rd h a hi lo corr r
  have hr : (decimalAdjust (s.get8 .f) a).value = r := decimalAdjust_value (s.get8 .f) a
  rw [← hr, ← parityEven_eq_evenOnes]
  exact alu8_effect h rfl rfl

/-! ### Bit test (41_alu_rotate_bcd_bit.md R257) -/

/-- Settles O12: BIT writes F and nothing else, with the sign rule of the configuration. -/
theorem bitTestWritesFlagsOnly : Obligations.BitTestWritesFlagsOnly := by
  intro s n rs a zero sign
  exact ⟨_, rfl, State.flagsAre_set8 _ _ _ _ _ _ _ _ _, Regs.set8_kept s.regs .f _, OnlyRegisters.of_regs s _⟩

/-! ### Runs of rotates (41_alu_rotate_bcd_bit.md R242, R246) -/

/-- `i` completes on every state and takes the bit `k + d` of a ring of `p` bits to place `k`. -/
def TurnsRing (i : Instr) (p d : Nat) (ring : State → Nat → Bool) : Prop :=
  ∀ s, ∃ t, exec i s = .next t ∧ ∀ k, k < p → ring t k = ring s ((k + d) % p)

section Ring

variable {i : Instr} {p d : Nat} {ring : State → Nat → Bool}

theorem TurnsRing.execTimes_ring (h : TurnsRing i p d ring) : ∀ (n : Nat) (s : State),
    ∃ t, execTimes i n s = .next t ∧ ∀ k, k < p → ring t k = ring s ((k + n * d) % p)
  | 0, s => ⟨s, rfl, fun k hk => by rw [Nat.zero_mul, Nat.add_zero, Nat.mod_eq_of_lt hk]⟩
  | n + 1, s => by
    obtain ⟨u, hu, hring⟩ := h s
    obtain ⟨t, ht, hrest⟩ := h.execTimes_ring n u
    refine ⟨t, by rw [execTimes, hu]; exact ht, fun k hk => ?_⟩
    rw [hrest k hk, hring _ (Nat.mod_lt _ (by omega)), Nat.mod_add_mod, Nat.add_assoc, ← Nat.succ_mul]

/-- A ring of `p` bits is as before after `p` turns, whatever the step. -/
theorem TurnsRing.comes_round (h : TurnsRing i p d ring) (s : State) :
    ∃ t, execTimes i p s = .next t ∧ ∀ k, k < p → ring t k = ring s k := by
  obtain ⟨t, ht, hring⟩ := h.execTimes_ring p s
  refine ⟨t, ht, fun k hk => ?_⟩
  rw [hring k hk, Nat.add_mul_mod_self_left, Nat.mod_eq_of_lt hk]

theorem TurnsRing.of_left (h : ∀ s, ∃ t, exec i s = .next t ∧
    ∀ k, k < p + 1 → ring t k = if k = 0 then ring s p else ring s (k - 1)) : TurnsRing i (p + 1) p ring := by
  intro s
  obtain ⟨t, ht, hring⟩ := h s
  refine ⟨t, ht, fun k hk => (hring k hk).trans ?_⟩
  cases k with
  | zero => rw [if_pos rfl, Nat.zero_add, Nat.mod_eq_of_lt p.lt_succ_self]
  | succ k =>
    rw [if_neg k.succ_ne_zero, Nat.succ_add_eq_add_succ, Nat.add_mod_right, Nat.mod_eq_of_lt (by omega),
      Nat.add_sub_cancel]

theorem TurnsRing.of_right (h : ∀ s, ∃ t, exec i s = .next t ∧
    ∀ k, k < p + 1 → ring t k = if k = p then ring s 0 else ring s (k + 1)) : TurnsRing i (p + 1) 1 ring := by
  intro s
  obtain ⟨t, ht, hring⟩ := h s
  refine ⟨t, ht, fun k hk => (hring k hk).trans ?_⟩
  split
  · next hlast => rw [hlast, Nat.mod_self]
  · rw [Nat.mod_eq_of_lt (by omega)]

end Ring

/-- The eight bits of a register, the ring of RLC and RRC. -/
def byteRing (rd : Reg8) (s : State) (k : Nat) : Bool :=
  (s.get8 rd).getLsbD k

/-- The eight bits of a register and Carry above them, the ring of RL and RR. -/
def carryRing (rd : Reg8) (s : State) (k : Nat) : Bool :=
  if k = 8 then s.flag .c else (s.get8 rd).getLsbD k

section Rotates

variable {rd : Reg8}

theorem get8_eq_of_byteRing {s t : State} (h : ∀ k, k < 8 → byteRing rd t k = byteRing rd s k) :
    t.get8 rd = s.get8 rd :=
  BitVec.eq_of_getLsbD_eq h

theorem eq_of_carryRing {s t : State} (h : ∀ k, k < 9 → carryRing rd t k = carryRing rd s k) :
    t.get8 rd = s.get8 rd ∧ t.flag .c = s.flag .c :=
  ⟨BitVec.eq_of_getLsbD_eq fun k hk => by simpa [carryRing, hk.ne] using h k (by omega), h 8 (by omega)⟩

section Shifted

variable {s : State} {i : Instr} {bits : Nat → Bool} {out : Bool} (h : Shifts8 s i rd bits out)

include h

theorem Shifts8.byteRing_eq : ∃ t, exec i s = .next t ∧ ∀ k, k < 8 → byteRing rd t k = bits k := by
  obtain ⟨t, r, ht, hbits, rfl, -⟩ := h
  exact ⟨t, ht, hbits⟩

theorem Shifts8.carryRing_eq :
    ∃ t, exec i s = .next t ∧ ∀ k, k < 9 → carryRing rd t k = if k = 8 then out else bits k := by
  obtain ⟨t, r, ht, hbits, rfl, ⟨-, -, -, -, -, -, -, hc⟩, -, -⟩ := h
  refine ⟨t, ht, fun k hk => ?_⟩
  unfold carryRing
  split
  · exact hc
  · exact hbits k (by omega)

end Shifted

variable (h : rd ≠ .f)

include h

theorem rlc_turnsRing : TurnsRing (.rlc rd) 8 7 (byteRing rd) :=
  .of_left fun s =>
    have ⟨_, _, hrlc, _⟩ := rotatesAndShifts s rd h
    hrlc.byteRing_eq

theorem rrc_turnsRing : TurnsRing (.rrc rd) 8 1 (byteRing rd) :=
  .of_right fun s =>
    have ⟨_, _, _, hrrc, _⟩ := rotatesAndShifts s rd h
    hrrc.byteRing_eq

theorem rl_turnsRing : TurnsRing (.rl rd) 9 8 (carryRing rd) :=
  .of_left fun s => by
    obtain ⟨hrl, -⟩ := rotatesAndShifts s rd h
    obtain ⟨t, ht, hring⟩ := hrl.carryRing_eq
    refine ⟨t, ht, fun k hk => (hring k hk).trans ?_⟩
    obtain rfl | rfl | hmid : k = 0 ∨ k = 8 ∨ k ≠ 0 ∧ k ≠ 8 := by omega
    · rfl
    · rfl
    · simp [carryRing, hmid, show k - 1 ≠ 8 by omega]

theorem rr_turnsRing : TurnsRing (.rr rd) 9 1 (carryRing rd) :=
  .of_right fun s => by
    obtain ⟨-, hrr, -⟩ := rotatesAndShifts s rd h
    obtain ⟨t, ht, hring⟩ := hrr.carryRing_eq
    refine ⟨t, ht, fun k hk => (hring k hk).trans ?_⟩
    obtain rfl | rfl | hmid : k = 7 ∨ k = 8 ∨ k ≠ 7 ∧ k ≠ 8 := by omega
    · rfl
    · rfl
    · simp [carryRing, hmid]

end Rotates

/-- Settles O14: each rotate turns its ring by one place, so as many turns as the ring has bits restore it. -/
theorem rotatesComeRoundAgain : Obligations.RotatesComeRoundAgain := by
  intro s rd h
  obtain ⟨t, ht, hrlc⟩ := (rlc_turnsRing h).comes_round s
  obtain ⟨u, hu, hrrc⟩ := (rrc_turnsRing h).comes_round s
  obtain ⟨v, hv, hrl⟩ := (rl_turnsRing h).comes_round s
  obtain ⟨w, hw, hrr⟩ := (rr_turnsRing h).comes_round s
  exact ⟨⟨t, ht, get8_eq_of_byteRing hrlc⟩, ⟨u, hu, get8_eq_of_byteRing hrrc⟩, ⟨v, hv, eq_of_carryRing hrl⟩,
    ⟨w, hw, eq_of_carryRing hrr⟩⟩

end Sys2Proof.Machine

/-! SUPPORT. The 16-bit arithmetic micro-operations (42_alu16.md R270 to R278). -/

namespace Sys2Proof.Machine

/-- Settles O15: ADD16 and ADC16 write `addCore`, SUB16 and SBC16 `subCore`, without Carry and with it. -/
theorem arithmeticOfWords : Obligations.ArithmeticOfWords := by
  intro s rd rs haf _
  refine ⟨?add16, ?adc16, ?sub16, ?sbc16⟩
  case add16 => exact adds16_of_exec (c := false) haf rfl
  case adc16 => exact adds16_of_exec (c := flagOf (s.get8 .f) .c) haf rfl
  case sub16 => exact subtracts16_of_exec (c := false) haf rfl
  case sbc16 => exact subtracts16_of_exec (c := flagOf (s.get8 .f) .c) haf rfl

end Sys2Proof.Machine

/-! SUPPORT. Moves, loads and stores, the stack, block transfer and ports (43_move_memory_io.md R290 to R326): what each shared
operation does, case by case, and from it the statement for the micro-operations that run it. -/

namespace Sys2Proof.Machine

/-! ### What a byte read answers, segment by segment (20_memory.md R83 to R86, R100) -/

section Reads

variable {s : State}

theorem State.answer_of_inputs {v : Byte} {rest : List Byte} (h : s.inputs = v :: rest) :
    s.answer = .ok v { s with inputs := rest } := by
  simp only [State.answer, h]

theorem State.answer_of_inputs_nil (h : s.inputs = []) : s.answer = s.draw := by
  simp only [State.answer, h]

variable {a : Word}

theorem State.readByte_of_peripheral (hr : (s.segmentAt a).cap.canRead = true) (hk : (s.segmentAt a).kind = .peripheral) :
    s.readByte a = s.answer := by
  simp only [State.readByte, hr, hk, if_true]

theorem State.readByte_of_unused (hr : (s.segmentAt a).cap.canRead = true) (hk : (s.segmentAt a).kind = .unused) :
    (∀ v, s.cfg.unusedRead = some v → s.readByte a = .ok v s) ∧ (s.cfg.unusedRead = none → s.readByte a = s.draw) := by
  constructor
  · intro v hu
    simp only [State.readByte, hr, hk, hu, if_true]
  · intro hu
    simp only [State.readByte, hr, hk, hu, if_true]

theorem State.readByte_of_ignored (hr : (s.segmentAt a).cap.canRead = false) (hp : s.cfg.readFaultPolicy = .ignore) :
    s.readByte a = s.draw := by
  simp only [State.readByte, hr, hp, Bool.false_eq_true, if_false]

end Reads

/-! ### What a byte write does outside RAM and ROM (20_memory.md R84 to R86, R101) -/

section Writes

variable {s : State} {a : Word} (v : Byte)

theorem State.notify_of_ne_ram {n j : Nat} (h : (s.segmentAt a).kind ≠ .ram) : s.notify a n j = s :=
  if_neg fun hc => h (of_decide_eq_true (Bool.and_eq_true_iff.1 hc).1)

theorem State.writeByte_eq (s : State) (a : Word) (v : Byte) :
    s.writeByte a v =
      if (s.segmentAt a).cap.canWrite then .ok () ((s.performWrite a v).notify a 1 0)
      else if s.cfg.writeFaultPolicy = .ignore then .ok () s
      else .raised (s.raise (.writeFault a)) := by
  rw [State.writeByte, State.writeStringByte_eq, BitVec.add_zero]

theorem State.writeByte_of_peripheral (hw : (s.segmentAt a).cap.canWrite = true)
    (hk : (s.segmentAt a).kind = .peripheral) :
    s.writeByte a v =
      .ok () (s.emit (.peripheralWrite (s.segmentAt a).base (a.toNat - (s.segmentAt a).base.toNat) v)) := by
  have hperform : s.performWrite a v =
      s.emit (.peripheralWrite (s.segmentAt a).base (a.toNat - (s.segmentAt a).base.toNat) v) := by
    simp only [State.performWrite, hk]
  rw [State.writeByte_eq, if_pos hw, hperform, State.notify_of_ne_ram]
  rw [State.segmentAt_emit, hk]
  decide

theorem State.writeByte_of_unused (hw : (s.segmentAt a).cap.canWrite = true) (hk : (s.segmentAt a).kind = .unused) :
    s.writeByte a v = .ok () s := by
  have hperform : s.performWrite a v = s := by simp only [State.performWrite, hk]
  rw [State.writeByte_eq, if_pos hw, hperform, State.notify_of_ne_ram]
  rw [hk]
  decide

theorem State.writeByte_of_ignored (hw : (s.segmentAt a).cap.canWrite = false) (hp : s.cfg.writeFaultPolicy = .ignore) :
    s.writeByte a v = .ok () s := by
  rw [State.writeByte_eq, if_neg (ne_true_of_eq_false hw), if_pos hp]

end Writes

/-- Memory, cache and registers written, the rest kept: what is left to show of a store. -/
theorem OnlyStored.of_stored {s u : State} {m : Memory} {c : Cache} {p : Word → Prop} (hu : u = { s with regs := u.regs })
    (hc : c.Sublist s.cache) (hx : ∀ x, ¬p x → (u.stored m c).byteAt x = s.byteAt x)
    (hd : s.cfg.tiled → DropsExactly s (u.stored m c) p) : OnlyStored s (u.stored m c) p := by
  refine ⟨?_, hc, hx, hd⟩
  rw [hu]
  rfl

/-! ### From the shared operation to the statements' terms -/

section Effects

variable {s : State} {i : Instr}

theorem moves8_of_exec {rd : Reg8} {v : Byte} (hi : exec i s = .next (s.set8 rd v)) : Moves8 s i rd v :=
  ⟨_, hi, s.get8_set8_self rd v, Regs.set8_kept s.regs rd v, OnlyRegisters.of_regs s _⟩

theorem moves16_of_exec {rd : Reg16} {v : Word} (hi : exec i s = .next (s.set16 rd v)) : Moves16 s i rd v :=
  ⟨_, hi, s.get16_set16_self rd v, Regs.set16_kept s.regs rd v, OnlyRegisters.of_regs s _⟩

/-- A byte load ends with what its byte read answers. -/
theorem exec_loadByte_of_read {rd : Reg8} {a : Word} {v : Byte} {t : State} (hi : exec i s = (s.loadByte rd a).outcome)
    (hread : s.readByte a = .ok v t) : exec i s = .next (t.set8 rd v) := by
  rw [hi, State.loadByte, hread]
  rfl

theorem loadsByte_of_exec {rd : Reg8} {a : Word} (hi : exec i s = (s.loadByte rd a).outcome) : LoadsByte s i rd a := by
  refine ⟨fun h => ?memory, fun hr hk v rest hv => ?answered, fun hr hk hv => ?unanswered, fun hr hk v hu => ?configured,
    fun hr hk hu => ?free, fun hr hp => ?ignored, fun h => ?raised⟩
  case memory => exact moves8_of_exec (exec_loadByte_of_read hi (State.readByte_of_readable h))
  case answered =>
    exact exec_loadByte_of_read hi ((State.readByte_of_peripheral hr hk).trans (State.answer_of_inputs hv))
  case unanswered =>
    exact exec_loadByte_of_read hi ((State.readByte_of_peripheral hr hk).trans (State.answer_of_inputs_nil hv))
  case configured => exact exec_loadByte_of_read hi ((State.readByte_of_unused hr hk).1 v hu)
  case free => exact exec_loadByte_of_read hi ((State.readByte_of_unused hr hk).2 hu)
  case ignored => exact exec_loadByte_of_read hi (State.readByte_of_ignored hr hp)
  case raised =>
    rw [hi, State.loadByte, State.readByte_of_readRaises h]
    rfl

theorem storesByte_of_exec {a : Word} {v : Byte} (hi : exec i s = (s.writeByte a v).outcome) : StoresByte s i a v := by
  rw [StoresByte, hi]
  refine ⟨fun h => ?memory, fun hw hk => ?peripheral, fun hw hk => ?unused, fun hw hp => ?ignored, fun h => ?raised⟩
  case memory =>
    obtain ⟨m, c, hwrite, hc, hbytes, hdrops⟩ := State.writeByte_stores v h
    refine ⟨s.stored m c, by rw [hwrite]; rfl, by rw [hbytes, if_pos rfl], rfl,
      .of_stored rfl hc (fun x hx => ?_) hdrops⟩
    rw [hbytes, if_neg hx]
  case peripheral => rw [State.writeByte_of_peripheral v hw hk]; rfl
  case unused => rw [State.writeByte_of_unused v hw hk]; rfl
  case ignored => rw [State.writeByte_of_ignored v hw hp]; rfl
  case raised => rw [State.writeByte_of_writeRaises v h]; rfl

end Effects

/-- Settles O16: each of the four writes one register. -/
theorem movesBetweenRegisters : Obligations.MovesBetweenRegisters :=
  ⟨fun _ _ _ _ => ⟨moves8_of_exec rfl, moves8_of_exec rfl⟩, fun _ _ _ _ _ => ⟨moves16_of_exec rfl, moves16_of_exec rfl⟩⟩

/-- Settles O17: both are `State.loadByte`, from a register's address and from a given one. -/
theorem loadsOfBytes : Obligations.LoadsOfBytes :=
  fun _ _ _ _ => ⟨loadsByte_of_exec rfl, loadsByte_of_exec rfl⟩

/-- Settles O19: both are `State.writeByte`, to a register's address and to a given one. -/
theorem storesOfBytes : Obligations.StoresOfBytes :=
  fun _ _ _ _ => ⟨storesByte_of_exec rfl, storesByte_of_exec rfl⟩

/-! ### Words: two byte accesses and the point between them (20_memory.md R93, R102, R103, R112, R113) -/

/-- What falls between two byte accesses: the step the engine takes on the agenda's next turn is that agent's step, which is
what the point between the accesses takes too (00_scope.md R18; log 6). -/
theorem othersActBetween : OthersActBetween := by
  refine fun s => ⟨State.interleave_of_agenda_nil, fun _ => State.interleave_of_cpu, fun _ => State.interleave_of_cpuCancel,
    fun m rest ha => ⟨State.interleave_of_step ha, fun hm t ht => ?_⟩⟩
  have hstep := step_of_other (step_next ht).1 ha
  rw [ht] at hstep
  cases hstep
  exact State.interleave_of_access ha hm rfl

/-- What a DMA-WRITE to the high byte stores between the two byte reads of a word is read (20_memory.md R113). -/
theorem State.readWord_of_dmaWritesNext {s : State} {a : Word} {b : Byte} {rest : List Turn}
    (hd : s.dmaWritesNext (a + 1) b rest) (h0 : s.readable a) (h1 : s.readable (a + 1)) (hw : s.writable (a + 1)) :
    ∃ t, s.readWord a = .ok (b ++ s.byteAt a) t ∧ t.byteAt (a + 1) = b ∧ t.agenda = rest := by
  obtain ⟨m, c, hbetween, hbytes⟩ := hd.interleave hw
  let t : State := { s with agenda := rest, mem := m, cache := c, dma := { s.dma with j := s.dma.j + 1 } }
  have hb : t.byteAt (a + 1) = b := (hbytes _).trans (if_pos rfl)
  refine ⟨t, ?_, hb, rfl⟩
  rw [State.readWord, State.readByte_of_readable h0, Res.bind_ok, hbetween, Res.bind_ok,
    State.readByte_of_readable (s := t) h1, hb, Res.bind_ok]

theorem State.writeWord_eq_twoWrites (s : State) (a v : Word) : s.writeWord a v = s.twoWrites a v := rfl

/-- What a DMA-WRITE to the low byte stores between the two byte writes of a word stays (20_memory.md R113). -/
theorem State.writeWord_of_dmaWritesNext {s : State} {a v : Word} {b : Byte} {rest : List Turn}
    (hd : s.dmaWritesNext a b rest) (h0 : s.writable a) (h1 : s.writable (a + 1)) :
    ∃ t, s.writeWord a v = .ok () t ∧ t.byteAt a = b ∧ t.byteAt (a + 1) = v.extractLsb' 8 8 ∧ t.agenda = rest := by
  obtain ⟨m, c, hlow, -, -⟩ := State.writeStringByte_stores (s := s) (addr := a) (n := 2) (j := 0) (v.extractLsb' 0 8)
    (by simpa using h0)
  obtain ⟨m', c', hbetween, hbytes⟩ := State.dmaWritesNext.interleave (s := { s with mem := m, cache := c }) hd h0
  obtain ⟨m'', c'', hhigh, -, hbytes'⟩ := State.writeStringByte_stores
    (s := { s with agenda := rest, mem := m', cache := c', dma := { s.dma with j := s.dma.j + 1 } })
    (addr := a) (n := 2) (j := 1) (v.extractLsb' 8 8) h1
  refine ⟨_, ?_, ?_, (hbytes' (a + 1)).trans (if_pos rfl), rfl⟩
  · rw [State.writeWord_eq_twoWrites, State.twoWrites, hlow, Res.bind_ok, hbetween, Res.bind_ok, hhigh]
  · exact ((hbytes' a).trans (if_neg (show a ≠ a + 1 by bv_omega))).trans ((hbytes a).trans (if_pos rfl))

theorem Res.bind_ok_self (x : Res Unit) : (x.bind fun _ t => .ok () t) = x := by
  cases x <;> rfl

/-- A word store with nothing after it (20_memory.md R103, R109). -/
theorem State.writeWord_writesWord (s : State) (a v : Word) : WritesWord s a v (s.writeWord a v).outcome id := by
  have h := s.writeWord_writes a v id
  rwa [show (s.writeWord a v).bind (fun _ t => .ok () (id t)) = s.writeWord a v from Res.bind_ok_self _] at h

section Words

variable {s : State} {i : Instr}

theorem loadsWord_of_exec {rd : Reg16} {a : Word} (hi : exec i s = (s.loadWord rd a).outcome) : LoadsWord s i rd a := by
  refine ⟨hi, fun ha h0 h1 => moves16_of_exec ?completes, fun h => ?first, fun ha h0 h1 => ?second,
    fun b rest hd h0 h1 hw => ?between⟩
  case completes =>
    rw [hi, State.loadWord, State.readWord_of_readable ha h0 h1]
    rfl
  case first =>
    rw [hi, State.loadWord, State.readWord_of_readRaises h]
    rfl
  case second =>
    rw [hi, State.loadWord, State.readWord_of_readRaises_second ha h0 h1]
    rfl
  case between =>
    obtain ⟨t, hread, hbyte, hagenda⟩ := State.readWord_of_dmaWritesNext hd h0 h1 hw
    refine ⟨t.set16 rd (b ++ s.byteAt a), ?_, t.get16_set16_self _ _, hbyte, hagenda⟩
    rw [hi, State.loadWord, hread]
    rfl

theorem storesWord_of_exec {a v : Word} (hi : exec i s = (s.writeWord a v).outcome) : StoresWord s i a v := by
  rw [StoresWord, hi]
  refine ⟨rfl, fun ha h0 h1 => ?completes, fun h => ?first, fun ha h0 h1 => ?second, s.writeWord_writesWord a v,
    fun b rest hd h0 h1 => ?between⟩
  case completes =>
    obtain ⟨m, c, hwrite, hc, hword, hother, hdrops⟩ := State.writeWord_stores v ha h0 h1
    refine ⟨s.stored m c, by rw [hwrite]; rfl, hword, rfl, .of_stored rfl hc (fun x hx => ?_) hdrops⟩
    exact hother x (fun h => hx (.inl h)) fun h => hx (.inr h)
  case first =>
    rw [State.writeWord_of_writeRaises v h]
    rfl
  case second =>
    obtain ⟨m, c, hwrite, hlow, hother, hdrops⟩ := State.writeWord_of_writeRaises_second v ha h0 h1
    exact ⟨_, congrArg Res.outcome hwrite, rfl, rfl, hlow, hother, hdrops⟩
  case between =>
    obtain ⟨t, hwrite, hlow, hhigh, hagenda⟩ := State.writeWord_of_dmaWritesNext (v := v) hd h0 h1
    exact ⟨t, congrArg Res.outcome hwrite, hlow, hhigh, hagenda⟩

end Words

/-- Settles O18: what falls between two byte accesses; and both are `State.loadWord`. -/
theorem loadsOfWords : Obligations.LoadsOfWords :=
  ⟨othersActBetween, fun _ _ _ _ _ => ⟨loadsWord_of_exec rfl, loadsWord_of_exec rfl⟩⟩

/-- Settles O20: both are `State.writeWord`. -/
theorem storesOfWords : Obligations.StoresOfWords :=
  fun _ _ _ _ => ⟨storesWord_of_exec rfl, storesWord_of_exec rfl⟩

/-! ### The stack (10_state.md R39) -/

theorem exec_push (s : State) (rs : Reg16) : exec (.push rs) s = (s.pushWord (s.get16 rs)).outcome := rfl

theorem exec_pop (s : State) (rd : Reg16) :
    exec (.pop rd) s = (s.popWord.bind fun v t => .ok () (t.set16 rd v)).outcome := rfl

/-- Settles O21: a word store to the state whose SP is lowered; the value pushed is read before. -/
theorem pushStoresBelowTheStack : Obligations.PushStoresBelowTheStack := by
  intro s rs
  rw [exec_push]
  refine ⟨rfl, fun ha h0 h1 => ?completes, fun h => ?raises,
    State.writeWord_writesWord (s.setSp (s.sp - 2)) (s.sp - 2) (s.get16 rs)⟩
  case completes =>
    obtain ⟨m, c, hpush, hc, hword, hother, hdrops⟩ := State.pushWord_stores (s.get16 rs) ha h0 h1
    refine ⟨(s.setSp (s.sp - 2)).stored m c, by rw [hpush]; rfl, rfl, hword, Regs.setSp_kept s.regs _,
      .of_stored rfl hc (fun x hx => ?_) hdrops⟩
    exact hother x (fun h => hx (.inl h)) fun h => hx (.inr h)
  case raises =>
    rw [State.pushWord_of_writeRaises _ h]
    rfl

/-- Settles O22: the word read, SP raised, and then the destination written, so that POP SP leaves the word. -/
theorem popLoadsFromTheStack : Obligations.PopLoadsFromTheStack := by
  intro s rd _
  rw [exec_pop]
  refine ⟨?equation, fun ha h0 h1 => ?completes, fun h => ?first, fun ha h0 h1 => ?second⟩
  case equation =>
    rw [State.popWord, Res.bind_assoc]
    rfl
  case completes =>
    let u := s.setSp (s.sp + 2)
    rw [State.popWord_of_readable ha h0 h1]
    refine ⟨u.set16 rd (s.wordAt s.sp), rfl, u.get16_set16_self rd _, fun hne => ?_, ?_, OnlyRegisters.of_regs s _⟩
    · exact Regs.get16_set16_of_ne u.regs (y := .sp) _ (by decide) hne.symm
    · exact ((Regs.setSp_kept s.regs (s.sp + 2)).trans (Regs.set16_kept u.regs rd _)).mono (by simp) (by simp)
  case first =>
    rw [State.popWord_of_readRaises h]
    rfl
  case second =>
    rw [State.popWord_of_readRaises_second ha h0 h1]
    rfl

/-! ### Block transfer (20_memory.md R106, R107) -/

theorem exec_xfer (s : State) (rd rs : Reg16) :
    exec (.xfer rd rs) s = (s.transferByte (s.get16 rs) (s.get16 rd)).outcome := rfl

theorem exec_xfern (s : State) (rd rs : Reg16) (len : Word) :
    exec (.xfern rd rs len) s = (s.transferBytes (s.get16 rs) (s.get16 rd) len.toNat).outcome := rfl

/-- From a readable byte, with no other agent between, a transfer is the write of that byte. -/
theorem State.transferByte_of_readable {s : State} {source : Word} (target : Word) (ha : s.agenda = [])
    (h : s.readable source) : s.transferByte source target = s.writeByte target (s.byteAt source) := by
  rw [State.transferByte, State.readByte_of_readable h, Res.bind_ok, State.interleave_of_agenda_nil ha, Res.bind_ok]

/-- Settles O23: a byte read and then a byte write. -/
theorem transferOfAByte : Obligations.TransferOfAByte := by
  intro s rd rs
  rw [exec_xfer]
  refine ⟨rfl, fun ha hr hw => ?completes, fun hr => ?readRaises, fun ha hr hw => ?writeRaises⟩
  case completes =>
    obtain ⟨m, c, hwrite, hc, hbytes, hdrops⟩ := State.writeByte_stores (s.byteAt (s.get16 rs)) hw
    refine ⟨s.stored m c, ?_, by rw [hbytes, if_pos rfl], rfl, .of_stored rfl hc (fun x hx => ?_) hdrops⟩
    · rw [State.transferByte_of_readable _ ha hr, hwrite]
      rfl
    · rw [hbytes, if_neg hx]
  case readRaises =>
    rw [State.transferByte, State.readByte_of_readRaises hr]
    rfl
  case writeRaises =>
    rw [State.transferByte_of_readable _ ha hr, State.writeByte_of_writeRaises _ hw]
    rfl

/-- All reads come before the first write (20_memory.md R107): from readable bytes, with no other agent between, a transfer is
the write of what the source held before, whether or not the runs overlap. -/
theorem State.transferBytes_of_readable {s : State} {source : Word} {n : Nat} (target : Word) (ha : s.agenda = [])
    (h : s.readableRun source n) : s.transferBytes source target n = s.writeBytes target (s.run source n) := by
  rw [State.transferBytes]
  split
  · next hn =>
    subst hn
    rfl
  · rw [State.readBytes_of_readable ha n source h, Res.bind_ok, State.interleave_of_agenda_nil ha, Res.bind_ok]

theorem State.transferBytes_of_ne_zero (s : State) (source target : Word) {n : Nat} (hn : n ≠ 0) :
    s.transferBytes source target n = (State.readBytes n source s).bind fun bytes t =>
      t.interleave.bind fun _ u => u.writeBytes target bytes :=
  if_neg hn

theorem State.eq_byteAt_of_run {s : State} {a : Word} {n j : Nat} {v : Byte} (hj : j < n) (h : some v = (s.run a n)[j]?) :
    v = s.byteAt (a + BitVec.ofNat 16 j) :=
  Option.some.inj (h.trans (s.getElem?_run a hj))

/-- Settles O24: the write of the run the source held before, up to its end or to the byte that raises. -/
theorem transferOfABlock : Obligations.TransferOfABlock := by
  intro s rd rs len source target
  have hsize : len.toNat ≤ 0x10000 := Nat.le_of_lt len.isLt
  simp only [exec_xfern]
  refine ⟨rfl, fun hlen => ?equation, fun ha hr hw => ?completes, fun k hk ha hr hf => ?readRaises,
    fun k hk ha hr hw hf => ?writeRaises⟩
  case equation =>
    rw [State.transferBytes_of_ne_zero s _ _ fun h => hlen (BitVec.eq_of_toNat_eq h)]
  case completes =>
    rw [State.transferBytes_of_readable target ha hr]
    obtain ⟨m, c, hc, hbytes, hother, hok, -, hdrops⟩ := State.writeBytes_stores (bytes := s.run source len.toNat) ha
      (Nat.le_of_eq (s.length_run _ _).symm) hsize hw
    refine ⟨s.stored m c, by rw [hok (s.length_run _ _).symm]; rfl,
      fun j hj => State.eq_byteAt_of_run hj (hbytes j hj), rfl,
      .of_stored rfl hc (fun x hx => hother x fun j hj he => hx ⟨j, hj, he⟩) fun ht => ?_⟩
    exact hdrops ht (.inl (s.length_run _ _).symm)
  case readRaises =>
    rw [State.transferBytes_of_ne_zero s _ _ (by omega), State.readBytes_of_readRaises ha _ source k hk hr hf]
    rfl
  case writeRaises =>
    rw [State.transferBytes_of_readable target ha hr]
    have hlt : k < (s.run source len.toNat).length := by rwa [s.length_run]
    obtain ⟨m, c, -, hbytes, hother, -, hraise, hdrops⟩ :=
      State.writeBytes_stores ha (Nat.le_of_lt hlt) (by omega) hw
    exact ⟨_, congrArg Res.outcome (hraise hlt hf), rfl,
      fun j hj => State.eq_byteAt_of_run (Nat.lt_trans hj hk) (hbytes j hj), rfl, hother, fun ht => hdrops ht (.inr hf)⟩

/-! ### Ports (43_move_memory_io.md R320 to R326) -/

/-- IN ends with the answer of the environment in the destination and the read logged. -/
theorem exec_inp_of_answer {s t : State} {rd : Reg8} {rs : Reg16} {v : Byte} (h : s.answer = .ok v t) :
    exec (.inp rd rs) s = .next ((t.emit (.readPort (s.get16 rs) v)).set8 rd v) := by
  show ((s.portRead (s.get16 rs)).bind _).outcome = _
  rw [State.portRead, h]
  rfl

/-- Settles O25: IN by the answer held ready or the free value, OUT by definition. -/
theorem portReadsAndWrites : Obligations.PortReadsAndWrites := by
  refine ⟨fun s rd rs => ⟨fun v rest hv => ?answered, fun hv => ?free⟩, fun s rd rs => ?out⟩
  case answered =>
    exact ⟨_, exec_inp_of_answer (State.answer_of_inputs hv), State.get8_set8_self _ rd v, Regs.set8_kept s.regs rd v, rfl,
      fun _ => rfl⟩
  case free =>
    exact ⟨_, exec_inp_of_answer (State.answer_of_inputs_nil hv), State.get8_set8_self _ rd _, Regs.set8_kept s.regs rd _,
      rfl, fun _ => rfl⟩
  case out => exact ⟨_, rfl, rfl, fun _ => rfl⟩

end Sys2Proof.Machine

/-! SUPPORT. System and control transfer (44_control_system.md R330 to R347): the select of a bank exchanges what its names
mean, and the call and the returns are the stack operations with PC written after. -/

namespace Sys2Proof.Machine

/-! ### The selects of the banks (10_state.md R32) -/

section Selects

variable (g : Regs)

theorem Regs.af_exaf : ({ g with afSel := !g.afSel } : Regs).af = g.afAlt := by
  cases h : g.afSel <;> simp [Regs.af, Regs.afAlt, h]

theorem Regs.afAlt_exaf : ({ g with afSel := !g.afSel } : Regs).afAlt = g.af := by
  cases h : g.afSel <;> simp [Regs.af, Regs.afAlt, h]

theorem Regs.gp_exx : ({ g with gpSel := !g.gpSel } : Regs).gp = g.gpAlt := by
  cases h : g.gpSel <;> simp [Regs.gp, Regs.gpAlt, h]

theorem Regs.gpAlt_exx : ({ g with gpSel := !g.gpSel } : Regs).gpAlt = g.gp := by
  cases h : g.gpSel <;> simp [Regs.gp, Regs.gpAlt, h]

/-- EXAF leaves every 8-bit register but A and F. -/
theorem Regs.get8_exaf_of_ne {x : Reg8} (ha : x ≠ .a) (hf : x ≠ .f) :
    ({ g with afSel := !g.afSel } : Regs).get8 x = g.get8 x := by
  cases x with
  | a => exact absurd rfl ha
  | f => exact absurd rfl hf
  | b | c | d | e | h | l | i | r => rfl

/-- EXX leaves the 8-bit registers outside its bank. -/
theorem Regs.get8_exx_of_mem {x : Reg8} (hx : x ∈ [Reg8.a, .f, .i, .r]) :
    ({ g with gpSel := !g.gpSel } : Regs).get8 x = g.get8 x := by
  cases x with
  | a | f | i | r => rfl
  | b | c | d | e | h | l => exact absurd hx (by decide)

/-- EXX leaves the 16-bit registers outside its bank. -/
theorem Regs.get16_exx_of_mem {y : Reg16} (hy : y ∈ [Reg16.af, .ix, .iy, .sp, .pc]) :
    ({ g with gpSel := !g.gpSel } : Regs).get16 y = g.get16 y := by
  cases y with
  | af | ix | iy | sp | pc => rfl
  | bc | de | hl => exact absurd hy (by decide)

end Selects

theorem exec_exaf (s : State) :
    exec .exaf s = .next { s with regs := { s.regs with afSel := !s.regs.afSel } } := rfl

theorem exec_exaf_exaf (s : State) :
    exec .exaf { s with regs := { s.regs with afSel := !s.regs.afSel } } = .next s := by
  rw [exec_exaf]
  simp only [Bool.not_not]

/-- Settles O28: the complemented select exchanges the bank A and F name with the other one, twice back to the first. -/
theorem exafSelectsTheOtherBank : Obligations.ExafSelectsTheOtherBank :=
  ⟨by decide, fun s => ⟨_, exec_exaf s, rfl, congrArg AfBank.a (Regs.af_exaf s.regs), congrArg AfBank.f (Regs.af_exaf s.regs),
    Regs.afAlt_exaf s.regs, fun _ => Regs.get8_exaf_of_ne s.regs, fun _ => rfl, exec_exaf_exaf s⟩⟩

/-- Settles O29: the complemented select exchanges the bank B to L name with the other one. -/
theorem exxSelectsTheOtherBank : Obligations.ExxSelectsTheOtherBank := by
  refine ⟨by decide, fun s => ⟨_, rfl, rfl, ?_⟩⟩
  have hgp := Regs.gp_exx s.regs
  exact ⟨congrArg GpBank.b hgp, congrArg GpBank.c hgp, congrArg GpBank.d hgp, congrArg GpBank.e hgp,
    congrArg GpBank.h hgp, congrArg GpBank.l hgp, congrArg (fun x => x.b ++ x.c) hgp, congrArg (fun x => x.d ++ x.e) hgp,
    congrArg (fun x => x.h ++ x.l) hgp, Regs.gpAlt_exx s.regs, fun _ => Regs.get8_exx_of_mem s.regs,
    fun _ => Regs.get16_exx_of_mem s.regs, fun _ => rfl⟩

/-! ### Micro-operations with no effect, and the interrupt flip-flops and mode (10_state.md R43, R44) -/

/-- Settles O26: each of the four completes at once. -/
theorem nothingAtExecution : Obligations.NothingAtExecution :=
  fun _ => ⟨rfl, rfl, rfl, rfl⟩

/-- Settles O27: each writes the fields named; memory and configuration, of which a byte is read, are those of before. -/
theorem interruptEnableAndMode : Obligations.InterruptEnableAndMode := by
  refine fun s => ⟨?ei, ?di, fun n _ => ?im⟩
  case ei => exact ⟨s.setIff true true, rfl, rfl, rfl, s.byteAt_setIff true true⟩
  case di => exact ⟨s.setIff false false, rfl, rfl, rfl, s.byteAt_setIff false false⟩
  case im => exact ⟨_, rfl, rfl, (OnlyRegisters.of_regs s { s.regs with im := n }).2⟩

/-! ### Jumps -/

section Jumps

variable {s : State} {i : Instr}

theorem jumps_of_exec {v : Word} (hi : exec i s = .next (s.setPc v)) : Jumps s i v :=
  ⟨_, hi, rfl, Regs.setPc_kept s.regs v, OnlyRegisters.of_regs s _⟩

/-- The number of the condition gives the flag's place by its low three bits and the value required by its top one
(30_encoding.md R167). -/
theorem State.condition_iff (cc : BitVec 4) :
    s.condition cc = true ↔ (s.get8 .f).getLsbD (cc.toNat % 8) = decide (cc.toNat ≥ 8) := by
  have hplace : (cc.extractLsb' 0 3).toNat = cc.toNat % 8 := by simp
  have hvalue : cc.getLsbD 3 = decide (cc.toNat ≥ 8) := by
    revert cc
    decide
  rw [State.condition, beq_iff_eq, hplace, hvalue]

theorem exec_jpc_of_condition {cc : BitVec 4} (addr : Word) (h : s.condition cc = true) :
    exec (.jpc cc addr) s = .next (s.setPc addr) :=
  congrArg Host.Outcome.next (if_pos h)

theorem exec_jpc_of_not_condition {cc : BitVec 4} (addr : Word) (h : ¬s.condition cc = true) :
    exec (.jpc cc addr) s = .next s :=
  congrArg Host.Outcome.next (if_neg h)

end Jumps

/-- Settles O30: each writes PC only, JPC where its condition holds. -/
theorem jumpsWriteThePc : Obligations.JumpsWriteThePc := by
  refine fun s addr rs cc => ⟨jumps_of_exec rfl, jumps_of_exec rfl, fun h => ?taken, fun h => ?notTaken⟩
  case taken => exact jumps_of_exec (exec_jpc_of_condition addr ((State.condition_iff cc).2 h))
  case notTaken => exact exec_jpc_of_not_condition addr (mt (State.condition_iff cc).1 h)

/-! ### The call -/

theorem Regs.setSp_setPc_kept (g : Regs) (v w : Word) : RegsKept [] [.pc, .sp] g { g with sp := v, pc := w } :=
  ((Regs.setSp_kept g v).trans (Regs.setPc_kept { g with sp := v } w)).mono (by simp) (by simp)

theorem exec_call (s : State) (addr : Word) :
    exec (.call addr) s = ((s.pushWord s.pc).bind fun _ t => .ok () (t.setPc addr)).outcome := rfl

/-- Settles O31: the push of PC, with PC written where the push raised nothing. -/
theorem callPushesThePc : Obligations.CallPushesThePc := by
  intro s addr
  rw [exec_call]
  refine ⟨rfl, fun ha h0 h1 => ?completes, fun h => ?raises,
    (s.setSp (s.sp - 2)).writeWord_writes (s.sp - 2) s.pc fun t => t.setPc addr⟩
  case completes =>
    obtain ⟨m, c, hpush, hc, hword, hother, hdrops⟩ := State.pushWord_stores s.pc ha h0 h1
    refine ⟨((s.setSp (s.sp - 2)).setPc addr).stored m c, by rw [hpush]; rfl, rfl, rfl, hword,
      Regs.setSp_setPc_kept s.regs _ _, .of_stored rfl hc (fun x hx => ?_) hdrops⟩
    exact hother x (fun h => hx (.inl h)) fun h => hx (.inr h)
  case raises =>
    rw [State.pushWord_of_writeRaises _ h]
    rfl

/-! ### The returns: a micro-operation that is a pop with `k` after it, as RET, RETN and POP are -/

section Pops

variable {s : State} {i : Instr} {k : Word → State → State}
  (hi : exec i s = (s.popWord.bind fun v t => .ok () (k v t)).outcome)
include hi

theorem exec_pops : exec i s = ((s.twoReads s.sp).bind fun v t => .ok () (k v (t.setSp (t.sp + 2)))).outcome := by
  rw [hi, State.popWord, Res.bind_assoc]
  rfl

theorem exec_pops_of_popWord {v : Word} {t : State} (h : s.popWord = .ok v t) : exec i s = .next (k v t) := by
  rw [hi, h]
  rfl

theorem exec_pops_of_readRaises (h : s.readRaises s.sp) : exec i s = .next (s.raise (.readFault s.sp)) := by
  rw [hi, State.popWord_of_readRaises h]
  rfl

theorem exec_pops_of_readRaises_second (ha : s.agenda = []) (h0 : s.readable s.sp) (h1 : s.readRaises (s.sp + 1)) :
    exec i s = .next (s.raise (.readFault (s.sp + 1))) := by
  rw [hi, State.popWord_of_readRaises_second ha h0 h1]
  rfl

end Pops

theorem exec_ret (s : State) : exec .ret s = (s.popWord.bind fun v t => .ok () (t.setPc v)).outcome := rfl

theorem exec_retn (s : State) :
    exec .retn s = (s.popWord.bind fun v t => .ok () ((t.setPc v).setIff t.regs.iff2 t.regs.iff2)).outcome :=
  congrArg Res.outcome (Res.bind_assoc s.popWord _ _)

/-- Settles O32: both are a pop with PC written after it, RETN with IFF1 written too. -/
theorem returnsPopThePc : Obligations.ReturnsPopThePc := by
  intro s
  refine ⟨exec_pops (exec_ret s), exec_pops (exec_retn s), fun ha h0 h1 => ?complete,
    fun h => ⟨exec_pops_of_readRaises (exec_ret s) h, exec_pops_of_readRaises (exec_retn s) h⟩,
    fun ha h0 h1 => ⟨exec_pops_of_readRaises_second (exec_ret s) ha h0 h1,
      exec_pops_of_readRaises_second (exec_retn s) ha h0 h1⟩⟩
  case complete =>
    have hpop := State.popWord_of_readable ha h0 h1
    have hkept := Regs.setSp_setPc_kept s.regs (s.sp + 2) (s.wordAt s.sp)
    constructor
    · exact ⟨_, exec_pops_of_popWord (exec_ret s) hpop, rfl, rfl, hkept, OnlyRegisters.of_regs s _⟩
    · exact ⟨_, _, exec_pops_of_popWord (exec_retn s) hpop, rfl, rfl, hkept, rfl, OnlyRegisters.of_regs s _⟩

/-! ### A return after a call, a pop after a push -/

theorem State.holdsWord.wordAt {s : State} {a v : Word} (h : s.holdsWord a v) : s.wordAt a = v := by
  obtain ⟨hlow, hhigh⟩ := h
  rw [State.wordAt, hlow, hhigh]
  exact highByte_append_lowByte v

theorem State.popWord_of_holdsWord {s : State} {v : Word} (ha : s.agenda = []) (h0 : s.readable s.sp)
    (h1 : s.readable (s.sp + 1)) (hword : s.holdsWord s.sp v) : s.popWord = .ok v (s.setSp (s.sp + 2)) := by
  rw [State.popWord_of_readable ha h0 h1, hword.wordAt]

/-- Where SP is still the one a push left, whatever other registers were written since, a pop finds the word pushed and
brings back the SP of before (10_state.md R39). -/
theorem State.popWord_after_pushWord {s : State} (v : Word) (ha : s.agenda = []) (hw0 : s.writable (s.sp - 2))
    (hw1 : s.writable (s.sp - 1)) (hr0 : s.readable (s.sp - 2)) (hr1 : s.readable (s.sp - 1)) :
    ∃ t, s.pushWord v = .ok () t ∧
      ∀ g : Regs, g.sp = t.sp → { t with regs := g }.popWord = .ok v ({ t with regs := g }.setSp s.sp) := by
  obtain ⟨m, c, hpush, -, hword, -, -⟩ := State.pushWord_stores v ha hw0 hw1
  refine ⟨_, hpush, fun g hsp => ?_⟩
  let u : State := { (s.setSp (s.sp - 2)).stored m c with regs := g }
  have hlow : u.sp = s.sp - 2 := hsp
  have hhigh : s.sp - 1 = u.sp + 1 := by rw [hlow]; bv_omega
  have hback : u.sp + 2 = s.sp := by rw [hlow]; exact BitVec.sub_add_cancel s.sp 2
  have hpop : u.popWord = .ok v (u.setSp (u.sp + 2)) :=
    State.popWord_of_holdsWord ha (hlow ▸ hr0) (hhigh ▸ hr1) (hlow ▸ hword)
  rwa [hback] at hpop

/-- Settles O33: the pop finds what the push stored; the PC that CALL writes between does not matter to it. -/
theorem returnUndoesCall : Obligations.ReturnUndoesCall := by
  refine fun s addr rs ha hw0 hw1 hr0 hr1 => ⟨?call, fun _ => ?push⟩
  case call =>
    obtain ⟨t, hpush, hpop⟩ := State.popWord_after_pushWord s.pc ha hw0 hw1 hr0 hr1
    refine ⟨t.setPc addr, ((t.setPc addr).setSp s.sp).setPc s.pc, ?_, rfl,
      exec_pops_of_popWord (exec_ret _) (hpop (t.setPc addr).regs rfl), rfl, rfl⟩
    rw [exec_call, hpush]
    rfl
  case push =>
    obtain ⟨t, hpush, hpop⟩ := State.popWord_after_pushWord (s.get16 rs) ha hw0 hw1 hr0 hr1
    refine ⟨t, (t.setSp s.sp).set16 rs (s.get16 rs), ?_, exec_pops_of_popWord (exec_pop t rs) (hpop t.regs rfl),
      State.get16_set16_self _ _ _, ?_⟩
    · rw [exec_push, hpush]
      rfl
    · by_cases h : rs = .sp
      · subst h
        rfl
      · exact Regs.get16_set16_of_ne _ (y := .sp) _ (by decide) (Ne.symm h)

end Sys2Proof.Machine

/-! SUPPORT. The turns of the CPU phase by phase, and that only a fatal error stops the engine (60_exceptions.md R401, R440 to
R450). -/

namespace Sys2Proof.Machine

/-! ### The CPU's turn in each phase -/

section Turns

variable {s : State} {rest : List Turn}

theorem step_of_fetch (hs : s.started = true) (ht : s.cpuTurn rest) (hp : s.phase = .fetch) :
    step s = .next (State.cpuFetch { s with agenda := rest }) :=
  (step_of_cpuTurn hs (by simp [State.cpuEnabled, hp]) ht).trans (State.cpuStep_fetch hs hp)

theorem step_of_execute {b : Block} {k : Nat} (hs : s.started = true) (ht : s.cpuTurn rest)
    (hp : s.phase = .execute b k) : step s = State.cpuExec { s with agenda := rest } b k :=
  (step_of_cpuTurn hs (by simp [State.cpuEnabled, hp]) ht).trans (State.cpuStep_execute hs hp)

theorem step_of_post {b : Block} (hs : s.started = true) (ht : s.cpuTurn rest) (hp : s.phase = .post b) :
    step s = .next (State.cpuPost { s with agenda := rest } b) :=
  (step_of_cpuTurn hs (by simp [State.cpuEnabled, hp]) ht).trans (State.cpuStep_post hs hp)

theorem step_of_wake {v : Word} (hs : s.started = true) (ht : s.cpuTurn rest) (hp : s.phase = .awaitVector)
    (hv : s.ic.vectorSlot = some v) : step s = (State.takeInterrupt { s with agenda := rest } v).outcome :=
  (step_of_cpuTurn hs (by simp [State.cpuEnabled, hp, hv]) ht).trans (State.cpuStep_wake hs hp hv)

theorem State.not_faulted_of_phase {p : Phase} (hp : s.phase = p) (hn : p.isFaulted = false) : s.faulted = false :=
  (congrArg Phase.isFaulted hp).trans hn

/-- The agenda names CPU-CANCEL (60_exceptions.md R449). -/
theorem step_of_cpuCancel (hf : s.faulted = false) (ha : s.agenda = .cpuCancel :: rest) :
    step s = .next (State.cpuCancel { s with agenda := rest }) :=
  step_of_agenda hf ha

/-- The turn of a CPU that waits without a vector is CPU-CANCEL (60_exceptions.md R449, R450). -/
theorem step_of_await_empty (hs : s.started = true) (hp : s.phase = .awaitVector) (hv : s.ic.vectorSlot = none)
    (ha : s.agenda = .cpu :: rest) : step s = .next (State.cpuCancel { s with agenda := rest }) := by
  rw [step_of_agenda (State.not_faulted_of_phase hp rfl) ha]
  simp only [State.takeTurn, State.cpuStep, State.cpuAwait, hs, hp, hv, if_true]

/-- The turn of a stopped CPU is spent, whether or not `run` was called (60_exceptions.md R449; log 11). -/
theorem step_of_stopped (hp : s.phase = .stopped) (ha : s.agenda = .cpu :: rest) :
    step s = .next { s with agenda := rest } := by
  rw [step_of_agenda (State.not_faulted_of_phase hp rfl) ha]
  simp only [State.takeTurn, State.cpuStep, hp, ite_self]

end Turns

/-! ### CPU-EXEC (60_exceptions.md R442) -/

theorem State.cpuExec_of_getElem? (s : State) {b : Block} {k : Nat} {i : Instr} (h : b.body[k]? = some i) :
    s.cpuExec b k = runsUop b k (exec i s) := by
  simp only [State.cpuExec, h]
  cases exec i s <;> rfl

/-- The turn of a CPU in phase Execute, named by the agenda or taken by default, is `exec` of the next micro-operation. -/
theorem step_runsUop {s : State} {rest : List Turn} {b : Block} {k : Nat} {i : Instr} (hs : s.started = true)
    (ht : s.cpuTurn rest) (hp : s.phase = .execute b k) (hi : b.body[k]? = some i) :
    step s = runsUop b k (exec i { s with agenda := rest }) :=
  (step_of_execute hs ht hp).trans (State.cpuExec_of_getElem? _ hi)

section AfterUop

variable {t : State} {b : Block} {k : Nat}

theorem State.afterUop_of_faulted (hf : t.faulted = true) : t.afterUop b k = t :=
  if_pos hf

theorem State.afterUop_of_lt (hf : t.faulted = false) (hk : k + 1 < b.body.length) :
    t.afterUop b k = { t with phase := .execute b (k + 1) } :=
  (if_neg (ne_true_of_eq_false hf)).trans (if_pos hk)

theorem State.afterUop_of_last (hf : t.faulted = false) (hk : ¬k + 1 < b.body.length) :
    t.afterUop b k =
      { t with
        lastCycles := b.staticCycles + b.cyclesUsed.getD (Config.cycles t.draws)
        totalCycles := t.totalCycles + (b.staticCycles + b.cyclesUsed.getD (Config.cycles t.draws))
        draws := if b.cyclesUsed = none then t.draws + 1 else t.draws
        phase := .post b } := by
  refine ((if_neg (ne_true_of_eq_false hf)).trans (if_neg hk)).trans ?_
  simp only [State.collected, Option.isNone_iff_eq_none]

end AfterUop

/-- Settles O34: the CPU's turn is `exec` of micro-operation k, and what follows it is by definition. -/
theorem stepRunsTheNextMicroOp : Obligations.StepRunsTheNextMicroOp := by
  refine ⟨fun s b k i hs hp hi => ⟨fun ha => ?byDefault, fun rest ha => step_runsUop hs (.inl ha) hp hi⟩,
    fun t b k hf => ⟨State.afterUop_of_lt hf, State.afterUop_of_last hf⟩, fun t b k hf => State.afterUop_of_faulted hf⟩
  case byDefault =>
    have h := step_runsUop hs (.inr ⟨ha, rfl⟩) hp hi
    rwa [← ha] at h

/-! ### CPU-POST (60_exceptions.md R443, R444) -/

section Post

variable {s : State} {b : Block}

theorem State.haltBlock_of_not_haltsCpu (h : b.haltsCpu = false) : s.haltBlock b = s :=
  if_neg (ne_true_of_eq_false h)

theorem State.haltBlock_of_haltsCpu (h : b.haltsCpu = true) (hp : b.haltsPeripherals = false) :
    s.haltBlock b = { s with ic := s.ic.halt } :=
  (if_pos h).trans (if_neg (ne_true_of_eq_false hp))

theorem State.haltBlock_of_haltsPeripherals (h : b.haltsCpu = true) (hp : b.haltsPeripherals = true) :
    s.haltBlock b = State.signalHalt { s with ic := s.ic.halt } :=
  (if_pos h).trans (if_pos hp)

theorem State.haltBlock_halted (h : b.haltsCpu = true) : (s.haltBlock b).ic.halted = true := by
  cases hp : b.haltsPeripherals with
  | false => rw [State.haltBlock_of_haltsCpu h hp]; rfl
  | true => rw [State.haltBlock_of_haltsPeripherals h hp]; rfl

/-- Case (a): a HALT-class block, after which the CPU acknowledges and waits. -/
theorem State.cpuPost_of_haltsCpu (h : b.haltsCpu = true) :
    s.cpuPost b = { s.haltBlock b with ic := (s.haltBlock b).ic.notifyHalt, phase := .awaitVector } := by
  simp only [State.cpuPost, State.haltBlock_halted h, h, Bool.or_true, if_true]

/-- Case (a): an accepted interrupt has halted the CPU, which acknowledges and waits. -/
theorem State.cpuPost_of_interrupting (h : b.haltsCpu = false) (hh : s.ic.halted = true)
    (hi : s.ic.interrupting = true) : s.cpuPost b = { s with ic := s.ic.notifyHalt, phase := .awaitVector } := by
  simp only [State.cpuPost, State.haltBlock_of_not_haltsCpu h, hh, hi, Bool.true_or, if_true]

/-- Cases (b) and (c): the CPU goes on, halted by nobody or by a `halt()` that no interrupt follows. -/
theorem State.cpuPost_of_goesOn (h : b.haltsCpu = false) (hg : s.ic.halted = false ∨ s.ic.interrupting = false) :
    s.cpuPost b = { s with ic := { s.ic with halted := false, haltAck := false }, phase := .fetch } := by
  cases hh : s.ic.halted with
  | false => simp [State.cpuPost, State.haltBlock_of_not_haltsCpu h, hh, Ic.notifyResume]
  | true =>
    have hi : s.ic.interrupting = false := hg.resolve_left (ne_false_of_eq_true hh)
    simp [State.cpuPost, State.haltBlock_of_not_haltsCpu h, h, hh, hi, Ic.notifyResume, Ic.notifyHalt]

end Post

/-- Settles O39: the cases of CPU-POST one by one. -/
theorem postStepHaltsOrGoesOn : Obligations.PostStepHaltsOrGoesOn := by
  intro s rest b hs ht hp
  rw [step_of_post hs ht hp]
  refine ⟨fun h hg => congrArg _ (State.cpuPost_of_goesOn h hg),
    fun h hh hi => congrArg _ (State.cpuPost_of_interrupting h hh hi), fun h hq => ?_, fun h hq => ?_⟩
  · rw [State.cpuPost_of_haltsCpu h, State.haltBlock_of_haltsCpu h hq]
    rfl
  · rw [State.cpuPost_of_haltsCpu h, State.haltBlock_of_haltsPeripherals h hq]
    rfl

/-! ### Cancellation (60_exceptions.md R445, R449, R450) -/

section Cancel

variable {s : State}

theorem State.cpuCancel_of_cancel (hp : s.phase = .awaitVector) (hc : s.cancel = true) :
    s.cpuCancel = { s with phase := .stopped } :=
  if_pos (by simp [hp, hc])

theorem State.cpuCancel_of_not_cancel (hc : s.cancel = false) : s.cpuCancel = s :=
  if_neg (by simp [hc])

theorem State.cpuFetch_of_cancel (hc : s.cancel = true) : s.cpuFetch = { s with phase := .stopped } :=
  if_pos hc

end Cancel

/-- Settles O45: the environment's move, CPU-CANCEL, and the CPU's turns that stop it or are spent. -/
theorem cancellationStopsTheCpu : Obligations.CancellationStopsTheCpu := by
  refine fun s more => ⟨step_of_env, fun hp hc ha => ?cancelTurn, fun hs hp hc ha => ?fetch, fun hs hp hc hv ha => ?waits,
    fun hs hp hc hv ha => ?spent, step_of_stopped⟩
  case cancelTurn =>
    exact (step_of_cpuCancel (State.not_faulted_of_phase hp rfl) ha).trans (congrArg _ (State.cpuCancel_of_cancel hp hc))
  case fetch => exact (step_of_fetch hs (.inl ha) hp).trans (congrArg _ (State.cpuFetch_of_cancel hc))
  case waits => exact (step_of_await_empty hs hp hv ha).trans (congrArg _ (State.cpuCancel_of_cancel hp hc))
  case spent => exact (step_of_await_empty hs hp hv ha).trans (congrArg _ (State.cpuCancel_of_not_cancel hc))

/-! ### Fatal errors (60_exceptions.md R401) -/

/-- Settles O46: what raising does by definition, and that no agent has a step in the phase Faulted. -/
theorem fatalErrorStopsEveryAgent : Obligations.FatalErrorStopsEveryAgent :=
  ⟨fun _ _ => rfl, fun _ _ => step_of_faulted, fun _ m => State.moveStep_of_faulted m⟩

/-- A well-formed micro-operation has a next state. -/
theorem exec_next (s : State) {i : Instr} (hw : i.wf = true) : ∃ t, exec i s = .next t := by
  obtain ⟨x, hx, -⟩ := exec_keepsEngine s (i := i) (by rintro rfl; cases hw)
  exact ⟨_, hx⟩

/-- The micro-operation the phase names is there, and has a next state. -/
theorem State.Inv.cpuExec_next {s : State} (h : s.Inv) {b : Block} {k : Nat} (hp : s.phase = .execute b k) :
    ∃ t, s.cpuExec b k = .next t := by
  have hr := h.running
  rw [hp] at hr
  obtain ⟨⟨-, -, -, -, hbody⟩, hk⟩ := hr
  have hi := List.getElem?_eq_getElem hk
  obtain ⟨t, ht⟩ := exec_next s (wfBody_get hbody hi).1
  exact ⟨t.afterUop b k, by rw [State.cpuExec_of_getElem? s hi, ht]; rfl⟩

theorem State.Inv.cpuStep_next {s : State} (h : s.Inv) (hf : s.faulted = false) : ∃ t, s.cpuStep = .next t := by
  unfold State.cpuStep
  split
  · cases hp : s.phase with
    | fetch | post | awaitVector | stopped => exact ⟨_, rfl⟩
    | execute b k => exact h.cpuExec_next hp
    | faulted e =>
      rw [s.faulted_iff.2 ⟨e, hp⟩] at hf
      cases hf
  · exact ⟨s, rfl⟩

/-- Every turn of an engine that is not Faulted has a next state; that of an agent with no enabled step is spent (log 11). -/
theorem State.Inv.takeTurn_next {s : State} (h : s.Inv) (hf : s.faulted = false) (u : Turn) :
    ∃ t, s.takeTurn u = .next t := by
  cases u with
  | cpu => exact h.cpuStep_next hf
  | cpuCancel => exact ⟨s.cpuCancel, rfl⟩
  | other m => exact ⟨s.moveStep m, rfl⟩

/-- Settles O60: the engine is Faulted, or its turn, named by the agenda or the default one, has a next state. -/
theorem onlyAFatalErrorStops : Obligations.OnlyAFatalErrorStops := by
  intro s h
  cases hf : s.faulted with
  | true =>
    obtain ⟨e, he⟩ := s.faulted_iff.1 hf
    exact .inr ⟨e, he, step_of_faulted he⟩
  | false =>
    refine .inl ?_
    cases ha : s.agenda with
    | nil =>
      rw [step_of_agenda_nil hf ha]
      exact h.takeTurn_next hf s.defaultTurn
    | cons u rest =>
      rw [step_of_agenda hf ha]
      exact (h.agenda rest).takeTurn_next hf u

end Sys2Proof.Machine

/-! SUPPORT. The interrupt controller's steps and the interrupt entry (60_exceptions.md R420 to R427, R446). -/

namespace Sys2Proof.Machine

/-! ### The controller's steps (60_exceptions.md R422 to R425) -/

section Controller

variable {s : State} {more : List Turn} {v : Word}

/-- A turn of the interrupt controller, named by the agenda, is the controller's step. -/
theorem step_of_ic (hf : s.faulted = false) (ha : s.agenda = .other .ic :: more) :
    step s = .next (State.icStep { s with agenda := more }) :=
  (step_of_other hf ha).trans (congrArg _ (if_neg (ne_true_of_eq_false hf)))

/-- Not Interrupting, the controller takes the request at the head of the queue. -/
theorem State.icStep_of_request {rest : List Word} (hi : s.ic.interrupting = false) (hq : s.ic.reqQueue = v :: rest) :
    s.icStep = s.icAccept v rest := by
  simp only [State.icStep, hi, hq, Bool.false_eq_true, if_false]

/-- Interrupting, it waits for the acknowledgement and for an empty slot (log 16). -/
theorem State.icStep_of_wait (hi : s.ic.interrupting = true) (hw : s.ic.haltAck = false ∨ s.ic.vectorSlot ≠ none) :
    s.icStep = s := by
  have hn : (s.ic.haltAck && s.ic.vectorSlot.isNone) = false := by
    rcases hw with hk | hv
    · rw [hk, Bool.false_and]
    · rw [Option.isNone_eq_false_iff.2 (Option.isSome_iff_ne_none.2 hv), Bool.and_false]
  simp only [State.icStep, hi, hn, Bool.false_eq_true, if_true, if_false]

theorem State.icStep_of_handoff (hi : s.ic.interrupting = true) (hk : s.ic.haltAck = true)
    (hv : s.ic.vectorSlot = none) : s.icStep = s.icHandoff := by
  simp only [State.icStep, hi, hk, hv, Option.isNone_none, Bool.and_self, if_true]

/-- The hand-over of the vector, and every resume task performed (60_exceptions.md R424, R425). -/
theorem State.icHandoff_eq (s : State) : s.icHandoff =
    { s with
      ic := { s.ic with vectorSlot := s.ic.icVector, icVector := none, interrupting := false, resumeTasks := [] }
      log := s.log ++ s.ic.resumeTasks.map fun _ => .signalResume
      periphHalted := if s.ic.resumeTasks = [] then s.periphHalted else false } :=
  State.runResumeTasks_eq _ _

end Controller

/-- Settles O40: IC-ACCEPT on both sides of its test of IFF1. -/
theorem requestIsAcceptedOrDiscarded : Obligations.RequestIsAcceptedOrDiscarded := by
  intro s v rest more hf ha hi hq
  rw [step_of_ic hf ha, State.icStep_of_request (s := { s with agenda := more }) hi hq]
  exact ⟨fun h => congrArg _ (if_neg (ne_true_of_eq_false h)), fun h => congrArg _ (if_pos h)⟩

/-- Settles O41: IC-HANDOFF where it is enabled, and the turn spent where it is not. -/
theorem handoffDeliversTheVector : Obligations.HandoffDeliversTheVector := by
  intro s more hf ha hi
  have hstep := step_of_ic hf ha
  refine ⟨fun hk => hstep.trans (congrArg _ (State.icStep_of_wait hi (.inl hk))),
    fun hv => hstep.trans (congrArg _ (State.icStep_of_wait hi (.inr hv))), fun hk hv => hstep.trans ?_⟩
  rw [State.icStep_of_handoff (s := { s with agenda := more }) hi hk hv, State.icHandoff_eq]

/-! ### The requests (60_exceptions.md R420, R421) -/

theorem Ic.halt_of_halted {x : Ic} (h : x.halted = true) : x.halt = x := by
  rw [Ic.halt, ← h]

/-- CPU-POST of a HALT-class block leaves the CPU halted (60_exceptions.md R443). -/
theorem State.cpuPost_halted {s : State} {b : Block} (h : b.haltsCpu = true) : (s.cpuPost b).ic.halted = true := by
  rw [State.cpuPost_of_haltsCpu h]
  exact State.haltBlock_halted h

/-- Settles O43: `halt()`, its three callers, and `interrupt(vector)` of a controller that accepts and one that does not. -/
theorem haltAndInterruptRequests : Obligations.HaltAndInterruptRequests := by
  refine ⟨fun x => ⟨rfl, Ic.halt_of_halted⟩, fun s more hf ha => step_of_env hf ha, fun s t rest b hs ht hp hb h => ?post,
    fun s t more hf ha hi hq he h => ?accepted, fun s v more hf ha => ?interrupt⟩
  case post =>
    rw [step_of_post hs ht hp] at h
    cases h
    exact State.cpuPost_halted hb
  case accepted =>
    obtain ⟨v, rest, hq⟩ := List.exists_cons_of_ne_nil hq
    rw [(requestIsAcceptedOrDiscarded s v rest more hf ha hi hq).2 he] at h
    cases h
    rfl
  case interrupt =>
    rw [step_of_env hf ha]
    exact ⟨fun h => congrArg _ (if_pos h), fun h => congrArg _ (if_neg (ne_true_of_eq_false h))⟩

/-! ### The interrupt entry (60_exceptions.md R446) -/

/-- Settles O42: CPU-WAKE is the push of PC from the state with the slot emptied, and then the vector. -/
theorem interruptEntryPushesThePc : Obligations.InterruptEntryPushesThePc := by
  intro s rest v hs ht hp hv entered atVector
  have hstep : step s = ((entered.twoWrites (s.sp - 2) s.pc).bind fun _ t => .ok () (atVector t)).outcome :=
    step_of_wake hs ht hp hv
  refine ⟨hstep, fun hr h0 h1 => ?completes, hstep ▸ entered.writeWord_writes (s.sp - 2) s.pc atVector⟩
  case completes =>
    obtain ⟨m, c, hpush, hc, hword, hother, hdrops⟩ :=
      State.pushWord_stores (s := { s with agenda := rest, ic := { s.ic with vectorSlot := none } }) s.pc hr h0 h1
    refine ⟨atVector (entered.stored m c), ?_, rfl, rfl, hword, rfl, rfl, Regs.setSp_setPc_kept s.regs _ _, ?_, hother, hc,
      hdrops⟩
    · exact hstep.trans (congrArg (fun x => (Res.bind x fun _ t => .ok () (atVector t)).outcome) hpush)
    · rw [← hr]
      rfl

/-- Settles O44: IC-ACCEPT, IC-HANDOFF, CPU-WAKE, each by its own statement. -/
theorem interruptIsServed : Obligations.InterruptIsServed := by
  intro s v hs hp he hi hk hv _ hq ha h0 h1
  have hf : s.faulted = false := State.not_faulted_of_phase hp rfl
  have haccept := (requestIsAcceptedOrDiscarded s v [] _ hf ha hi hq).2 he
  obtain ⟨-, -, hhandoff⟩ := handoffDeliversTheVector { s with
    agenda := [.other .ic, .cpu]
    regs := { s.regs with iff1 := false }
    ic := { s.ic with reqQueue := [], interrupting := true, halted := true, icVector := some v } } [.cpu] hf rfl rfl
  have hwake := (interruptEntryPushesThePc { s with
    agenda := [.cpu]
    regs := { s.regs with iff1 := false }
    ic := { s.ic with
      reqQueue := [], interrupting := false, halted := true, icVector := none, vectorSlot := some v, resumeTasks := [] }
    log := s.log ++ s.ic.resumeTasks.map fun _ => .signalResume
    periphHalted := if s.ic.resumeTasks = [] then s.periphHalted else false } [] v hs (.inl rfl) hp rfl).2.1 rfl h0 h1
  obtain ⟨t, hstep, hpc, hsp, hword, hphase, hic, hregs, -, hother, -, -⟩ := hwake
  refine ⟨t, ?_, hpc, hsp, hword, hphase, hregs.iff1, hregs.iff2, by rw [hic], by rw [hic], by rw [hic], by rw [hic],
    fun x => hregs.bytes x List.not_mem_nil, hother⟩
  rw [steps_succ haccept, steps_succ (hhandoff hk hv), steps_succ hstep]
  rfl

end Sys2Proof.Machine

/-! SUPPORT. CPU-FETCH: what it takes from the cache or from the decoder, and where RD0 stops at a word it refuses or at a byte
it cannot read (60_exceptions.md R405, R406, R441; 30_encoding.md R170, R175). -/

namespace Sys2Proof.Machine

/-! ### What a compile function leaves (20_memory.md R135) -/

section Compile

variable {s t : State} {f : CompileFn} {a : Word}

theorem State.compile_ok_regs {b : Block} (h : s.compile f a = .ok b t) : t.regs = s.regs := by
  rcases s.compile_effect f a with ⟨c, l, d, hc, -⟩ | ⟨e, l, d, -, he⟩
  · rw [hc] at h
    cases h
    rfl
  · rw [he] at h
    cases h

/-- A compile function that raises ends in an error of a decoder, and only answers and draws were used up before. -/
theorem State.compile_raised_error (h : s.compile f a = .raised t) :
    ∃ e l d, e.ofDecoder ∧ t = (s.answered l d).raise e := by
  rcases s.compile_effect f a with ⟨c, l, d, hc, -⟩ | ⟨e, l, d, hd, he⟩
  · rw [hc] at h
    cases h
  · rw [he] at h
    cases h
    exact ⟨e, l, d, hd, rfl⟩

end Compile

/-! ### Where RD0 stops (30_encoding.md R170) -/

/-- From `p` on stand `k` words that are micro-operations and end no block (30_encoding.md R171). -/
def State.legalRun (s : State) (p : Word) (k : Nat) : Prop :=
  ∀ m, m < k → ∃ i, decodeBytes (s.fourBytes (p + BitVec.ofNat 16 (4 * m))) = .ok (i, []) ∧ i.isTerminator = false

section Decode

variable {s : State}

theorem State.legalRun_succ {p : Word} {k : Nat} (h : s.legalRun p (k + 1)) :
    (∃ i, decodeBytes (s.fourBytes p) = .ok (i, []) ∧ i.isTerminator = false) ∧ s.legalRun (p + 4) k := by
  refine ⟨by simpa using h 0 (Nat.succ_pos k), fun m hm => ?_⟩
  rw [← add_ofNat_four]
  exact h (m + 1) (Nat.succ_lt_succ hm)

/-- The decoder's read of a run ends in the ReadFault of the first byte that raises (60_exceptions.md R405). -/
theorem State.readAtomic_of_readRaises : ∀ {n : Nat} {a : Word} {k : Nat}, k < n → s.readableRun a k →
    s.readRaises (a + BitVec.ofNat 16 k) →
      State.readAtomic n a s = .raised (s.raise (.readFault (a + BitVec.ofNat 16 k)))
  | 0, _, _, hk, _, _ => absurd hk (Nat.not_lt_zero _)
  | n + 1, a, 0, _, _, hf => by
    rw [BitVec.add_zero] at hf ⊢
    rw [State.readAtomic, State.readByte_of_readRaises hf, Res.bind_raised]
  | n + 1, a, k + 1, hk, hr, hf => by
    obtain ⟨h0, h1⟩ := State.readableRun_succ hr
    rw [add_ofNat_succ] at hf ⊢
    rw [State.readAtomic, State.readByte_of_readable h0, Res.bind_ok,
      State.readAtomic_of_readRaises (Nat.lt_of_succ_lt_succ hk) h1 hf, Res.bind_raised]

/-- An illegal word raises with its own address (60_exceptions.md R406). -/
theorem State.decodeFrom_of_error {p : Word} {e : DecodeError} (n : Nat) (hr : s.readableRun p 4)
    (hd : decodeBytes (s.fourBytes p) = .error e) :
    State.decodeFrom (n + 1) p s = .raised (s.raise (.unsupportedInstruction p)) := by
  rw [State.decodeFrom_succ n hr, hd]

/-- A byte of the word that raises ends the decoding in its ReadFault (60_exceptions.md R405). -/
theorem State.decodeFrom_of_readRaises {p : Word} {j : Nat} (n : Nat) (hj : j < 4) (hr : s.readableRun p j)
    (hf : s.readRaises (p + BitVec.ofNat 16 j)) :
    State.decodeFrom (n + 1) p s = .raised (s.raise (.readFault (p + BitVec.ofNat 16 j))) := by
  rw [State.decodeFrom, State.readAtomic_of_readRaises hj hr hf, Res.bind_raised]

/-- A terminator is all of the body (30_encoding.md R171). -/
theorem State.decodeFrom_of_terminator {p : Word} {i : Instr} {rest : List Byte} (n : Nat) (hr : s.readableRun p 4)
    (hd : decodeBytes (s.fourBytes p) = .ok (i, rest)) (ht : i.isTerminator = true) :
    State.decodeFrom (n + 1) p s = .ok [i] s := by
  rw [State.decodeFrom_succ n hr, hd]
  exact if_pos ht

/-- A micro-operation that ends no block is followed by what stands after it. -/
theorem State.decodeFrom_of_legal {p : Word} {i : Instr} {rest : List Byte} (n : Nat) (hr : s.readableRun p 4)
    (hd : decodeBytes (s.fourBytes p) = .ok (i, rest)) (ht : i.isTerminator = false) :
    State.decodeFrom (n + 1) p s = (State.decodeFrom n (p + 4) s).bind fun body t => .ok (i :: body) t := by
  rw [State.decodeFrom_succ n hr, hd]
  exact if_neg (ne_true_of_eq_false ht)

/-- A body formed from a word that can be read begins with the micro-operation it decodes to. -/
theorem State.decodeFrom_head {t : State} {p : Word} {i : Instr} {rest : List Byte} {body : List Instr} {n : Nat}
    (hr : s.readableRun p 4) (hd : decodeBytes (s.fourBytes p) = .ok (i, rest))
    (h : State.decodeFrom (n + 1) p s = .ok body t) : body[0]? = some i := by
  cases ht : i.isTerminator with
  | true =>
    rw [State.decodeFrom_of_terminator n hr hd ht] at h
    cases h
    rfl
  | false =>
    rw [State.decodeFrom_of_legal n hr hd ht] at h
    cases hb : State.decodeFrom n (p + 4) s <;> rw [hb] at h <;> cases h
    rfl

/-- After `k` micro-operations that end no block, an error met at the word after them is the error of the whole body. -/
theorem State.decodeFrom_of_legalRun {t : State} : ∀ {k n : Nat} {p : Word}, s.readableRun p (4 * k) → s.legalRun p k →
    State.decodeFrom n (p + BitVec.ofNat 16 (4 * k)) s = .raised t → State.decodeFrom (n + k) p s = .raised t
  | 0, n, p, _, _, h => by simpa using h
  | k + 1, n, p, hr, hl, h => by
    obtain ⟨⟨i, hd, ht⟩, hl'⟩ := State.legalRun_succ hl
    rw [add_ofNat_four] at h
    have hr' : s.readableRun (p + 4) (4 * k) := State.readableRun_drop 4 (State.readableRun_mono hr (by omega))
    rw [← Nat.add_assoc, State.decodeFrom_of_legal (n + k) (State.readableRun_mono hr (by omega)) hd ht,
      State.decodeFrom_of_legalRun hr' hl' h, Res.bind_raised]

/-- RD0 ends in the error it meets at the word after `k` micro-operations that end no block, that word being one within the
limit of the block. -/
theorem State.decodeBlock_of_legalRun {t : State} {p : Word} {k : Nat} (hk : k < max 1 s.cfg.maxBlockUops)
    (hr : s.readableRun p (4 * k)) (hl : s.legalRun p k)
    (h : ∀ n, State.decodeFrom (n + 1) (p + BitVec.ofNat 16 (4 * k)) s = .raised t) : s.decodeBlock p = .raised t := by
  obtain ⟨n, hn⟩ : ∃ n, max 1 s.cfg.maxBlockUops = n + 1 + k := ⟨max 1 s.cfg.maxBlockUops - 1 - k, by omega⟩
  rw [State.decodeBlock, hn, State.decodeFrom_of_legalRun hr hl (h n), Res.bind_raised]

/-- The body of RD0's block has room for a first micro-operation, whatever the limit (log 23). -/
theorem max_one_eq_succ (m : Nat) : ∃ n, max 1 m = n + 1 :=
  ⟨max 1 m - 1, by omega⟩

theorem State.decodeBlock_of_terminator {p : Word} {i : Instr} {rest : List Byte} (hr : s.readableRun p 4)
    (hd : decodeBytes (s.fourBytes p) = .ok (i, rest)) (ht : i.isTerminator = true) :
    s.decodeBlock p = .ok (blockOf p [i]) s := by
  obtain ⟨n, hn⟩ := max_one_eq_succ s.cfg.maxBlockUops
  rw [State.decodeBlock, hn, State.decodeFrom_of_terminator n hr hd ht, Res.bind_ok]

/-- RD0's block is the `blockOf` of a body that begins with the micro-operation at its address, if that can be read. -/
theorem State.decodeBlock_head {t : State} {p : Word} {i : Instr} {rest : List Byte} {b : Block} (hr : s.readableRun p 4)
    (hd : decodeBytes (s.fourBytes p) = .ok (i, rest)) (h : s.decodeBlock p = .ok b t) :
    b = blockOf p b.body ∧ b.body[0]? = some i := by
  rcases s.decodeBlock_effect p with ⟨body, l, d, hblock, hfrom, -⟩ | ⟨e, l, d, -, hraised⟩
  · rw [hblock] at h
    cases h
    obtain ⟨n, hn⟩ := max_one_eq_succ s.cfg.maxBlockUops
    rw [hn] at hfrom
    exact ⟨rfl, State.decodeFrom_head hr hd hfrom⟩
  · rw [hraised] at h
    cases h

theorem blockOf_singleton_wf (c : Config) (p : Word) {i : Instr} (hw : i.wf = true) : (blockOf p [i]).wf c := by
  refine ⟨by simp, by simp [spaceSize], by simp, ?_, (wfBody_cons i []).2 ⟨hw, .inl rfl⟩⟩
  exact Nat.le_max_left 1 c.maxBlockUops

end Decode

/-! ### CPU-FETCH (60_exceptions.md R441) -/

theorem State.cpuFetch_of_ok {s t : State} {b : Block} (hc : s.cancel = false)
    (h : s.getOrCompile (.decoder s.cfg.decoder) s.pc = .ok b t) :
    s.cpuFetch = { t with
      phase := .execute b 0, regs := { t.regs with pc := b.address + BitVec.ofNat 16 b.length } } := by
  rw [State.cpuFetch, if_neg (ne_true_of_eq_false hc), h]
  rfl

theorem State.cpuFetch_of_raised {s t : State} (hc : s.cancel = false)
    (h : s.getOrCompile (.decoder s.cfg.decoder) s.pc = .raised t) : s.cpuFetch = t := by
  rw [State.cpuFetch, if_neg (ne_true_of_eq_false hc), h]

section Fetch

variable {s : State} {rest : List Turn} (hs : s.started = true) (ht : s.cpuTurn rest) (hp : s.phase = .fetch)
  (hc : s.cancel = false)
include hs ht hp hc

theorem step_of_fetch_ok {t : State} {b : Block}
    (h : State.getOrCompile { s with agenda := rest } (.decoder s.cfg.decoder) s.pc = .ok b t) :
    step s = .next { t with
      phase := .execute b 0, regs := { t.regs with pc := b.address + BitVec.ofNat 16 b.length } } :=
  (step_of_fetch hs ht hp).trans (congrArg _ (State.cpuFetch_of_ok hc h))

theorem step_of_fetch_raised {t : State}
    (h : State.getOrCompile { s with agenda := rest } (.decoder s.cfg.decoder) s.pc = .raised t) : step s = .next t :=
  (step_of_fetch hs ht hp).trans (congrArg _ (State.cpuFetch_of_raised hc h))

/-- Where RD0 raises on the block at PC, that ends the fetch step. -/
theorem step_of_decodeBlock_raised {t : State} (hd : s.cfg.decoder = .rd0) (hn : s.cache.find s.pc = none)
    (h : State.decodeBlock { s with agenda := rest } s.pc = .raised t) : step s = .next t := by
  refine step_of_fetch_raised hs ht hp hc ?_
  rw [hd]
  exact State.getOrCompile_of_compile_raised (s := { s with agenda := rest }) (f := .decoder .rd0) h hn

/-- A terminator at PC is fetched as the block of it alone. -/
theorem step_of_fetch_terminator {i : Instr} (hd : s.cfg.decoder = .rd0) (hn : s.cache.find s.pc = none)
    (hr : s.readableRun s.pc 4) (hi : decodeBytes (s.fourBytes s.pc) = .ok (i, [])) (hterm : i.isTerminator = true) :
    step s = .next { s with
      agenda := rest, cache := s.cache.insert (entryOf (blockOf s.pc [i])), phase := .execute (blockOf s.pc [i]) 0
      regs := { s.regs with pc := s.pc + 4 } } := by
  have hblock := State.decodeBlock_of_terminator (s := { s with agenda := rest }) hr hi hterm
  have hok := (State.getOrCompile_of_compile (s := { s with agenda := rest }) (f := .decoder .rd0) hblock hn).1
    (blockOf_singleton_wf s.cfg s.pc (decodeBytes_wf hi))
  exact step_of_fetch_ok hs ht hp hc (hd ▸ hok)

/-- A fetch step that raised nothing gives the block RD0 forms at PC, which begins with the micro-operation there. -/
theorem step_of_fetch_rd0 {t : State} {i : Instr} (hd : s.cfg.decoder = .rd0) (hn : s.cache.find s.pc = none)
    (hr : s.readableRun s.pc 4) (hi : decodeBytes (s.fourBytes s.pc) = .ok (i, [])) (h : step s = .next t)
    (hf : t.faulted = false) :
    ∃ body, body[0]? = some i ∧ t.phase = .execute (blockOf s.pc body) 0 ∧ t.agenda = rest ∧ t.started = true ∧
      t.pc = s.pc + BitVec.ofNat 16 (4 * body.length) := by
  rcases State.getOrCompile_effect { s with agenda := rest } (.decoder s.cfg.decoder) s.pc with
    ⟨e, he, -⟩ | ⟨-, b, l, d, hb, -, -, hok⟩ | ⟨-, e, l, d, -, hraised⟩
  · cases hn.symm.trans he
  · rw [step_of_fetch_ok hs ht hp hc hok] at h
    cases h
    rw [hd] at hb
    obtain ⟨hblock, hhead⟩ := State.decodeBlock_head (s := { s with agenda := rest }) hr hi hb
    refine ⟨b.body, hhead, congrArg (Phase.execute · 0) hblock, rfl, hs, ?_⟩
    rw [hblock]
    rfl
  · rw [step_of_fetch_raised hs ht hp hc hraised] at h
    cases h
    cases hf

end Fetch

/-- Settles O36: the cancelled fetch, the hit, the decoder's block taken or not, its error, and RD0's ReadFault. -/
theorem fetchTakesABlock : Obligations.FetchTakesABlock := by
  refine fun s rest hs ht hp => ⟨fun hc => ?cancelled, fun hc e he => ?hit, fun hc hn b t hb => ?decoded,
    fun hc hn t hr => ?raised, fun hc hn hd k j hk hj hr hl hf => ?readFault⟩
  case cancelled => exact (step_of_fetch hs ht hp).trans (congrArg _ (State.cpuFetch_of_cancel hc))
  case hit =>
    exact ⟨s.cache.touch s.pc,
      step_of_fetch_ok hs ht hp hc (State.getOrCompile_of_find (s := { s with agenda := rest }) _ he),
      Cache.find_touch_self he, fun a ha => Cache.find_touch_of_ne ha s.cache⟩
  case decoded =>
    obtain ⟨hcache, haddr⟩ := State.compile_ok (f := .decoder s.cfg.decoder) hb
    obtain ⟨hself, hother⟩ := Cache.find_insert_entryOf t.cache haddr
    obtain ⟨hok, hbad⟩ :=
      State.getOrCompile_of_compile (s := { s with agenda := rest }) (f := .decoder s.cfg.decoder) hb hn
    refine ⟨haddr, fun hw => ⟨t.cache.insert (entryOf b), ?_, hself, fun a ha => ?_⟩, fun hw => ⟨?_, hcache, ?_⟩⟩
    · rw [← haddr]
      exact step_of_fetch_ok hs ht hp hc (hok hw)
    · rw [hother a ha, hcache]
    · exact step_of_fetch_raised hs ht hp hc (hbad hw)
    · exact State.compile_ok_regs (s := { s with agenda := rest }) (f := .decoder s.cfg.decoder) hb
  case raised =>
    obtain ⟨e, l, d, he, rfl⟩ := State.compile_raised_error (f := .decoder s.cfg.decoder) hr
    exact ⟨step_of_fetch_raised hs ht hp hc
        (State.getOrCompile_of_compile_raised (s := { s with agenda := rest }) (f := .decoder s.cfg.decoder) hr hn),
      rfl, rfl, rfl, e, rfl, he, rfl⟩
  case readFault =>
    rw [BitVec.ofNat_add, ← BitVec.add_assoc] at hf ⊢
    exact step_of_decodeBlock_raised hs ht hp hc hd hn (State.decodeBlock_of_legalRun (s := { s with agenda := rest }) hk
      (State.readableRun_mono hr (Nat.le_add_right _ _)) hl
      fun n => State.decodeFrom_of_readRaises n hj (State.readableRun_drop (4 * k) hr) hf)

/-- Settles O38: RD0 raises at the illegal word, with the address of that word, and the step after finds the engine Faulted. -/
theorem illegalWordStopsTheFetch : Obligations.IllegalWordStopsTheFetch := by
  intro s rest k hd hs ht hp hc hn hk hr hl ⟨e, he⟩
  have hblock : State.decodeBlock { s with agenda := rest } s.pc =
      .raised ({ s with agenda := rest }.raise (.unsupportedInstruction (s.pc + BitVec.ofNat 16 (4 * k)))) :=
    State.decodeBlock_of_legalRun (s := { s with agenda := rest }) hk (State.readableRun_mono hr (Nat.le_add_right _ _)) hl
      fun n => State.decodeFrom_of_error n (State.readableRun_drop (4 * k) hr) he
  exact ⟨_, step_of_decodeBlock_raised hs ht hp hc hd hn hblock, rfl, rfl, rfl, rfl, fun _ => rfl, step_of_faulted rfl⟩

/-- Settles O35: the block RD0 forms at PC begins with the micro-operation there, which the CPU's next turn runs. -/
theorem bytesAtThePcAreRun : Obligations.BytesAtThePcAreRun := by
  refine fun s rest i hd hs ht hp hc hn hr hi => ⟨fun t h hf => ?block, fun hterm => ?terminator⟩
  case block =>
    obtain ⟨body, hhead, hphase, hagenda, hstarted, hpc⟩ := step_of_fetch_rd0 hs ht hp hc hd hn hr hi h hf
    exact ⟨blockOf s.pc body, hphase, rfl, hhead, hagenda, hpc, fun more hm => step_runsUop hstarted hm hphase hhead⟩
  case terminator =>
    exact ⟨_, step_of_fetch_terminator hs ht hp hc hd hn hr hi hterm, rfl, rfl, rfl, Regs.setPc_kept s.regs _,
      fun _ => rfl, fun more hm => step_runsUop hs hm rfl rfl⟩

end Sys2Proof.Machine
